-- ==== Sys2Proof/Word.lean ====
section
/-!
DEFINITION. The word types of the block (R11: all values are unsigned, bit 0 is the least significant).
-/
namespace Sys2Proof

/-- A byte of shared memory. -/
abbrev Byte := BitVec 8

/-- A 16-bit value: a ring index, an occupancy count, the `IMM` operand (R19, R58). -/
abbrev Half := BitVec 16

/-- A 32-bit value: a command word, a CQE word, a device-register word (R58, R41, R48). -/
abbrev Word := BitVec 32

/-- A 64-bit value: the `val` of a response, a CQE trailer (R59, R65). -/
abbrev DWord := BitVec 64

/-- A 64-bit byte address (R34). -/
abbrev Addr := BitVec 64

end Sys2Proof
end

