-- ==== Sys2Proof/Syntax.lean ====
section
/-!
DEFINITION. Syntax: CQE values (R41), the registers `RD_STATE` names (R27), the commands, one
constructor per row of spec/opcode_table.json (R61), and a command as the Host presents it (R58).
-/
namespace Sys2Proof

/-- A CQE value (R41): the five host-order words of a completion record; reserved bytes are not part of it. -/
structure Cqe where
  header : Word
  len : Word
  payHi : Word
  payLo : Word
  trailer : DWord
deriving DecidableEq, Repr

/-- The registers of R27 that have an RD number. -/
inductive Reg where
  | nSq | sqInUse | sqPidx | sqCidx
  | nRq | rqInUse | rqPidx | rqCidx | rqMsn
  | wqSwError
  | nCq | cqCidx | cqGen | cqCidxInc | cqLastTs | cqError
  | cqSwInUse | cqSwPidx | cqSwCidx
deriving DecidableEq, Repr

/-- The commands of R61. `RD_STATE` keeps its 16-bit operand, so that a number outside R27 is an
ill-formed command rather than an unwritable one (R62). -/
inductive Instr where
  /-- `SQ_PRODUCE` (R72). -/
  | sqProduce
  /-- `SQ_CONSUME` (R73). -/
  | sqConsume
  /-- `SQ_EMPTY` (R74). -/
  | sqEmpty
  /-- `SQ_FULL` (R75). -/
  | sqFull
  /-- `SQ_AVAIL` (R76). -/
  | sqAvail
  /-- `RING_SQ_DB` (R77). -/
  | ringSqDb (inc : Half)
  /-- `RQ_PRODUCE` (R78). -/
  | rqProduce
  /-- `RQ_CONSUME` (R79). -/
  | rqConsume
  /-- `RQ_EMPTY` (R80). -/
  | rqEmpty
  /-- `RQ_FULL` (R81). -/
  | rqFull
  /-- `RQ_AVAIL` (R82). -/
  | rqAvail
  /-- `RING_RQ_DB` (R83). -/
  | ringRqDb (inc : Half)
  /-- `RQES_POSTED` (R84). -/
  | rqesPosted
  /-- `WQ_IN_ERROR` (R86). -/
  | wqInError
  /-- `WQ_SET_ERROR` (R87). -/
  | wqSetError
  /-- `WQ_DISABLE_DB` (R88). -/
  | wqDisableDb
  /-- `WQ_ENABLE_DB` (R89). -/
  | wqEnableDb
  /-- `WQ_DB_ENABLED` (R90). -/
  | wqDbEnabled
  /-- `CQ_HW_CONSUME` (R91). -/
  | cqHwConsume
  /-- `CQ_IS_VALID` (R92). -/
  | cqIsValid (record : Cqe)
  /-- `CQ_NEXT_HW` (R93). -/
  | cqNextHw
  /-- `CQ_NEXT_SW` (R95). -/
  | cqNextSw
  /-- `CQ_NEXT` (R96). -/
  | cqNext
  /-- `CQ_ARM` (R99). -/
  | cqArm (se : BitVec 1)
  /-- `CQ_SW_PRODUCE` (R97). -/
  | cqSwProduce
  /-- `CQ_SW_CONSUME` (R98). -/
  | cqSwConsume
  /-- `CQ_IN_ERROR` (R100). -/
  | cqInError
  /-- `CQ_SET_ERROR` (R101). -/
  | cqSetError
  /-- `CQ_CLEAR_ERROR` (R102). -/
  | cqClearError
  /-- `CQE_QPID` (R106). -/
  | cqeQpid (record : Cqe)
  /-- `CQE_SWCQE` (R107). -/
  | cqeSwcqe (record : Cqe)
  /-- `CQE_STATUS` (R108). -/
  | cqeStatus (record : Cqe)
  /-- `CQE_TYPE` (R109). -/
  | cqeType (record : Cqe)
  /-- `CQE_OPCODE` (R110). -/
  | cqeOpcode (record : Cqe)
  /-- `CQE_SEND_OPCODE` (R111). -/
  | cqeSendOpcode (record : Cqe)
  /-- `CQE_LEN` (R112). -/
  | cqeLen (record : Cqe)
  /-- `CQE_WRID_STAG` (R113). -/
  | cqeWridStag (record : Cqe)
  /-- `CQE_WRID_MSN` (R114). -/
  | cqeWridMsn (record : Cqe)
  /-- `CQE_WRID_SQ_IDX` (R115). -/
  | cqeWridSqIdx (record : Cqe)
  /-- `CQE_WRID_HI` (R116). -/
  | cqeWridHi (record : Cqe)
  /-- `CQE_WRID_LOW` (R117). -/
  | cqeWridLow (record : Cqe)
  /-- `CQE_GENBIT` (R118). -/
  | cqeGenbit (record : Cqe)
  /-- `CQE_OVFBIT` (R119). -/
  | cqeOvfbit (record : Cqe)
  /-- `CQE_IQTYPE` (R120). -/
  | cqeIqtype (record : Cqe)
  /-- `CQE_TS` (R121). -/
  | cqeTs (record : Cqe)
  /-- `RD_STATE` (R123). -/
  | rdState (r : Half)
deriving DecidableEq, Repr

/-- A command as presented on the command port (R58): the command word `CW` and the record operand
`REC`, if one is given. -/
structure Command where
  cw : Word
  record : Option Cqe
deriving DecidableEq, Repr

end Sys2Proof
end

