-- ==== Sys2Proof/Machine/RegNumber.lean ====
section
/-!
DEFINITION. The RD numbers of the register table (R27), as `RD_STATE` uses them (R123).
-/
namespace Sys2Proof

/-- The register an RD number of R27 names; none for every other number. -/
def Reg.ofNumber? (r : Half) : Option Reg :=
  match r.toNat with
  | 0x00 => some .nSq
  | 0x01 => some .sqInUse
  | 0x02 => some .sqPidx
  | 0x03 => some .sqCidx
  | 0x08 => some .nRq
  | 0x09 => some .rqInUse
  | 0x0A => some .rqPidx
  | 0x0B => some .rqCidx
  | 0x0C => some .rqMsn
  | 0x10 => some .wqSwError
  | 0x20 => some .nCq
  | 0x21 => some .cqCidx
  | 0x22 => some .cqGen
  | 0x23 => some .cqCidxInc
  | 0x24 => some .cqLastTs
  | 0x25 => some .cqError
  | 0x26 => some .cqSwInUse
  | 0x27 => some .cqSwPidx
  | 0x28 => some .cqSwCidx
  | _ => none

end Sys2Proof
end

