-- ==== Sys2Proof/WellFormed.lean ====
section
/-!
DEFINITION. Well-formed commands. The operands' types carry every range of R58 but one: the register
number of `RD_STATE` must be an RD number of R27 (R62, R123).
-/
namespace Sys2Proof

/-- Whether a command is well formed (R62): only `RD_STATE` can be ill formed. -/
def Instr.wellFormed : Instr → Bool
  | .sqProduce => true
  | .sqConsume => true
  | .sqEmpty => true
  | .sqFull => true
  | .sqAvail => true
  | .ringSqDb _ => true
  | .rqProduce => true
  | .rqConsume => true
  | .rqEmpty => true
  | .rqFull => true
  | .rqAvail => true
  | .ringRqDb _ => true
  | .rqesPosted => true
  | .wqInError => true
  | .wqSetError => true
  | .wqDisableDb => true
  | .wqEnableDb => true
  | .wqDbEnabled => true
  | .cqHwConsume => true
  | .cqIsValid _ => true
  | .cqNextHw => true
  | .cqNextSw => true
  | .cqNext => true
  | .cqArm _ => true
  | .cqSwProduce => true
  | .cqSwConsume => true
  | .cqInError => true
  | .cqSetError => true
  | .cqClearError => true
  | .cqeQpid _ => true
  | .cqeSwcqe _ => true
  | .cqeStatus _ => true
  | .cqeType _ => true
  | .cqeOpcode _ => true
  | .cqeSendOpcode _ => true
  | .cqeLen _ => true
  | .cqeWridStag _ => true
  | .cqeWridMsn _ => true
  | .cqeWridSqIdx _ => true
  | .cqeWridHi _ => true
  | .cqeWridLow _ => true
  | .cqeGenbit _ => true
  | .cqeOvfbit _ => true
  | .cqeIqtype _ => true
  | .cqeTs _ => true
  | .rdState r => (Reg.ofNumber? r).isSome

end Sys2Proof
end

