-- ==== Sys2Proof/Decode.lean ====
section
/-!
DEFINITION. Decoding a presented command (R58, R61), total, rejecting every illegal command under the
name of the clause of R62 it breaks; and the encoder, written from the same table.
-/
namespace Sys2Proof

/-- The clause of R62 an illegal command breaks. Each of them raises `F_ILLEGAL_CMD`. -/
inductive Illegal where
  | unmappedOp
  | reservedBits
  | solicitedFlag
  | immediate
  | registerNumber
  | missingRecord
deriving DecidableEq, Repr

/-- `OP`, bits 31 to 24 of a command word (R58). -/
def cwOp (w : Word) : BitVec 8 := w.extractLsb' 24 8

/-- `RSV`, bits 23 to 17 (R58). -/
def cwRsv (w : Word) : BitVec 7 := w.extractLsb' 17 7

/-- `S`, bit 16 (R58). -/
def cwS (w : Word) : BitVec 1 := w.extractLsb' 16 1

/-- `IMM`, bits 15 to 0 (R58). -/
def cwImm (w : Word) : Half := w.extractLsb' 0 16

/-- A command that uses no field of `CW` beyond `OP` (R62: `RSV`, `S` and `IMM` must be 0). -/
def noOperand (w : Word) (i : Instr) : Except Illegal Instr :=
  if cwRsv w ≠ 0 then .error .reservedBits
  else if cwS w ≠ 0 then .error .solicitedFlag
  else if cwImm w ≠ 0 then .error .immediate
  else .ok i

/-- A command that uses `IMM`: `RING_SQ_DB` and `RING_RQ_DB` (R58). -/
def withImm (w : Word) (f : Half → Instr) : Except Illegal Instr :=
  if cwRsv w ≠ 0 then .error .reservedBits
  else if cwS w ≠ 0 then .error .solicitedFlag
  else .ok (f (cwImm w))

/-- A command that uses `S`: `CQ_ARM` (R58). -/
def withSolicited (w : Word) (f : BitVec 1 → Instr) : Except Illegal Instr :=
  if cwRsv w ≠ 0 then .error .reservedBits
  else if cwImm w ≠ 0 then .error .immediate
  else .ok (f (cwS w))

/-- `RD_STATE`, whose `IMM` must be an RD number of R27 (R62). -/
def withRegister (w : Word) (f : Half → Instr) : Except Illegal Instr :=
  if cwRsv w ≠ 0 then .error .reservedBits
  else if cwS w ≠ 0 then .error .solicitedFlag
  else if (Reg.ofNumber? (cwImm w)).isNone then .error .registerNumber
  else .ok (f (cwImm w))

/-- A command marked *rec* (R61): a record operand must be presented with it (R62). -/
def withRecord (c : Command) (f : Cqe → Instr) : Except Illegal Instr :=
  if cwRsv c.cw ≠ 0 then .error .reservedBits
  else if cwS c.cw ≠ 0 then .error .solicitedFlag
  else if cwImm c.cw ≠ 0 then .error .immediate
  else match c.record with
    | none => .error .missingRecord
    | some r => .ok (f r)

/-- The command map of R61. A record presented with a command not marked *rec* is ignored (R62). -/
def decode (c : Command) : Except Illegal Instr :=
  match (cwOp c.cw).toNat with
  | 0x01 => noOperand c.cw .sqProduce
  | 0x02 => noOperand c.cw .sqConsume
  | 0x03 => noOperand c.cw .sqEmpty
  | 0x04 => noOperand c.cw .sqFull
  | 0x05 => noOperand c.cw .sqAvail
  | 0x06 => withImm c.cw .ringSqDb
  | 0x09 => noOperand c.cw .rqProduce
  | 0x0A => noOperand c.cw .rqConsume
  | 0x0B => noOperand c.cw .rqEmpty
  | 0x0C => noOperand c.cw .rqFull
  | 0x0D => noOperand c.cw .rqAvail
  | 0x0E => withImm c.cw .ringRqDb
  | 0x0F => noOperand c.cw .rqesPosted
  | 0x10 => noOperand c.cw .wqInError
  | 0x11 => noOperand c.cw .wqSetError
  | 0x12 => noOperand c.cw .wqDisableDb
  | 0x13 => noOperand c.cw .wqEnableDb
  | 0x14 => noOperand c.cw .wqDbEnabled
  | 0x20 => noOperand c.cw .cqHwConsume
  | 0x21 => withRecord c .cqIsValid
  | 0x22 => noOperand c.cw .cqNextHw
  | 0x23 => noOperand c.cw .cqNextSw
  | 0x24 => noOperand c.cw .cqNext
  | 0x25 => withSolicited c.cw .cqArm
  | 0x26 => noOperand c.cw .cqSwProduce
  | 0x27 => noOperand c.cw .cqSwConsume
  | 0x28 => noOperand c.cw .cqInError
  | 0x29 => noOperand c.cw .cqSetError
  | 0x2A => noOperand c.cw .cqClearError
  | 0x30 => withRecord c .cqeQpid
  | 0x31 => withRecord c .cqeSwcqe
  | 0x32 => withRecord c .cqeStatus
  | 0x33 => withRecord c .cqeType
  | 0x34 => withRecord c .cqeOpcode
  | 0x35 => withRecord c .cqeSendOpcode
  | 0x36 => withRecord c .cqeLen
  | 0x37 => withRecord c .cqeWridStag
  | 0x38 => withRecord c .cqeWridMsn
  | 0x39 => withRecord c .cqeWridSqIdx
  | 0x3A => withRecord c .cqeWridHi
  | 0x3B => withRecord c .cqeWridLow
  | 0x3C => withRecord c .cqeGenbit
  | 0x3D => withRecord c .cqeOvfbit
  | 0x3E => withRecord c .cqeIqtype
  | 0x3F => withRecord c .cqeTs
  | 0x40 => withRegister c.cw .rdState
  | _ => .error .unmappedOp

/-- The command word with the given `OP`, `S` and `IMM` and `RSV` = 0 (R58, R70). -/
def commandWord (op : BitVec 8) (s : BitVec 1) (imm : Half) : Word :=
  op ++ (0 : BitVec 7) ++ s ++ imm

/-- The command an instruction is presented as, from the same map (R61). -/
def encode : Instr → Command
  | .sqProduce => ⟨commandWord 0x01 0 0, none⟩
  | .sqConsume => ⟨commandWord 0x02 0 0, none⟩
  | .sqEmpty => ⟨commandWord 0x03 0 0, none⟩
  | .sqFull => ⟨commandWord 0x04 0 0, none⟩
  | .sqAvail => ⟨commandWord 0x05 0 0, none⟩
  | .ringSqDb inc => ⟨commandWord 0x06 0 inc, none⟩
  | .rqProduce => ⟨commandWord 0x09 0 0, none⟩
  | .rqConsume => ⟨commandWord 0x0A 0 0, none⟩
  | .rqEmpty => ⟨commandWord 0x0B 0 0, none⟩
  | .rqFull => ⟨commandWord 0x0C 0 0, none⟩
  | .rqAvail => ⟨commandWord 0x0D 0 0, none⟩
  | .ringRqDb inc => ⟨commandWord 0x0E 0 inc, none⟩
  | .rqesPosted => ⟨commandWord 0x0F 0 0, none⟩
  | .wqInError => ⟨commandWord 0x10 0 0, none⟩
  | .wqSetError => ⟨commandWord 0x11 0 0, none⟩
  | .wqDisableDb => ⟨commandWord 0x12 0 0, none⟩
  | .wqEnableDb => ⟨commandWord 0x13 0 0, none⟩
  | .wqDbEnabled => ⟨commandWord 0x14 0 0, none⟩
  | .cqHwConsume => ⟨commandWord 0x20 0 0, none⟩
  | .cqIsValid record => ⟨commandWord 0x21 0 0, some record⟩
  | .cqNextHw => ⟨commandWord 0x22 0 0, none⟩
  | .cqNextSw => ⟨commandWord 0x23 0 0, none⟩
  | .cqNext => ⟨commandWord 0x24 0 0, none⟩
  | .cqArm se => ⟨commandWord 0x25 se 0, none⟩
  | .cqSwProduce => ⟨commandWord 0x26 0 0, none⟩
  | .cqSwConsume => ⟨commandWord 0x27 0 0, none⟩
  | .cqInError => ⟨commandWord 0x28 0 0, none⟩
  | .cqSetError => ⟨commandWord 0x29 0 0, none⟩
  | .cqClearError => ⟨commandWord 0x2A 0 0, none⟩
  | .cqeQpid record => ⟨commandWord 0x30 0 0, some record⟩
  | .cqeSwcqe record => ⟨commandWord 0x31 0 0, some record⟩
  | .cqeStatus record => ⟨commandWord 0x32 0 0, some record⟩
  | .cqeType record => ⟨commandWord 0x33 0 0, some record⟩
  | .cqeOpcode record => ⟨commandWord 0x34 0 0, some record⟩
  | .cqeSendOpcode record => ⟨commandWord 0x35 0 0, some record⟩
  | .cqeLen record => ⟨commandWord 0x36 0 0, some record⟩
  | .cqeWridStag record => ⟨commandWord 0x37 0 0, some record⟩
  | .cqeWridMsn record => ⟨commandWord 0x38 0 0, some record⟩
  | .cqeWridSqIdx record => ⟨commandWord 0x39 0 0, some record⟩
  | .cqeWridHi record => ⟨commandWord 0x3A 0 0, some record⟩
  | .cqeWridLow record => ⟨commandWord 0x3B 0 0, some record⟩
  | .cqeGenbit record => ⟨commandWord 0x3C 0 0, some record⟩
  | .cqeOvfbit record => ⟨commandWord 0x3D 0 0, some record⟩
  | .cqeIqtype record => ⟨commandWord 0x3E 0 0, some record⟩
  | .cqeTs record => ⟨commandWord 0x3F 0 0, some record⟩
  | .rdState r => ⟨commandWord 0x40 0 r, none⟩

/-- Whether an operation code is marked *rec* in R61. -/
def takesRecord (op : BitVec 8) : Bool :=
  op == 0x21 || (0x30 ≤ op.toNat && op.toNat ≤ 0x3F)

/-- A record operand written as five words in the order of R41, the first word lowest: the numbering
the opcode table would give it if it gave the record bits, which it does not (log 14). -/
def Cqe.ofTableBits (v : Nat) : Cqe where
  header := BitVec.ofNat 32 v
  len := BitVec.ofNat 32 (v >>> 32)
  payHi := BitVec.ofNat 32 (v >>> 64)
  payLo := BitVec.ofNat 32 (v >>> 96)
  trailer := BitVec.ofNat 64 (v >>> 128)

/-- The command whose bits are `w`, numbered as spec/opcode_table.json numbers them: `CW` is bits 31
to 0, and a *rec* command's record follows (all zeros where the table gives it no bits). -/
def Command.ofTableWord (nbits w : Nat) : Command :=
  let v := w % 2 ^ nbits
  let cw := BitVec.ofNat 32 v
  ⟨cw, if takesRecord (cwOp cw) then some (Cqe.ofTableBits (v >>> 32)) else none⟩

/-- The instruction the decoder reads from a word of the opcode table. -/
def decodeTableWord (nbits w : Nat) : Option Instr :=
  (decode (Command.ofTableWord nbits w)).toOption

end Sys2Proof
end

