-- ==== Sys2Proof/Config.lean ====
section
/-!
DEFINITION. The configuration record `CFG` (R8) and the spec's example configuration `EXCFG` (R10).
Well-formedness `WF(CFG)` (R9) is in Machine/Layout.lean, beside the regions it speaks of.
A configuration is plain data carried in State and changed by no command (log 1).
-/
namespace Sys2Proof

/-- `CFG`, exactly the fields of R8. Sizes, offsets, shifts and widths are natural numbers, since R9
checks their ranges; addresses are 64-bit and queue ids and masks 32-bit, as R8's table says. -/
structure Cfg where
  nSq : Nat
  nRq : Nat
  nCq : Nat
  sqStride : Nat
  rqStride : Nat
  slotBytes : Nat
  lenUnit : Nat
  cqeBytes : Nat
  cqeTrailerOff : Nat
  sentErrOff : Nat
  sentDboffOff : Nat
  sqBase : Addr
  rqBase : Addr
  cqBase : Addr
  swqBase : Addr
  sqDb : Addr
  rqDb : Addr
  cqArm : Addr
  qidSq : Word
  qidRq : Word
  qidCq : Word
  qidMaskWq : Word
  qidMaskCq : Word
  qidShift : Nat
  pidxShift : Nat
  pidxWidth : Nat
  armSeShift : Nat
  armCidxincShift : Nat
  armCidxincWidth : Nat
  armTimerShift : Nat
  armTimerWidth : Nat
  armTimerSel : Nat
  armQidShift : Nat
  msnInit : Nat
  genInit : Nat
  typeSend : Nat
  sendOpcodes : List Nat
deriving DecidableEq, Repr

/-- `EXCFG`, the example configuration of R10; not a configuration of any real device. -/
def exCfg : Cfg where
  nSq := 8
  nRq := 4
  nCq := 4
  sqStride := 4
  rqStride := 2
  slotBytes := 64
  lenUnit := 16
  cqeBytes := 32
  cqeTrailerOff := 24
  sentErrOff := 12
  sentDboffOff := 13
  sqBase := 0x10000
  rqBase := 0x20000
  cqBase := 0x30000
  swqBase := 0x40000
  sqDb := 0xF0000000
  rqDb := 0xF0000004
  cqArm := 0xF0000008
  qidSq := 0x25
  qidRq := 0x26
  qidCq := 0x11
  qidMaskWq := 0xFFFF
  qidMaskCq := 0xFFFF
  qidShift := 15
  pidxShift := 0
  pidxWidth := 14
  armSeShift := 12
  armCidxincShift := 0
  armCidxincWidth := 12
  armTimerShift := 13
  armTimerWidth := 3
  armTimerSel := 6
  armQidShift := 16
  msnInit := 1
  genInit := 1
  typeSend := 1
  sendOpcodes := [3, 4, 5, 6]

end Sys2Proof
end

