-- ==== Sys2Proof/Machine/Layout.lean ====
section
/-!
DEFINITION. Where everything lies (R35 to R37) and when a configuration is well formed (R9).
Addresses are 64-bit and computed modulo 2^64; under `WF(CFG)` no computation wraps (log 6).
-/
namespace Sys2Proof

/-- A region: its first byte and its length in bytes (R35). -/
structure Region where
  first : Nat
  length : Nat
deriving DecidableEq, Repr

/-- Two regions of one address space share no byte. -/
abbrev Region.Disjoint (a b : Region) : Prop :=
  a.first + a.length ≤ b.first ∨ b.first + b.length ≤ a.first

/-- A region lies below 2^64 (R9). -/
abbrev Region.Below (a : Region) : Prop := a.first + a.length ≤ 2 ^ 64

/-- An address is in a region. -/
abbrev Region.Has (g : Region) (a : Addr) : Prop := g.first ≤ a.toNat ∧ a.toNat < g.first + g.length

/-- Bytes of one SQ entry (R36). -/
def Cfg.sqEntryBytes (c : Cfg) : Nat := c.sqStride * c.slotBytes

/-- Bytes of one RQ entry (R36). -/
def Cfg.rqEntryBytes (c : Cfg) : Nat := c.rqStride * c.slotBytes

/-- SQ ring, entries and sentinel (R35). -/
def Cfg.sqRegion (c : Cfg) : Region := ⟨c.sqBase.toNat, (c.nSq * c.sqStride + 1) * c.slotBytes⟩

/-- RQ ring, entries and sentinel (R35). -/
def Cfg.rqRegion (c : Cfg) : Region := ⟨c.rqBase.toNat, (c.nRq * c.rqStride + 1) * c.slotBytes⟩

/-- CQ ring, CQE slots and sentinel (R35). -/
def Cfg.cqRegion (c : Cfg) : Region := ⟨c.cqBase.toNat, (c.nCq + 1) * c.cqeBytes⟩

/-- Auxiliary ring, no sentinel (R35). -/
def Cfg.swqRegion (c : Cfg) : Region := ⟨c.swqBase.toNat, c.nCq * c.cqeBytes⟩

/-- The four shared-memory regions (R35). -/
def Cfg.memoryRegions (c : Cfg) : List Region := [c.sqRegion, c.rqRegion, c.cqRegion, c.swqRegion]

/-- The three device registers, 4 bytes each, in the device address space (R34, R35). -/
def Cfg.deviceRegions (c : Cfg) : List Region :=
  [⟨c.sqDb.toNat, 4⟩, ⟨c.rqDb.toNat, 4⟩, ⟨c.cqArm.toNat, 4⟩]

/-- First byte of SQ entry `i` (R36). -/
def Cfg.sqEntry (c : Cfg) (i : Nat) : Addr := c.sqBase + BitVec.ofNat 64 (i * c.sqStride * c.slotBytes)

/-- First byte of RQ entry `i` (R36). -/
def Cfg.rqEntry (c : Cfg) (i : Nat) : Addr := c.rqBase + BitVec.ofNat 64 (i * c.rqStride * c.slotBytes)

/-- `SLOT_CQ(i)` (R36). -/
def Cfg.slotCq (c : Cfg) (i : Nat) : Addr := c.cqBase + BitVec.ofNat 64 (i * c.cqeBytes)

/-- `SLOT_SW(i)` (R36). -/
def Cfg.slotSw (c : Cfg) (i : Nat) : Addr := c.swqBase + BitVec.ofNat 64 (i * c.cqeBytes)

/-- `SENT_SQ` (R37). -/
def Cfg.sentSq (c : Cfg) : Addr := c.sqBase + BitVec.ofNat 64 (c.nSq * c.sqStride * c.slotBytes)

/-- `SENT_RQ` (R37). -/
def Cfg.sentRq (c : Cfg) : Addr := c.rqBase + BitVec.ofNat 64 (c.nRq * c.rqStride * c.slotBytes)

/-- `SENT_CQ` (R37). -/
def Cfg.sentCq (c : Cfg) : Addr := c.cqBase + BitVec.ofNat 64 (c.nCq * c.cqeBytes)

/-- Address of `SQ_SENT.err` (R37). -/
def Cfg.sqErr (c : Cfg) : Addr := c.sentSq + BitVec.ofNat 64 c.sentErrOff

/-- Address of `SQ_SENT.dboff` (R37). -/
def Cfg.sqDboff (c : Cfg) : Addr := c.sentSq + BitVec.ofNat 64 c.sentDboffOff

/-- Address of `RQ_SENT.err` (R37). -/
def Cfg.rqErr (c : Cfg) : Addr := c.sentRq + BitVec.ofNat 64 c.sentErrOff

/-- Address of `RQ_SENT.dboff` (R37). -/
def Cfg.rqDboff (c : Cfg) : Addr := c.sentRq + BitVec.ofNat 64 c.sentDboffOff

/-- Address of `CQ_SENT.err` (R37). -/
def Cfg.cqErr (c : Cfg) : Addr := c.sentCq + BitVec.ofNat 64 c.sentErrOff

/-- Address of `CQ_SENT.dboff` (R37); no command reads or writes it (R24). -/
def Cfg.cqDboff (c : Cfg) : Addr := c.sentCq + BitVec.ofNat 64 c.sentDboffOff

/-- `DBQ` of R9, an exact shift (log 8). -/
def Cfg.dbq (c : Cfg) : Nat := c.qidMaskWq.toNat <<< c.qidShift

/-- `DBP` of R9. -/
def Cfg.dbp (c : Cfg) : Nat := (2 ^ c.pidxWidth - 1) <<< c.pidxShift

/-- `AS` of R9. -/
def Cfg.armS (c : Cfg) : Nat := 1 <<< c.armSeShift

/-- `AC` of R9. -/
def Cfg.armC (c : Cfg) : Nat := (2 ^ c.armCidxincWidth - 1) <<< c.armCidxincShift

/-- `AT` of R9. -/
def Cfg.armT (c : Cfg) : Nat := (2 ^ c.armTimerWidth - 1) <<< c.armTimerShift

/-- `AQ` of R9, an exact shift (log 8). -/
def Cfg.armQ (c : Cfg) : Nat := c.qidMaskCq.toNat <<< c.armQidShift

/-- R9: ring sizes and the source's constants. -/
abbrev Cfg.SizesOk (c : Cfg) : Prop :=
  1 ≤ c.nSq ∧ c.nSq ≤ 65535 ∧ 1 ≤ c.nRq ∧ c.nRq ≤ 65535 ∧ 1 ≤ c.nCq ∧ c.nCq ≤ 65535 ∧
  c.sqStride = 4 ∧ c.rqStride = 2 ∧ c.lenUnit = 16

/-- R9: slot, CQE and sentinel record layout. -/
abbrev Cfg.RecordsOk (c : Cfg) : Prop :=
  0 < c.slotBytes ∧ c.slotBytes % 8 = 0 ∧
  16 ≤ c.cqeTrailerOff ∧ c.cqeTrailerOff % 8 = 0 ∧
  c.cqeBytes % 8 = 0 ∧ c.cqeTrailerOff + 8 ≤ c.cqeBytes ∧
  c.sentErrOff < min c.slotBytes c.cqeBytes ∧ c.sentDboffOff < min c.slotBytes c.cqeBytes ∧
  c.sentErrOff ≠ c.sentDboffOff

/-- R9: alignment of the bases and device registers. -/
abbrev Cfg.AlignedOk (c : Cfg) : Prop :=
  c.sqBase.toNat % 8 = 0 ∧ c.rqBase.toNat % 8 = 0 ∧ c.cqBase.toNat % 8 = 0 ∧ c.swqBase.toNat % 8 = 0 ∧
  c.sqDb.toNat % 4 = 0 ∧ c.rqDb.toNat % 4 = 0 ∧ c.cqArm.toNat % 4 = 0

/-- R9: the regions of each address space are pairwise disjoint and lie below 2^64 (log 7). -/
abbrev Cfg.RegionsOk (c : Cfg) : Prop :=
  c.memoryRegions.Pairwise Region.Disjoint ∧ c.deviceRegions.Pairwise Region.Disjoint ∧
  (∀ g ∈ c.memoryRegions, g.Below) ∧ (∀ g ∈ c.deviceRegions, g.Below)

/-- R9: the doorbell word's fields fit and do not overlap. -/
abbrev Cfg.DoorbellOk (c : Cfg) : Prop :=
  1 ≤ c.pidxWidth ∧ c.pidxShift + c.pidxWidth ≤ 32 ∧ c.dbq < 2 ^ 32 ∧ c.dbq &&& c.dbp = 0

/-- R9: the arm word's fields fit and do not overlap. -/
abbrev Cfg.ArmOk (c : Cfg) : Prop :=
  c.armSeShift < 32 ∧ 1 ≤ c.armCidxincWidth ∧ c.armCidxincShift + c.armCidxincWidth ≤ 32 ∧
  c.armTimerShift + c.armTimerWidth ≤ 32 ∧ c.armQ < 2 ^ 32 ∧
  c.armS &&& c.armC = 0 ∧ c.armS &&& c.armT = 0 ∧ c.armS &&& c.armQ = 0 ∧
  c.armC &&& c.armT = 0 ∧ c.armC &&& c.armQ = 0 ∧ c.armT &&& c.armQ = 0 ∧
  c.armTimerSel < 2 ^ c.armTimerWidth

/-- R9: initial values and CQE constants; `SEND_OPCODES` lists a set, so without repeats. -/
abbrev Cfg.ValuesOk (c : Cfg) : Prop :=
  (c.genInit = 0 ∨ c.genInit = 1) ∧ (c.typeSend = 0 ∨ c.typeSend = 1) ∧
  (∀ o ∈ c.sendOpcodes, o < 16) ∧ c.sendOpcodes.Nodup ∧ c.sendOpcodes.length = 4 ∧
  c.msnInit < 2 ^ 32

/-- `WF(CFG)` (R9). -/
def Cfg.wf (c : Cfg) : Bool :=
  decide c.SizesOk && decide c.RecordsOk && decide c.AlignedOk && decide c.RegionsOk &&
  decide c.DoorbellOk && decide c.ArmOk && decide c.ValuesOk

end Sys2Proof
end

