-- ==== Sys2Proof/Machine/State.lean ====
section
/-!
DEFINITION. The state of one instance (R3): every register of R27, the configuration, shared memory,
the fault latch, the event history, the responses given, and the events still to happen.
-/
namespace Sys2Proof.Machine

/-- Shared memory (R34): the bytes that differ from what an unlisted byte reads as, addresses rising. -/
abbrev Memory := List Host.Cell

/-- One ring's registers: occupancy, producer index, consumer index (R19, R20, R23). -/
structure Ring where
  inUse : Half
  pidx : Half
  cidx : Half
deriving DecidableEq, Repr

/-- The fault reasons of R126, in the order of their codes. -/
inductive FaultReason where
  | badConfig
  | illegalCmd
  | sqOverflow
  | sqUnderflow
  | rqOverflow
  | rqUnderflow
  | swOverflow
  | swUnderflow
  | dbIncRange
  | armIncRange
  | cidxincWrap
deriving DecidableEq, Repr

/-- What the latch records (R126): the reason, the faulting command word (absent for `F_BAD_CONFIG`)
and the info value (absent where R126's table has none). -/
structure Latch where
  reason : FaultReason
  cw : Option Word
  info : Option Word
deriving DecidableEq, Repr

/-- The kinds of diagnostic (R94). -/
inductive DiagKind where
  | overflow
deriving DecidableEq, Repr

/-- The events of the history `H` (R26). -/
inductive Event where
  | fenceSs
  | mmioWrite32 (addr : Addr) (v : Word)
  | diag (kind : DiagKind) (qid : Word)
deriving DecidableEq, Repr

/-- Result codes (R60). -/
inductive ResultCode where
  | ok
  | nodata
  | overflow
deriving DecidableEq, Repr

/-- Where a returned record came from (R59). -/
inductive Source where
  | none
  | hw
  | sw
deriving DecidableEq, Repr

/-- One response (R59). -/
structure Response where
  rc : ResultCode
  val : DWord
  record : Option Cqe
  src : Source
deriving DecidableEq, Repr

/-- The rings that have a sentinel (R37). -/
inductive SentinelRing where
  | sq
  | rq
  | cq
deriving DecidableEq, Repr

/-- The rings that hold descriptors (R36). -/
inductive WqSide where
  | sq
  | rq
deriving DecidableEq, Repr

/-- What the Adapter does to shared memory (R140, R141). -/
inductive AdapterEvent where
  /-- `@adapter cqe_body i, (h, l, ph, pl)`: the body event of R51. -/
  | cqeBody (i : Nat) (header len payHi payLo : Word)
  /-- `@adapter cqe_trailer i, t`: the trailer event of R51. -/
  | cqeTrailer (i : Nat) (trailer : DWord)
  /-- `@adapter cqe i, r`: the two, back to back. -/
  | cqe (i : Nat) (record : Cqe)
  /-- `@adapter set_err X, v`. -/
  | setErr (ring : SentinelRing) (v : Byte)
deriving DecidableEq, Repr

/-- What the Host does other than presenting a command (R139, R141). -/
inductive HostEvent where
  /-- `@host set_wq_sw_error`. -/
  | setWqSwError
  /-- `@host sw_write i, r`. -/
  | swWrite (i : Nat) (record : Cqe)
  /-- `@host desc_write q, i`, with the bytes written from the entry's first byte on. -/
  | descWrite (q : WqSide) (i : Nat) (bytes : List Byte)
  /-- Reset, that is queue creation (R143, R144), with a configuration, over memory prepared as R145
  asks (`prepared`) or over memory as it is found (R146). -/
  | reset (cfg : Cfg) (prepared : Bool)
deriving DecidableEq, Repr

/-- An event of the global interleaving (R50). -/
inductive Input where
  /-- The Host presents a command (R58). -/
  | command (c : Command)
  | host (e : HostEvent)
  | adapter (e : AdapterEvent)
  /-- An Adapter event that falls between the two sentinel writes of the command before it, where that
  command is one R54 splits, and right after that command otherwise. -/
  | adapterInside (e : AdapterEvent)
deriving DecidableEq, Repr

/-- Why the machine stops. No command ends in one of these. -/
inductive Fault where
  /-- Raised by a Host event R139 and R141 do not give the Host (an entry index outside the ring, a
  descriptor longer than its entry). Safe: such runs are outside every claim of the spec (log 12). -/
  | hostOutsideLiberties
  /-- Raised by an Adapter event R140 and R141 do not give the Adapter (a slot outside the CQ ring, a
  zero written to an `.err` byte). Safe: as above (log 12). -/
  | adapterOutsideLiberties
deriving DecidableEq, Repr

/-- Why an instruction has no meaning. -/
inductive Refusal where
  /-- Raised by `exec` for an instruction with no meaning yet. Safe: the run stops. No arm uses it now. -/
  | notModelled (mnemonic : String)
deriving DecidableEq, Repr

/-- The state of one instance. -/
structure State where
  /-- `CFG` (R8), with the config rows of R27. -/
  cfg : Cfg
  /-- `sq.in_use`, `sq.pidx`, `sq.cidx` (R19). -/
  sq : Ring
  /-- `rq.in_use`, `rq.pidx`, `rq.cidx` (R20). -/
  rq : Ring
  /-- `rq.msn` (R20). -/
  rqMsn : Word
  /-- `wq.sw_error` (R21). -/
  wqSwError : BitVec 1
  /-- `cq.cidx` (R22). -/
  cqCidx : Half
  /-- `cq.gen` (R22). -/
  cqGen : BitVec 1
  /-- `cq.cidx_inc` (R22). -/
  cqCidxInc : Word
  /-- `cq.last_ts` (R22). -/
  cqLastTs : BitVec 60
  /-- `cq.error` (R22). -/
  cqError : BitVec 1
  /-- `cq.sw_in_use`, `cq.sw_pidx`, `cq.sw_cidx` (R23). -/
  swq : Ring
  /-- Shared memory (R34), the sentinel bytes of R24 included. -/
  mem : Memory
  /-- The fault latch (R25); none is `NONE`. -/
  fault : Option Latch
  /-- The event history `H` (R26), oldest first. -/
  history : List Event
  /-- The responses given (R59, R142), oldest first. -/
  responses : List Response
  /-- The model's own: the events still to happen, next first (R18, R50; log 2). -/
  inputs : List Input
deriving DecidableEq, Repr

/-- The state after a reset with configuration `c` over the memory `m` (R143, R129), with the events
`ins` still to happen. -/
def State.resetWith (c : Cfg) (m : Memory) (ins : List Input) : State where
  cfg := c
  sq := ⟨0, 0, 0⟩
  rq := ⟨0, 0, 0⟩
  rqMsn := BitVec.ofNat 32 c.msnInit
  wqSwError := 0
  cqCidx := 0
  cqGen := BitVec.ofNat 1 c.genInit
  cqCidxInc := 0
  cqLastTs := 0
  cqError := 0
  swq := ⟨0, 0, 0⟩
  mem := m
  fault := if c.wf then none else some ⟨.badConfig, none, none⟩
  history := []
  responses := []
  inputs := ins

/-- The machine right after reset, under the example configuration of R10 (log 1), over prepared
memory (R145, log 5), with no event waiting (log 2). -/
def State.reset : State := State.resetWith exCfg [] []

end Sys2Proof.Machine
end

