-- ==== Sys2Proof/Machine/Ops.lean ====
section
/-!
DEFINITION. The shared operations: bytes of shared memory and the wider accesses built from them
(R12, R39, R40), the events of `H` (R26), responding (R59), the prologue's latch check (R127), raising a
fault (R128) and reset, the only way back from one (R143).
-/
namespace Sys2Proof.Machine

/-- The outcome of a command. -/
abbrev Result := Host.Outcome State Fault Refusal

/-! ## Bytes -/

/-- What a byte of shared memory that is not listed reads as: the zero of memory prepared as R145 asks
(log 5). -/
def unlistedByte : Byte := 0

/-- The canonical form of a memory: addresses strictly rising, each a 64-bit address (R34), no entry
equal to what an unlisted byte reads as. -/
abbrev Memory.wf (m : Memory) : Prop :=
  m.Pairwise (fun x y => x.1 < y.1) ∧ ∀ c ∈ m, c.1 < 2 ^ 64 ∧ c.2 ≠ unlistedByte

/-- The byte listed for a key, or what an unlisted byte reads as. -/
def Memory.lookup : Memory → Nat → Byte
  | [], _ => unlistedByte
  | (b, w) :: m, a => if b = a then w else Memory.lookup m a

/-- List a byte for a key, keeping the keys rising. -/
def Memory.insert : Memory → Nat → Byte → Memory
  | [], a, v => [(a, v)]
  | (b, w) :: m, a, v =>
    if a < b then (a, v) :: (b, w) :: m
    else if a = b then (a, v) :: m
    else (b, w) :: Memory.insert m a v

/-- Unlist the bytes of a range of keys, so that they read as unlisted bytes. -/
def Memory.clear (m : Memory) (first length : Nat) : Memory :=
  m.filter (fun c => !(decide (first ≤ c.1) && decide (c.1 < first + length)))

/-- Read one byte (R44). -/
def Memory.read (m : Memory) (a : Addr) : Byte := Memory.lookup m a.toNat

/-- Write one byte (R44). -/
def Memory.write (m : Memory) (a : Addr) (v : Byte) : Memory :=
  if v = unlistedByte then Memory.clear m a.toNat 1 else Memory.insert m a.toNat v

/-- `MemRead(a, n)`: the `n` bytes at `a`, lowest address first (R12). -/
def Memory.readBytes (m : Memory) (a : Addr) : Nat → List Byte
  | 0 => []
  | n + 1 => Memory.read m a :: Memory.readBytes m (a + 1) n

/-- `MemWrite(a, n, v)`: write bytes at `a`, lowest address first (R12). -/
def Memory.writeBytes (m : Memory) (a : Addr) : List Byte → Memory
  | [] => m
  | b :: bs => Memory.writeBytes (Memory.write m a b) (a + 1) bs

/-- `be_N`: the value of bytes read as big-endian, first byte most significant (R12). -/
def be (bytes : List Byte) : Nat := bytes.foldl (fun acc b => acc * 256 + b.toNat) 0

/-- The `n` bytes of a value in big-endian order, the order of R39. -/
def toBe : Nat → Nat → List Byte
  | 0, _ => []
  | n + 1, v => BitVec.ofNat 8 (v / 256 ^ n) :: toBe n v

/-! ## CQE records in memory -/

/-- `ReadCQE(a)` (R40): the trailer first, then the four words, each big-endian. -/
def readCqe (c : Cfg) (m : Memory) (a : Addr) : Cqe :=
  let t := be (Memory.readBytes m (a + BitVec.ofNat 64 c.cqeTrailerOff) 8)
  let h := be (Memory.readBytes m a 4)
  let l := be (Memory.readBytes m (a + 4) 4)
  let ph := be (Memory.readBytes m (a + 8) 4)
  let pl := be (Memory.readBytes m (a + 12) 4)
  { header := BitVec.ofNat 32 h, len := BitVec.ofNat 32 l, payHi := BitVec.ofNat 32 ph,
    payLo := BitVec.ofNat 32 pl, trailer := BitVec.ofNat 64 t }

/-- The body event of R51: header, length and payload words, at the offsets of R39. -/
def writeCqeBody (m : Memory) (a : Addr) (header len payHi payLo : Word) : Memory :=
  Memory.writeBytes m a
    (toBe 4 header.toNat ++ toBe 4 len.toNat ++ toBe 4 payHi.toNat ++ toBe 4 payLo.toNat)

/-- The trailer event of R51: one 8-byte write at `CQE_TRAILER_OFF` (R39). -/
def writeCqeTrailer (c : Cfg) (m : Memory) (a : Addr) (trailer : DWord) : Memory :=
  Memory.writeBytes m (a + BitVec.ofNat 64 c.cqeTrailerOff) (toBe 8 trailer.toNat)

/-- A whole record, body then trailer; the reserved bytes of R39 are left as they are. -/
def writeCqe (c : Cfg) (m : Memory) (a : Addr) (r : Cqe) : Memory :=
  writeCqeTrailer c (writeCqeBody m a r.header r.len r.payHi r.payLo) a r.trailer

/-! ## State updates -/

/-- Read one byte of shared memory. -/
def State.readByte (s : State) (a : Addr) : Byte := Memory.read s.mem a

/-- Write one byte of shared memory. -/
def State.writeByte (a : Addr) (v : Byte) (s : State) : State := { s with mem := Memory.write s.mem a v }

/-- Append an event to `H` (R26). -/
def State.emit (e : Event) (s : State) : State := { s with history := s.history ++ [e] }

/-- Append a response (R59). -/
def State.answer (r : Response) (s : State) : State := { s with responses := s.responses ++ [r] }

/-- Set the fault latch (R128). -/
def State.latch (l : Latch) (s : State) : State := { s with fault := some l }

/-- The state with the events `rest` still to happen. -/
def State.later (rest : List Input) (s : State) : State := { s with inputs := rest }

/-! ## Codes -/

/-- The numeric value of a result code (R60); the value 3 is never returned. -/
def ResultCode.code : ResultCode → BitVec 2
  | .ok => 0
  | .nodata => 1
  | .overflow => 2

/-- The code of a fault reason (R126). -/
def FaultReason.code : FaultReason → Nat
  | .badConfig => 1
  | .illegalCmd => 2
  | .sqOverflow => 3
  | .sqUnderflow => 4
  | .rqOverflow => 5
  | .rqUnderflow => 6
  | .swOverflow => 7
  | .swUnderflow => 8
  | .dbIncRange => 9
  | .armIncRange => 10
  | .cidxincWrap => 11

/-! ## Ending a command -/

/-- `respond(rc, val, rec, src)` (R59). -/
def respond (rc : ResultCode) (val : DWord) (record : Option Cqe) (src : Source) (s : State) : Result :=
  .next (s.answer ⟨rc, val, record, src⟩)

/-- `respond(OK, val, NONE, NONE)`. -/
def respondOk (val : DWord) (s : State) : Result := respond .ok val none .none s

/-- `raise F(info)` (R128): the latch records the reason, the command word and the info value; nothing
else changes and there is no response. -/
def raise (reason : FaultReason) (cw : Word) (info : Option Word) (s : State) : Result :=
  .next (s.latch ⟨reason, some cw, info⟩)

/-- The prologue's first line (R127): while the latch is set no command is accepted, so the state stays
as it is and there is no response (log 4). -/
def accepted (s : State) (body : Result) : Result :=
  if s.fault.isSome then .next s else body

/-! ## Reset -/

/-- Memory prepared as R145 (2) asks: zero in every byte of the CQ ring, its sentinel included, and in
the SQ and RQ sentinel records (R37: `SLOT_BYTES` long). -/
def prepareMemory (c : Cfg) (m : Memory) : Memory :=
  let m1 := Memory.clear m c.cqRegion.first c.cqRegion.length
  let m2 := Memory.clear m1 c.sentSq.toNat c.slotBytes
  Memory.clear m2 c.sentRq.toNat c.slotBytes

/-- Reset with a configuration (R143, R144): every register, the latch and `H` as R143 says; memory is
the Host's to prepare (R145) or as found (R146). It starts a new run, so the responses start anew (R142). -/
def resetInstance (c : Cfg) (prepared : Bool) (s : State) : State :=
  State.resetWith c (if prepared then prepareMemory c s.mem else s.mem) s.inputs

end Sys2Proof.Machine
end

