-- ==== Sys2Proof/Machine/Flags.lean ====
section
/-!
DEFINITION. The flag computations: sentinel bytes read as flags and Booleans as values (R14), the ring
conditions (R74 to R76), the generation check and the overflow test (R92, R93).
-/
namespace Sys2Proof.Machine

/-- A Boolean in a response value: 1 or 0 (R14). -/
def boolVal (b : Bool) : DWord := if b then 1 else 0

/-- A sentinel byte reads as set when it is non-zero (R14). -/
def flagSet (b : Byte) : Bool := b != 0

/-- What the Block writes to set a sentinel byte (R14). -/
def setByte : Byte := 1

/-- What the Block writes to clear a sentinel byte (R14). -/
def clearByte : Byte := 0

/-- A ring holds nothing (R74, R80). -/
def Ring.empty (r : Ring) : Bool := r.inUse == 0

/-- A work-queue ring of size `n` holds `n - 1` entries (R75, R81). -/
def Ring.full (n : Nat) (r : Ring) : Bool := r.inUse.toNat == n - 1

/-- Entries a work-queue ring of size `n` can still take (R76, R82; log 16). -/
def Ring.avail (n : Nat) (r : Ring) : Nat := n - 1 - r.inUse.toNat

/-- `GEN(r)`, bit 63 of the trailer (R65). -/
def Cqe.gen (r : Cqe) : BitVec 1 := r.trailer.extractLsb' 63 1

/-- `TS(r)`, bits 59 to 0 of the trailer (R65). -/
def Cqe.ts (r : Cqe) : BitVec 60 := r.trailer.extractLsb' 0 60

/-- The validity check: only bit 63 of the trailer is looked at (R92). -/
def isValid (r : Cqe) (s : State) : Bool := Cqe.gen r == s.cqGen

/-- The overflow test on an invalid record: unsigned 60-bit `>` (R93, D22). -/
def isBeyond (r : Cqe) (s : State) : Bool := decide (s.cqLastTs.toNat < (Cqe.ts r).toNat)

end Sys2Proof.Machine
end

