-- ==== Sys2Proof/Machine/Operands.lean ====
section
/-!
DEFINITION. The operand forms: the fields of a CQE value (R64 to R66), the scaled doorbell increment and
the two device-register words (R68, R69, R77), ring index steps (R12) and the registers `RD_STATE` reads
(R27, R123).
-/
namespace Sys2Proof.Machine

/-! ## CQE fields -/

/-- `QPID`, header bits 31 to 12 (R64). -/
def Cqe.qpid (r : Cqe) : BitVec 20 := r.header.extractLsb' 12 20

/-- `SWCQE`, header bit 11 (R64). -/
def Cqe.swcqe (r : Cqe) : BitVec 1 := r.header.extractLsb' 11 1

/-- `STATUS`, header bits 10 to 5 (R64, R67). -/
def Cqe.status (r : Cqe) : BitVec 6 := r.header.extractLsb' 5 6

/-- `TYPE`, header bit 4 (R64). -/
def Cqe.entryType (r : Cqe) : BitVec 1 := r.header.extractLsb' 4 1

/-- `OPCODE`, header bits 3 to 0 (R64). -/
def Cqe.opcode (r : Cqe) : BitVec 4 := r.header.extractLsb' 0 4

/-- Whether the opcode is one of the send family (R111). -/
def Cqe.sendFamily (c : Cfg) (r : Cqe) : Bool := c.sendOpcodes.contains (Cqe.opcode r).toNat

/-- Whether the Host reads the record as send-side (R66, R109); no command depends on it. -/
def Cqe.sendSide (c : Cfg) (r : Cqe) : Bool := (Cqe.entryType r).toNat == c.typeSend

/-- The send view's consumer index, `pay_lo` bits 15 to 0 (R66, R115). -/
def Cqe.sqIdx (r : Cqe) : Half := r.payLo.extractLsb' 0 16

/-- `OVFL`, trailer bit 62 (R65). -/
def Cqe.ovfl (r : Cqe) : BitVec 1 := r.trailer.extractLsb' 62 1

/-- `IQTYPE`, trailer bits 61 and 60 (R65). -/
def Cqe.iqtype (r : Cqe) : BitVec 2 := r.trailer.extractLsb' 60 2

/-! ## Device-register words -/

/-- The scaled increment: the zero-extended operand times the ring's stride, exact (R77, R83). -/
def scaledInc (inc : Half) (stride : Nat) : Nat := inc.toNat * stride

/-- `DBWORD(qid, scaled)` (R68). -/
def dbWord (c : Cfg) (qid : Word) (scaled : Nat) : Word :=
  BitVec.ofNat 32 (((qid &&& c.qidMaskWq).toNat <<< c.qidShift) ||| (scaled <<< c.pidxShift))

/-- `ARMWORD(se, inc)` (R69). -/
def armWord (c : Cfg) (se : BitVec 1) (inc : Word) : Word :=
  BitVec.ofNat 32 ((se.toNat <<< c.armSeShift) ||| (inc.toNat <<< c.armCidxincShift) |||
    (c.armTimerSel <<< c.armTimerShift) ||| ((c.qidCq &&& c.qidMaskCq).toNat <<< c.armQidShift))

/-! ## Ring indices -/

/-- `inc_mod(x, n)` (R12). -/
def incMod (x : Half) (n : Nat) : Half := if x.toNat + 1 = n then 0 else x + 1

/-- One entry more: occupancy and producer index (R72, R78, R97). -/
def Ring.produce (n : Nat) (r : Ring) : Ring := { r with inUse := r.inUse + 1, pidx := incMod r.pidx n }

/-- One entry less: occupancy and consumer index (R73, R79, R98). -/
def Ring.consume (n : Nat) (r : Ring) : Ring := { r with inUse := r.inUse - 1, cidx := incMod r.cidx n }

/-! ## Registers by number -/

/-- `zext_64(REG[r])` (R27, R123). -/
def State.readReg (s : State) : Reg → DWord
  | .nSq => BitVec.ofNat 64 s.cfg.nSq
  | .sqInUse => s.sq.inUse.setWidth 64
  | .sqPidx => s.sq.pidx.setWidth 64
  | .sqCidx => s.sq.cidx.setWidth 64
  | .nRq => BitVec.ofNat 64 s.cfg.nRq
  | .rqInUse => s.rq.inUse.setWidth 64
  | .rqPidx => s.rq.pidx.setWidth 64
  | .rqCidx => s.rq.cidx.setWidth 64
  | .rqMsn => s.rqMsn.setWidth 64
  | .wqSwError => s.wqSwError.setWidth 64
  | .nCq => BitVec.ofNat 64 s.cfg.nCq
  | .cqCidx => s.cqCidx.setWidth 64
  | .cqGen => s.cqGen.setWidth 64
  | .cqCidxInc => s.cqCidxInc.setWidth 64
  | .cqLastTs => s.cqLastTs.setWidth 64
  | .cqError => s.cqError.setWidth 64
  | .cqSwInUse => s.swq.inUse.setWidth 64
  | .cqSwPidx => s.swq.pidx.setWidth 64
  | .cqSwCidx => s.swq.cidx.setWidth 64

end Sys2Proof.Machine
end

