-- ==== Sys2Proof/Machine/WqRing.lean ====
section
/-!
DEFINITION. Work-queue ring commands (R72 to R84). The word a raised fault records is the command's own, the one
`encode` gives (R126; log 11).
-/
namespace Sys2Proof.Machine

/-- A produce on a ring of which `limit` entries is full: it faults on a full ring (R72, R78, R97; D4). -/
def produceOn (reason : FaultReason) (i : Instr) (limit size : Nat) (r : Ring) (put : Ring → State)
    (s : State) : Result :=
  if r.inUse.toNat = limit then raise reason (encode i).cw (some (r.inUse.setWidth 32)) s
  else respondOk 0 (put (Ring.produce size r))

/-- A consume: it faults on an empty ring (R73, R79, R98; D4). -/
def consumeOn (reason : FaultReason) (i : Instr) (size : Nat) (r : Ring) (put : Ring → State)
    (s : State) : Result :=
  if Ring.empty r then raise reason (encode i).cw (some 0) s
  else respondOk 0 (put (Ring.consume size r))

/-- A doorbell (R77, R83): range check, barrier, one device-register write. -/
def ringDoorbell (i : Instr) (inc : Half) (stride : Nat) (qid : Word) (addr : Addr) (s : State) : Result :=
  let scaled := scaledInc inc stride
  if 2 ^ s.cfg.pidxWidth ≤ scaled then
    raise .dbIncRange (encode i).cw (some (BitVec.ofNat 32 scaled)) s
  else respondOk 0 ((s.emit .fenceSs).emit (.mmioWrite32 addr (dbWord s.cfg qid scaled)))

/-- `SQ_PRODUCE` (R72). -/
def execSqProduce (s : State) : Result :=
  accepted s (produceOn .sqOverflow .sqProduce (s.cfg.nSq - 1) s.cfg.nSq s.sq (fun r => { s with sq := r }) s)

/-- `SQ_CONSUME` (R73). -/
def execSqConsume (s : State) : Result :=
  accepted s (consumeOn .sqUnderflow .sqConsume s.cfg.nSq s.sq (fun r => { s with sq := r }) s)

/-- `SQ_EMPTY` (R74). -/
def execSqEmpty (s : State) : Result :=
  accepted s (respondOk (boolVal (Ring.empty s.sq)) s)

/-- `SQ_FULL` (R75). -/
def execSqFull (s : State) : Result :=
  accepted s (respondOk (boolVal (Ring.full s.cfg.nSq s.sq)) s)

/-- `SQ_AVAIL` (R76). -/
def execSqAvail (s : State) : Result :=
  accepted s (respondOk (BitVec.ofNat 64 (Ring.avail s.cfg.nSq s.sq)) s)

/-- `RING_SQ_DB #inc` (R77). -/
def execRingSqDb (inc : Half) (s : State) : Result :=
  accepted s (ringDoorbell (.ringSqDb inc) inc s.cfg.sqStride s.cfg.qidSq s.cfg.sqDb s)

/-- `RQ_PRODUCE` (R78). -/
def execRqProduce (s : State) : Result :=
  accepted s (produceOn .rqOverflow .rqProduce (s.cfg.nRq - 1) s.cfg.nRq s.rq (fun r => { s with rq := r }) s)

/-- `RQ_CONSUME` (R79): also one more message, modulo 2^32. -/
def execRqConsume (s : State) : Result :=
  accepted s (consumeOn .rqUnderflow .rqConsume s.cfg.nRq s.rq
    (fun r => { s with rq := r, rqMsn := s.rqMsn + 1 }) s)

/-- `RQ_EMPTY` (R80). -/
def execRqEmpty (s : State) : Result :=
  accepted s (respondOk (boolVal (Ring.empty s.rq)) s)

/-- `RQ_FULL` (R81). -/
def execRqFull (s : State) : Result :=
  accepted s (respondOk (boolVal (Ring.full s.cfg.nRq s.rq)) s)

/-- `RQ_AVAIL` (R82). -/
def execRqAvail (s : State) : Result :=
  accepted s (respondOk (BitVec.ofNat 64 (Ring.avail s.cfg.nRq s.rq)) s)

/-- `RING_RQ_DB #inc` (R83). -/
def execRingRqDb (inc : Half) (s : State) : Result :=
  accepted s (ringDoorbell (.ringRqDb inc) inc s.cfg.rqStride s.cfg.qidRq s.cfg.rqDb s)

/-- `RQES_POSTED` (R84). -/
def execRqesPosted (s : State) : Result :=
  accepted s (respondOk (s.rq.inUse.setWidth 64) s)

end Sys2Proof.Machine
end

