-- ==== Sys2Proof/Machine/CqEngine.lean ====
section
/-!
DEFINITION. Completion-queue engine commands (R91 to R102).
-/
namespace Sys2Proof.Machine

/-- `ReadCQE(SLOT_CQ(cq.cidx))` (R93). -/
def hwRecord (s : State) : Cqe := readCqe s.cfg s.mem (s.cfg.slotCq s.cqCidx.toNat)

/-- `ReadCQE(SLOT_SW(cq.sw_cidx))` (R95). -/
def swRecord (s : State) : Cqe := readCqe s.cfg s.mem (s.cfg.slotSw s.swq.cidx.toNat)

/-- The hardware poll (R93): a valid record and its timestamp, else overflow with its diagnostic (R94),
else no data. -/
def pollHw (s : State) : Result :=
  let r := hwRecord s
  if isValid r s then
    respond .ok (s.cqCidx.setWidth 64) (some r) .hw { s with cqLastTs := Cqe.ts r }
  else if isBeyond r s then
    respond .overflow 0 none .none (({ s with cqError := 1 } : State).emit (.diag .overflow s.cfg.qidCq))
  else respond .nodata 0 none .none s

/-- The auxiliary ring's head record (R95, R96). -/
def pollSw (s : State) : Result :=
  respond .ok (s.swq.cidx.setWidth 64) (some (swRecord s)) .sw s

/-- The hardware consumer index and expected generation bit after one consume (R91). -/
def hwAdvance (s : State) : State :=
  if s.cqCidx.toNat + 1 = s.cfg.nCq then { s with cqCidx := 0, cqGen := s.cqGen ^^^ 1 }
  else { s with cqCidx := s.cqCidx + 1 }

/-- `CQ_HW_CONSUME` (R91). -/
def execCqHwConsume (s : State) : Result :=
  accepted s (
    if s.cqCidxInc.toNat = 2 ^ 32 - 1 then
      raise .cidxincWrap (encode .cqHwConsume).cw (some s.cqCidxInc) s
    else respondOk 0 (hwAdvance { s with cqCidxInc := s.cqCidxInc + 1 }))

/-- `CQ_IS_VALID rec` (R92). -/
def execCqIsValid (record : Cqe) (s : State) : Result :=
  accepted s (respondOk (boolVal (isValid record s)) s)

/-- `CQ_NEXT_HW` (R93). -/
def execCqNextHw (s : State) : Result := accepted s (pollHw s)

/-- `CQ_NEXT_SW` (R95). -/
def execCqNextSw (s : State) : Result :=
  accepted s (if Ring.empty s.swq then respond .nodata 0 none .none s else pollSw s)

/-- `CQ_NEXT` (R96, R104): the sticky error, then the auxiliary ring, then the hardware ring. -/
def execCqNext (s : State) : Result :=
  accepted s (
    if s.cqError = 1 then respond .nodata 0 none .none s
    else if 0 < s.swq.inUse.toNat then pollSw s
    else pollHw s)

/-- `CQ_ARM #se` (R99): range check, one device-register write with no barrier, the increment cleared. -/
def execCqArm (se : BitVec 1) (s : State) : Result :=
  accepted s (
    if 2 ^ s.cfg.armCidxincWidth ≤ s.cqCidxInc.toNat then
      raise .armIncRange (encode (.cqArm se)).cw (some s.cqCidxInc) s
    else
      respondOk 0 { s.emit (.mmioWrite32 s.cfg.cqArm (armWord s.cfg se s.cqCidxInc)) with cqCidxInc := 0 })

/-- `CQ_SW_PRODUCE` (R97): no reserved slot, full is `N_CQ`. -/
def execCqSwProduce (s : State) : Result :=
  accepted s (produceOn .swOverflow .cqSwProduce s.cfg.nCq s.cfg.nCq s.swq (fun r => { s with swq := r }) s)

/-- `CQ_SW_CONSUME` (R98). -/
def execCqSwConsume (s : State) : Result :=
  accepted s (consumeOn .swUnderflow .cqSwConsume s.cfg.nCq s.swq (fun r => { s with swq := r }) s)

/-- `CQ_IN_ERROR` (R100): the CQ sentinel's `.err` byte, not `cq.error`. -/
def execCqInError (s : State) : Result :=
  accepted s (respondOk (boolVal (flagSet (s.readByte s.cfg.cqErr))) s)

/-- `CQ_SET_ERROR` (R101). -/
def execCqSetError (s : State) : Result :=
  accepted s (respondOk 0 (s.writeByte s.cfg.cqErr setByte))

/-- `CQ_CLEAR_ERROR` (R102). -/
def execCqClearError (s : State) : Result :=
  accepted s (respondOk 0 (s.writeByte s.cfg.cqErr clearByte))

end Sys2Proof.Machine
end

