-- ==== Sys2Proof/Machine/CqeDecode.lean ====
section
/-!
DEFINITION. CQE decode commands (R105 to R121): total, zero-extended, writing no state but the response.
-/
namespace Sys2Proof.Machine

/-- `CQE_QPID rec` (R106). -/
def execCqeQpid (record : Cqe) (s : State) : Result :=
  accepted s (respondOk ((Cqe.qpid record).setWidth 64) s)

/-- `CQE_SWCQE rec` (R107). -/
def execCqeSwcqe (record : Cqe) (s : State) : Result :=
  accepted s (respondOk ((Cqe.swcqe record).setWidth 64) s)

/-- `CQE_STATUS rec` (R108). -/
def execCqeStatus (record : Cqe) (s : State) : Result :=
  accepted s (respondOk ((Cqe.status record).setWidth 64) s)

/-- `CQE_TYPE rec` (R109). -/
def execCqeType (record : Cqe) (s : State) : Result :=
  accepted s (respondOk ((Cqe.entryType record).setWidth 64) s)

/-- `CQE_OPCODE rec` (R110). -/
def execCqeOpcode (record : Cqe) (s : State) : Result :=
  accepted s (respondOk ((Cqe.opcode record).setWidth 64) s)

/-- `CQE_SEND_OPCODE rec` (R111). -/
def execCqeSendOpcode (record : Cqe) (s : State) : Result :=
  accepted s (respondOk (boolVal (Cqe.sendFamily s.cfg record)) s)

/-- `CQE_LEN rec` (R112). -/
def execCqeLen (record : Cqe) (s : State) : Result :=
  accepted s (respondOk (record.len.setWidth 64) s)

/-- `CQE_WRID_STAG rec` (R113). -/
def execCqeWridStag (record : Cqe) (s : State) : Result :=
  accepted s (respondOk (record.payHi.setWidth 64) s)

/-- `CQE_WRID_MSN rec` (R114). -/
def execCqeWridMsn (record : Cqe) (s : State) : Result :=
  accepted s (respondOk (record.payLo.setWidth 64) s)

/-- `CQE_WRID_SQ_IDX rec` (R115). -/
def execCqeWridSqIdx (record : Cqe) (s : State) : Result :=
  accepted s (respondOk ((Cqe.sqIdx record).setWidth 64) s)

/-- `CQE_WRID_HI rec` (R116). -/
def execCqeWridHi (record : Cqe) (s : State) : Result :=
  accepted s (respondOk (record.payHi.setWidth 64) s)

/-- `CQE_WRID_LOW rec` (R117). -/
def execCqeWridLow (record : Cqe) (s : State) : Result :=
  accepted s (respondOk (record.payLo.setWidth 64) s)

/-- `CQE_GENBIT rec` (R118). -/
def execCqeGenbit (record : Cqe) (s : State) : Result :=
  accepted s (respondOk ((Cqe.gen record).setWidth 64) s)

/-- `CQE_OVFBIT rec` (R119). -/
def execCqeOvfbit (record : Cqe) (s : State) : Result :=
  accepted s (respondOk ((Cqe.ovfl record).setWidth 64) s)

/-- `CQE_IQTYPE rec` (R120). -/
def execCqeIqtype (record : Cqe) (s : State) : Result :=
  accepted s (respondOk ((Cqe.iqtype record).setWidth 64) s)

/-- `CQE_TS rec` (R121). -/
def execCqeTs (record : Cqe) (s : State) : Result :=
  accepted s (respondOk ((Cqe.ts record).setWidth 64) s)

end Sys2Proof.Machine
end

