-- ==== Sys2Proof/Machine/StateAccess.lean ====
section
/-!
DEFINITION. The state read-out command (R123).
-/
namespace Sys2Proof.Machine

/-- `RD_STATE #r` (R123); a number outside R27 is an illegal command (R62). -/
def execRdState (r : Half) (s : State) : Result :=
  accepted s (
    match Reg.ofNumber? r with
    | some g => respondOk (s.readReg g) s
    | none => raise .illegalCmd (encode (.rdState r)).cw none s)

end Sys2Proof.Machine
end

