-- ==== Sys2Proof/Machine/Environment.lean ====
section
/-!
DEFINITION. The Host's and the Adapter's moves on the state (R139 to R141). An event outside their
liberties is no move: the machine stops with a fault of its own (log 12).
-/
namespace Sys2Proof.Machine

/-- The address of a ring's `.err` byte (R37). -/
def errAddr (c : Cfg) : SentinelRing → Addr
  | .sq => c.sqErr
  | .rq => c.rqErr
  | .cq => c.cqErr

/-- What R140 and R141 allow the Adapter: any CQ slot `0 .. N_CQ-1`, and a non-zero `.err` value. -/
def adapterMay (c : Cfg) : AdapterEvent → Bool
  | .cqeBody i _ _ _ _ => decide (i < c.nCq)
  | .cqeTrailer i _ => decide (i < c.nCq)
  | .cqe i _ => decide (i < c.nCq)
  | .setErr _ v => v != 0

/-- What an Adapter event does to shared memory (R51, R141). -/
def adapterWrites (c : Cfg) (m : Memory) : AdapterEvent → Memory
  | .cqeBody i h l ph pl => writeCqeBody m (c.slotCq i) h l ph pl
  | .cqeTrailer i t => writeCqeTrailer c m (c.slotCq i) t
  | .cqe i r => writeCqe c m (c.slotCq i) r
  | .setErr x v => Memory.write m (errAddr c x) v

/-- An Adapter event, applied to the state. -/
def State.adapterEvent (e : AdapterEvent) (s : State) : State :=
  { s with mem := adapterWrites s.cfg s.mem e }

/-- One Adapter move. -/
def adapterMove (e : AdapterEvent) (s : State) : Result :=
  if adapterMay s.cfg e then .next (s.adapterEvent e) else .fault .adapterOutsideLiberties

/-- Entries of a descriptor ring, bytes of one of its entries, and the entry's address (R36). -/
def descEntries (c : Cfg) : WqSide → Nat
  | .sq => c.nSq
  | .rq => c.nRq

/-- Bytes of one entry of a descriptor ring (R36). -/
def descBytes (c : Cfg) : WqSide → Nat
  | .sq => c.sqEntryBytes
  | .rq => c.rqEntryBytes

/-- First byte of an entry of a descriptor ring (R36). -/
def descEntry (c : Cfg) : WqSide → Nat → Addr
  | .sq, i => c.sqEntry i
  | .rq, i => c.rqEntry i

/-- What R139 and R141 allow the Host: an auxiliary slot `0 .. N_CQ-1`, bytes inside one entry. -/
def hostMay (c : Cfg) : HostEvent → Bool
  | .setWqSwError => true
  | .swWrite i _ => decide (i < c.nCq)
  | .descWrite q i bytes => decide (i < descEntries c q) && decide (bytes.length ≤ descBytes c q)
  | .reset _ _ => true

/-- What a Host event does (R141, R143). -/
def State.hostEvent (e : HostEvent) (s : State) : State :=
  match e with
  | .setWqSwError => { s with wqSwError := 1 }
  | .swWrite i r => { s with mem := writeCqe s.cfg s.mem (s.cfg.slotSw i) r }
  | .descWrite q i bytes => { s with mem := Memory.writeBytes s.mem (descEntry s.cfg q i) bytes }
  | .reset c prepared => resetInstance c prepared s

/-- One Host move that is not a command. -/
def hostMove (e : HostEvent) (s : State) : Result :=
  if hostMay s.cfg e then .next (s.hostEvent e) else .fault .hostOutsideLiberties

/-- The Adapter's moves between the two sentinel writes of a split command (R54): the leading
`adapterInside` events of the interleaving that are the Adapter's liberties happen here, in order. -/
def State.runInside (s : State) : List Input → State
  | .adapterInside e :: rest =>
    if adapterMay s.cfg e then (s.adapterEvent e).runInside rest
    else s.later (.adapterInside e :: rest)
  | rest => s.later rest

/-- The window of R54 on the events still to happen. -/
def State.window (s : State) : State := s.runInside s.inputs

end Sys2Proof.Machine
end

