-- ==== Sys2Proof/Machine/WqStatus.lean ====
section
/-!
DEFINITION. Work-queue status-sentinel commands (R86 to R90).
-/
namespace Sys2Proof.Machine

/-- Write one byte of both work-queue sentinels, SQ first; the Adapter may act in between (R54). -/
def writeBoth (sqAddr rqAddr : Addr) (v : Byte) (s : State) : State :=
  (s.writeByte sqAddr v).window.writeByte rqAddr v

/-- `WQ_IN_ERROR` (R86): the software flag or either ring's `.err` byte. -/
def execWqInError (s : State) : Result :=
  accepted s (respondOk (boolVal (s.wqSwError == 1 || flagSet (s.readByte s.cfg.sqErr) ||
    flagSet (s.readByte s.cfg.rqErr))) s)

/-- `WQ_SET_ERROR` (R87). -/
def execWqSetError (s : State) : Result :=
  accepted s (respondOk 0 (writeBoth s.cfg.sqErr s.cfg.rqErr setByte s))

/-- `WQ_DISABLE_DB` (R88). -/
def execWqDisableDb (s : State) : Result :=
  accepted s (respondOk 0 (writeBoth s.cfg.sqDboff s.cfg.rqDboff setByte s))

/-- `WQ_ENABLE_DB` (R89). -/
def execWqEnableDb (s : State) : Result :=
  accepted s (respondOk 0 (writeBoth s.cfg.sqDboff s.cfg.rqDboff clearByte s))

/-- `WQ_DB_ENABLED` (R90): the SQ sentinel's latch reads as clear. -/
def execWqDbEnabled (s : State) : Result :=
  accepted s (respondOk (boolVal (!flagSet (s.readByte s.cfg.sqDboff))) s)

end Sys2Proof.Machine
end

