-- ==== Sys2Proof/Machine/Dispatch.lean ====
section
/-!
DEFINITION. One arm per command (R61): the command's own pseudocode, run once it is accepted (R127).
-/
namespace Sys2Proof.Machine

def exec (i : Instr) (s : State) : Host.Outcome State Fault Refusal :=
  match i with
  | .sqProduce => Sys2Proof.Machine.execSqProduce s
  | .sqConsume => Sys2Proof.Machine.execSqConsume s
  | .sqEmpty => Sys2Proof.Machine.execSqEmpty s
  | .sqFull => Sys2Proof.Machine.execSqFull s
  | .sqAvail => Sys2Proof.Machine.execSqAvail s
  | .ringSqDb inc => Sys2Proof.Machine.execRingSqDb inc s
  | .rqProduce => Sys2Proof.Machine.execRqProduce s
  | .rqConsume => Sys2Proof.Machine.execRqConsume s
  | .rqEmpty => Sys2Proof.Machine.execRqEmpty s
  | .rqFull => Sys2Proof.Machine.execRqFull s
  | .rqAvail => Sys2Proof.Machine.execRqAvail s
  | .ringRqDb inc => Sys2Proof.Machine.execRingRqDb inc s
  | .rqesPosted => Sys2Proof.Machine.execRqesPosted s
  | .wqInError => Sys2Proof.Machine.execWqInError s
  | .wqSetError => Sys2Proof.Machine.execWqSetError s
  | .wqDisableDb => Sys2Proof.Machine.execWqDisableDb s
  | .wqEnableDb => Sys2Proof.Machine.execWqEnableDb s
  | .wqDbEnabled => Sys2Proof.Machine.execWqDbEnabled s
  | .cqHwConsume => Sys2Proof.Machine.execCqHwConsume s
  | .cqIsValid record => Sys2Proof.Machine.execCqIsValid record s
  | .cqNextHw => Sys2Proof.Machine.execCqNextHw s
  | .cqNextSw => Sys2Proof.Machine.execCqNextSw s
  | .cqNext => Sys2Proof.Machine.execCqNext s
  | .cqArm se => Sys2Proof.Machine.execCqArm se s
  | .cqSwProduce => Sys2Proof.Machine.execCqSwProduce s
  | .cqSwConsume => Sys2Proof.Machine.execCqSwConsume s
  | .cqInError => Sys2Proof.Machine.execCqInError s
  | .cqSetError => Sys2Proof.Machine.execCqSetError s
  | .cqClearError => Sys2Proof.Machine.execCqClearError s
  | .cqeQpid record => Sys2Proof.Machine.execCqeQpid record s
  | .cqeSwcqe record => Sys2Proof.Machine.execCqeSwcqe record s
  | .cqeStatus record => Sys2Proof.Machine.execCqeStatus record s
  | .cqeType record => Sys2Proof.Machine.execCqeType record s
  | .cqeOpcode record => Sys2Proof.Machine.execCqeOpcode record s
  | .cqeSendOpcode record => Sys2Proof.Machine.execCqeSendOpcode record s
  | .cqeLen record => Sys2Proof.Machine.execCqeLen record s
  | .cqeWridStag record => Sys2Proof.Machine.execCqeWridStag record s
  | .cqeWridMsn record => Sys2Proof.Machine.execCqeWridMsn record s
  | .cqeWridSqIdx record => Sys2Proof.Machine.execCqeWridSqIdx record s
  | .cqeWridHi record => Sys2Proof.Machine.execCqeWridHi record s
  | .cqeWridLow record => Sys2Proof.Machine.execCqeWridLow record s
  | .cqeGenbit record => Sys2Proof.Machine.execCqeGenbit record s
  | .cqeOvfbit record => Sys2Proof.Machine.execCqeOvfbit record s
  | .cqeIqtype record => Sys2Proof.Machine.execCqeIqtype record s
  | .cqeTs record => Sys2Proof.Machine.execCqeTs record s
  | .rdState r => Sys2Proof.Machine.execRdState r s

end Sys2Proof.Machine
end

