-- ==== Sys2Proof/Machine/CommandPort.lean ====
section
/-!
DEFINITION. What a step does with the next event of the interleaving (R50): a presented command goes
through the prologue of R127 and is executed, an environment event is performed.
-/
namespace Sys2Proof.Machine

/-- A presented command: an illegal one raises `F_ILLEGAL_CMD` (R62, R127), any other is executed. While
the latch is set neither happens (R127, R128). -/
def present (c : Command) (s : State) : Result :=
  match decode c with
  | .ok i => exec i s
  | .error _ => accepted s (raise .illegalCmd c.cw none s)

/-- The next event, in the state in which it is no longer waiting. -/
def perform (e : Input) (s : State) : Result :=
  match e with
  | .command c => present c s
  | .host h => hostMove h s
  | .adapter a => adapterMove a s
  | .adapterInside a => adapterMove a s

/-- Present a command next, before every event still to happen. -/
def presentNext (c : Command) (s : State) : State := { s with inputs := .command c :: s.inputs }

end Sys2Proof.Machine
end

