-- ==== Sys2Proof/Machine/Step.lean ====
section
/-!
DEFINITION. One step of the instance and its environment (R50): the next event happens; where no event
is waiting the Block waits for a command (R144) and nothing changes (log 3).
-/
namespace Sys2Proof.Machine

/-- One step. -/
def step (s : State) : Host.Outcome State Fault Refusal :=
  match s.inputs with
  | [] => .next s
  | e :: rest => perform e (s.later rest)

/-- The state in which the very next step presents the instruction whose bits are `w` (log 2). -/
def State.withFetchWord (s : State) (nbits w : Nat) : State :=
  presentNext (Command.ofTableWord nbits w) s

end Sys2Proof.Machine
end

