-- ==== Sys2Proof/Machine/Assembler.lean ====
section
/-!
DEFINITION. The written form of commands (R70) and the pseudo-instructions (R71). Nothing the Block does
depends on this file; environment actions, the other lines of a test program, are the events of
Machine/State.lean (R141).
-/
namespace Sys2Proof.Machine

/-- The mnemonic of a command (R61). -/
def mnemonic : Instr → String
  | .sqProduce => "SQ_PRODUCE"
  | .sqConsume => "SQ_CONSUME"
  | .sqEmpty => "SQ_EMPTY"
  | .sqFull => "SQ_FULL"
  | .sqAvail => "SQ_AVAIL"
  | .ringSqDb _ => "RING_SQ_DB"
  | .rqProduce => "RQ_PRODUCE"
  | .rqConsume => "RQ_CONSUME"
  | .rqEmpty => "RQ_EMPTY"
  | .rqFull => "RQ_FULL"
  | .rqAvail => "RQ_AVAIL"
  | .ringRqDb _ => "RING_RQ_DB"
  | .rqesPosted => "RQES_POSTED"
  | .wqInError => "WQ_IN_ERROR"
  | .wqSetError => "WQ_SET_ERROR"
  | .wqDisableDb => "WQ_DISABLE_DB"
  | .wqEnableDb => "WQ_ENABLE_DB"
  | .wqDbEnabled => "WQ_DB_ENABLED"
  | .cqHwConsume => "CQ_HW_CONSUME"
  | .cqIsValid _ => "CQ_IS_VALID"
  | .cqNextHw => "CQ_NEXT_HW"
  | .cqNextSw => "CQ_NEXT_SW"
  | .cqNext => "CQ_NEXT"
  | .cqArm _ => "CQ_ARM"
  | .cqSwProduce => "CQ_SW_PRODUCE"
  | .cqSwConsume => "CQ_SW_CONSUME"
  | .cqInError => "CQ_IN_ERROR"
  | .cqSetError => "CQ_SET_ERROR"
  | .cqClearError => "CQ_CLEAR_ERROR"
  | .cqeQpid _ => "CQE_QPID"
  | .cqeSwcqe _ => "CQE_SWCQE"
  | .cqeStatus _ => "CQE_STATUS"
  | .cqeType _ => "CQE_TYPE"
  | .cqeOpcode _ => "CQE_OPCODE"
  | .cqeSendOpcode _ => "CQE_SEND_OPCODE"
  | .cqeLen _ => "CQE_LEN"
  | .cqeWridStag _ => "CQE_WRID_STAG"
  | .cqeWridMsn _ => "CQE_WRID_MSN"
  | .cqeWridSqIdx _ => "CQE_WRID_SQ_IDX"
  | .cqeWridHi _ => "CQE_WRID_HI"
  | .cqeWridLow _ => "CQE_WRID_LOW"
  | .cqeGenbit _ => "CQE_GENBIT"
  | .cqeOvfbit _ => "CQE_OVFBIT"
  | .cqeIqtype _ => "CQE_IQTYPE"
  | .cqeTs _ => "CQE_TS"
  | .rdState _ => "RD_STATE"

/-- The RD number of a register (R27). -/
def Reg.number : Reg → Half
  | .nSq => 0x00
  | .sqInUse => 0x01
  | .sqPidx => 0x02
  | .sqCidx => 0x03
  | .nRq => 0x08
  | .rqInUse => 0x09
  | .rqPidx => 0x0A
  | .rqCidx => 0x0B
  | .rqMsn => 0x0C
  | .wqSwError => 0x10
  | .nCq => 0x20
  | .cqCidx => 0x21
  | .cqGen => 0x22
  | .cqCidxInc => 0x23
  | .cqLastTs => 0x24
  | .cqError => 0x25
  | .cqSwInUse => 0x26
  | .cqSwPidx => 0x27
  | .cqSwCidx => 0x28

/-- The name of a register, which may stand for its number in a line (R70). -/
def Reg.name : Reg → String
  | .nSq => "N_SQ"
  | .sqInUse => "sq.in_use"
  | .sqPidx => "sq.pidx"
  | .sqCidx => "sq.cidx"
  | .nRq => "N_RQ"
  | .rqInUse => "rq.in_use"
  | .rqPidx => "rq.pidx"
  | .rqCidx => "rq.cidx"
  | .rqMsn => "rq.msn"
  | .wqSwError => "wq.sw_error"
  | .nCq => "N_CQ"
  | .cqCidx => "cq.cidx"
  | .cqGen => "cq.gen"
  | .cqCidxInc => "cq.cidx_inc"
  | .cqLastTs => "cq.last_ts"
  | .cqError => "cq.error"
  | .cqSwInUse => "cq.sw_in_use"
  | .cqSwPidx => "cq.sw_pidx"
  | .cqSwCidx => "cq.sw_cidx"

/-- Every register with an RD number (R27). -/
def Reg.all : List Reg :=
  [.nSq, .sqInUse, .sqPidx, .sqCidx, .nRq, .rqInUse, .rqPidx, .rqCidx, .rqMsn, .wqSwError,
   .nCq, .cqCidx, .cqGen, .cqCidxInc, .cqLastTs, .cqError, .cqSwInUse, .cqSwPidx, .cqSwCidx]

/-- The register a written name of R27 stands for; none for every other name. -/
def Reg.ofName? (n : String) : Option Reg := Reg.all.find? (fun g => Reg.name g == n)

/-- The operand of a line (R70). -/
inductive AsmOperand where
  /-- No operand. -/
  | absent
  /-- `#n`. -/
  | number (n : Nat)
  /-- A register by its written name. -/
  | register (name : String)
  /-- A record, literal or bound by the Host to the `rec` of an earlier response. -/
  | record (r : Cqe)
deriving DecidableEq, Repr

/-- The operand a command is written with (R70). -/
def asmOperand (i : Instr) : AsmOperand :=
  match (encode i).record, i with
  | some r, _ => .record r
  | none, .ringSqDb n => .number n.toNat
  | none, .ringRqDb n => .number n.toNat
  | none, .cqArm se => .number se.toNat
  | none, .rdState r => .number r.toNat
  | none, _ => .absent

/-- The number of a `#n` operand that must be below `limit`. -/
def AsmOperand.below (limit : Nat) : AsmOperand → Option Nat
  | .number n => if n < limit then some n else none
  | .absent => none
  | .register _ => none
  | .record _ => none

/-- The register number of an `RD_STATE` operand: a number of R27, or a name. -/
def AsmOperand.registerNumber : AsmOperand → Option Half
  | .number n => if n < 2 ^ 16 ∧ (Reg.ofNumber? (BitVec.ofNat 16 n)).isSome then some (BitVec.ofNat 16 n) else none
  | .register n => (Reg.ofName? n).map Reg.number
  | .absent => none
  | .record _ => none

/-- The record of a `CQE_xxx` or `CQ_IS_VALID` operand. -/
def AsmOperand.record? : AsmOperand → Option Cqe
  | .record r => some r
  | .absent => none
  | .number _ => none
  | .register _ => none

/-- A command whose line has no operand. -/
def AsmOperand.without (o : AsmOperand) (i : Instr) : Option Instr :=
  match o with
  | .absent => some i
  | .number _ => none
  | .register _ => none
  | .record _ => none

/-- The command a line stands for (R70): its mnemonic and its operand. -/
def assemble (m : String) (o : AsmOperand) : Option Instr :=
  if m = "SQ_PRODUCE" then o.without .sqProduce
  else if m = "SQ_CONSUME" then o.without .sqConsume
  else if m = "SQ_EMPTY" then o.without .sqEmpty
  else if m = "SQ_FULL" then o.without .sqFull
  else if m = "SQ_AVAIL" then o.without .sqAvail
  else if m = "RING_SQ_DB" then (o.below (2 ^ 16)).map (fun n => .ringSqDb (BitVec.ofNat 16 n))
  else if m = "RQ_PRODUCE" then o.without .rqProduce
  else if m = "RQ_CONSUME" then o.without .rqConsume
  else if m = "RQ_EMPTY" then o.without .rqEmpty
  else if m = "RQ_FULL" then o.without .rqFull
  else if m = "RQ_AVAIL" then o.without .rqAvail
  else if m = "RING_RQ_DB" then (o.below (2 ^ 16)).map (fun n => .ringRqDb (BitVec.ofNat 16 n))
  else if m = "RQES_POSTED" then o.without .rqesPosted
  else if m = "WQ_IN_ERROR" then o.without .wqInError
  else if m = "WQ_SET_ERROR" then o.without .wqSetError
  else if m = "WQ_DISABLE_DB" then o.without .wqDisableDb
  else if m = "WQ_ENABLE_DB" then o.without .wqEnableDb
  else if m = "WQ_DB_ENABLED" then o.without .wqDbEnabled
  else if m = "CQ_HW_CONSUME" then o.without .cqHwConsume
  else if m = "CQ_IS_VALID" then o.record?.map .cqIsValid
  else if m = "CQ_NEXT_HW" then o.without .cqNextHw
  else if m = "CQ_NEXT_SW" then o.without .cqNextSw
  else if m = "CQ_NEXT" then o.without .cqNext
  else if m = "CQ_ARM" then (o.below 2).map (fun n => .cqArm (BitVec.ofNat 1 n))
  else if m = "CQ_SW_PRODUCE" then o.without .cqSwProduce
  else if m = "CQ_SW_CONSUME" then o.without .cqSwConsume
  else if m = "CQ_IN_ERROR" then o.without .cqInError
  else if m = "CQ_SET_ERROR" then o.without .cqSetError
  else if m = "CQ_CLEAR_ERROR" then o.without .cqClearError
  else if m = "CQE_QPID" then o.record?.map .cqeQpid
  else if m = "CQE_SWCQE" then o.record?.map .cqeSwcqe
  else if m = "CQE_STATUS" then o.record?.map .cqeStatus
  else if m = "CQE_TYPE" then o.record?.map .cqeType
  else if m = "CQE_OPCODE" then o.record?.map .cqeOpcode
  else if m = "CQE_SEND_OPCODE" then o.record?.map .cqeSendOpcode
  else if m = "CQE_LEN" then o.record?.map .cqeLen
  else if m = "CQE_WRID_STAG" then o.record?.map .cqeWridStag
  else if m = "CQE_WRID_MSN" then o.record?.map .cqeWridMsn
  else if m = "CQE_WRID_SQ_IDX" then o.record?.map .cqeWridSqIdx
  else if m = "CQE_WRID_HI" then o.record?.map .cqeWridHi
  else if m = "CQE_WRID_LOW" then o.record?.map .cqeWridLow
  else if m = "CQE_GENBIT" then o.record?.map .cqeGenbit
  else if m = "CQE_OVFBIT" then o.record?.map .cqeOvfbit
  else if m = "CQE_IQTYPE" then o.record?.map .cqeIqtype
  else if m = "CQE_TS" then o.record?.map .cqeTs
  else if m = "RD_STATE" then o.registerNumber.map .rdState
  else none

/-- The line `RD_STATE <name>`, the same command as `RD_STATE #<number>` (R70). -/
def rdStateByName (g : Reg) : Instr := .rdState (Reg.number g)

/-- The pseudo-instructions (R71). -/
inductive Pseudo where
  /-- `POST_SQ #n`; R71 bounds it, `1 <= n`. -/
  | postSq (n : Half)
  /-- `POST_RQ #n`; R71 writes no bound here (log 23). -/
  | postRq (n : Half)
  /-- `CQ_ARM` with no operand. -/
  | cqArm
  /-- `POLL`. -/
  | poll
deriving DecidableEq, Repr

/-- The commands a pseudo-instruction stands for (R71). `POST_SQ #0` stands for none: R71 writes `1 <= n`
there. R71 writes no bound for `POST_RQ` and leaves open whether that one is meant; DESIGN CHOICE (log 23):
the model takes none, so `POST_RQ #0` is `RING_RQ_DB #0`. -/
def Pseudo.expand : Pseudo → Option (List Instr)
  | .postSq n => if n = 0 then none else some (List.replicate n.toNat .sqProduce ++ [.ringSqDb n])
  | .postRq n => some (List.replicate n.toNat .rqProduce ++ [.ringRqDb n])
  | .cqArm => some [.cqArm 0]
  | .poll => some [.cqNext]

/-- The commands a line stands for: a pseudo-instruction's (R71), else the one command's (R70). -/
def assembleLine (m : String) (o : AsmOperand) : Option (List Instr) :=
  if m = "POST_SQ" then (o.below (2 ^ 16)).bind (fun n => (Pseudo.postSq (BitVec.ofNat 16 n)).expand)
  else if m = "POST_RQ" then (o.below (2 ^ 16)).bind (fun n => (Pseudo.postRq (BitVec.ofNat 16 n)).expand)
  else if m = "POLL" ∧ o = .absent then Pseudo.poll.expand
  else if m = "CQ_ARM" ∧ o = .absent then Pseudo.cqArm.expand
  else (assemble m o).map (fun i => [i])

end Sys2Proof.Machine
end

