-- ==== Sys2Proof/Safety.lean ====
section
/-!
DEFINITION. What counts as a safe run: the invariants of R30 to R32, runs of commands, the end of a run
(R142), who wrote a byte (R27, R54), and the premises about the Adapter and the Host that a claim may name
(R140, R151).
-/
namespace Sys2Proof.Machine

/-- R30: the registers of a work-queue ring of size `n`. -/
abbrev RingOk (n : Nat) (r : Ring) : Prop :=
  r.inUse.toNat ≤ n - 1 ∧ r.pidx.toNat < n ∧ r.cidx.toNat < n ∧
  r.pidx.toNat = (r.cidx.toNat + r.inUse.toNat) % n

/-- R31: the registers of the auxiliary ring of size `n`, which has no reserved slot. -/
abbrev AuxOk (n : Nat) (r : Ring) : Prop :=
  r.inUse.toNat ≤ n ∧ r.pidx.toNat < n ∧ r.cidx.toNat < n ∧
  r.pidx.toNat = (r.cidx.toNat + r.inUse.toNat) % n

/-- The legal values of the index and occupancy registers (R27, R30, R31). -/
abbrev RegsOk (s : State) : Prop :=
  RingOk s.cfg.nSq s.sq ∧ RingOk s.cfg.nRq s.rq ∧ AuxOk s.cfg.nCq s.swq ∧ s.cqCidx.toNat < s.cfg.nCq

/-- The latch of a Block whose configuration is not well formed (R129). -/
def badConfigLatch : Latch := ⟨.badConfig, none, none⟩

/-- The machine's invariant: memory is in its canonical form; under a well-formed configuration the
registers hold legal values; under any other the latch says so. -/
abbrev Inv (s : State) : Prop :=
  Memory.wf s.mem ∧ (s.cfg.wf = true → RegsOk s) ∧ (s.cfg.wf = false → s.fault = some badConfigLatch)

/-- R32: the two doorbell-suppression bytes hold the same value. -/
abbrev DboffAgree (s : State) : Prop := s.readByte s.cfg.sqDboff = s.readByte s.cfg.rqDboff

/-- A run ended well (R142). -/
abbrev EndedWell (s : State) : Prop := s.fault = none

/-- Commands executed one after another, with no other event in between. -/
def execAll : List Instr → State → Result
  | [], s => .next s
  | i :: is, s =>
    match exec i s with
    | .next t => execAll is t
    | .fault r => .fault r
    | .refused r => .refused r

/-- A command R62 calls illegal, from the bits of its word: `OP = CW[31:24]`, `RSV = CW[23:17]`,
`S = CW[16]`, `IMM = CW[15:0]` (R58). -/
def IllegalByR62 (c : Command) : Prop :=
  let op := c.cw.toNat / 2 ^ 24
  let imm := c.cw.toNat % 2 ^ 16
  op = 0x00 ∨ op = 0x07 ∨ op = 0x08 ∨ (0x15 ≤ op ∧ op ≤ 0x1F) ∨ (0x2B ≤ op ∧ op ≤ 0x2F) ∨ 0x41 ≤ op ∨
  c.cw.toNat / 2 ^ 17 % 2 ^ 7 ≠ 0 ∨
  (c.cw.toNat / 2 ^ 16 % 2 ≠ 0 ∧ op ≠ 0x25) ∨
  (imm ≠ 0 ∧ op ≠ 0x06 ∧ op ≠ 0x0E ∧ op ≠ 0x40) ∨
  (op = 0x40 ∧ imm ∉ [0x00, 0x01, 0x02, 0x03, 0x08, 0x09, 0x0A, 0x0B, 0x0C, 0x10,
    0x20, 0x21, 0x22, 0x23, 0x24, 0x25, 0x26, 0x27, 0x28]) ∨
  ((op = 0x21 ∨ (0x30 ≤ op ∧ op ≤ 0x3F)) ∧ c.record = none)

/-- The commands that read or write shared memory (R45). -/
def accessesMemory : Instr → Bool
  | .wqInError | .wqSetError | .wqDisableDb | .wqEnableDb | .wqDbEnabled
  | .cqNextHw | .cqNextSw | .cqNext | .cqInError | .cqSetError | .cqClearError => true
  | .sqProduce | .sqConsume | .sqEmpty | .sqFull | .sqAvail | .ringSqDb _
  | .rqProduce | .rqConsume | .rqEmpty | .rqFull | .rqAvail | .ringRqDb _ | .rqesPosted
  | .cqHwConsume | .cqIsValid _ | .cqArm _ | .cqSwProduce | .cqSwConsume
  | .cqeQpid _ | .cqeSwcqe _ | .cqeStatus _ | .cqeType _ | .cqeOpcode _ | .cqeSendOpcode _ | .cqeLen _
  | .cqeWridStag _ | .cqeWridMsn _ | .cqeWridSqIdx _ | .cqeWridHi _ | .cqeWridLow _
  | .cqeGenbit _ | .cqeOvfbit _ | .cqeIqtype _ | .cqeTs _ | .rdState _ => false

/-- The commands with the window of R54 between their two writes. -/
abbrev WritesBothSentinels (i : Instr) : Prop := i = .wqSetError ∨ i = .wqDisableDb ∨ i = .wqEnableDb

/-- Byte `a` has, after command `i` took `s` to `t`, the value that the Adapter's writes inside the command
leave there (R54); false where no event inside a command waits. -/
abbrev InsideAdapterWrote (i : Instr) (s t : State) (a : Addr) : Prop :=
  WritesBothSentinels i ∧ (∃ e rest, s.inputs = .adapterInside e :: rest) ∧
    t.readByte a = s.window.readByte a

/-- The next event is a reset (R143). -/
def nextIsReset (s : State) : Bool :=
  match s.inputs with
  | .host (.reset _ _) :: _ => true
  | _ => false

/-- The expected generation bit on the lap of the `k`-th record, counting from 0 (R33, R140). -/
def lapGen (c : Cfg) (k : Nat) : BitVec 1 := BitVec.ofNat 1 (c.genInit + k / c.nCq)

/-- The record in CQ slot `i`. -/
def slotRecord (s : State) (i : Nat) : Cqe := readCqe s.cfg s.mem (s.cfg.slotCq i)

/-- R140's premises on what the Adapter has written, `w 0` to `w (m - 1)`: in slot order from 0, wrapping
at `N_CQ`, the generation bit that of the lap, timestamps strictly increasing; a slot not written yet has
timestamp 0 and not the first lap's bit (R145; zero memory where `GEN_INIT` is 1, log 24); every other holds
the latest record written to it. -/
abbrev AdapterWrote (s : State) (w : Nat → Cqe) (m : Nat) : Prop :=
  (∀ k, k < m → Cqe.gen (w k) = lapGen s.cfg k) ∧
  (∀ j k, j < k → k < m → (Cqe.ts (w j)).toNat < (Cqe.ts (w k)).toNat) ∧
  (∀ i, i < s.cfg.nCq → m ≤ i →
    Cqe.gen (slotRecord s i) = lapGen s.cfg s.cfg.nCq ∧ Cqe.ts (slotRecord s i) = 0) ∧
  (∀ k, k < m → m ≤ k + s.cfg.nCq → slotRecord s (k % s.cfg.nCq) = w k)

/-- The Host has consumed the first `c` of those records, in order, and the first `p` were returned valid. -/
abbrev HostPolled (s : State) (w : Nat → Cqe) (c p : Nat) : Prop :=
  s.cqCidx.toNat = c % s.cfg.nCq ∧ s.cqGen = lapGen s.cfg c ∧
  (p = 0 → s.cqLastTs = 0) ∧ (∀ k, p = k + 1 → s.cqLastTs = Cqe.ts (w k))

/-- The Host has polled and consumed the first `c` of those records, in order (R151). -/
abbrev HostConsumed (s : State) (w : Nat → Cqe) (c : Nat) : Prop := HostPolled s w c c

/-- The generation-bit protocol is kept so far (R140, R151): `m` records written, `c` of them consumed, `p`
returned valid, at most one of these still to be consumed. -/
abbrev CompletionsInOrder (s : State) (w : Nat → Cqe) (m c p : Nat) : Prop :=
  AdapterWrote s w m ∧ HostPolled s w c p ∧ c ≤ p ∧ p ≤ c + 1 ∧ p ≤ m

/-- R140's premises on the Adapter events still to happen, up to the next reset, where `m` records are
written: each record written whole and the next one of `w`. -/
def AdapterInOrder (c : Cfg) (w : Nat → Cqe) : List Input → Nat → Prop
  | [], _ => True
  | .command _ :: rest, m => AdapterInOrder c w rest m
  | .host (.reset _ _) :: _, _ => True
  | .host _ :: rest, m => AdapterInOrder c w rest m
  | .adapter (.cqe i r) :: rest, m | .adapterInside (.cqe i r) :: rest, m =>
    i = m % c.nCq ∧ r = w m ∧ Cqe.gen (w m) = lapGen c m ∧
      (∀ j, j < m → (Cqe.ts (w j)).toNat < (Cqe.ts (w m)).toNat) ∧ AdapterInOrder c w rest (m + 1)
  | .adapter (.setErr _ _) :: rest, m | .adapterInside (.setErr _ _) :: rest, m => AdapterInOrder c w rest m
  | .adapter (.cqeBody _ _ _ _ _) :: _, _ | .adapterInside (.cqeBody _ _ _ _ _) :: _, _ => False
  | .adapter (.cqeTrailer _ _) :: _, _ | .adapterInside (.cqeTrailer _ _) :: _, _ => False

/-- How many whole records the Adapter is still to write. -/
def recordsAhead : List Input → Nat
  | [] => 0
  | .adapter (.cqe _ _) :: rest | .adapterInside (.cqe _ _) :: rest => recordsAhead rest + 1
  | _ :: rest => recordsAhead rest

end Sys2Proof.Machine
end

