-- ==== Sys2Proof/Certificates/Slice0/Obligations.lean ====
section
/-!
DEFINITION. The statements about the model, each from the spec's numbered rules. `s.answer r` is `s` with
one more response, `s.latch l` is `s` with the fault latch set to `l`, `s.emit e` is `s` with one more
event in `H`, `s.later rest` is `s` with the events `rest` still to happen: an equation with one of them says what the command writes and that it changes nothing else.
-/

open Sys2Proof Sys2Proof.Machine

/-! ## Encoding and the command port -/

/-- Words written out from R58 and R61 decode to the commands they stand for. -/
def Obligations.SpecWordsDecode : Prop :=
  decode ⟨0x01000000, none⟩ = .ok .sqProduce ∧
  decode ⟨0x06000007, none⟩ = .ok (.ringSqDb 7) ∧
  decode ⟨0x0E000003, none⟩ = .ok (.ringRqDb 3) ∧
  decode ⟨0x13000000, none⟩ = .ok .wqEnableDb ∧
  decode ⟨0x25010000, none⟩ = .ok (.cqArm 1) ∧
  decode ⟨0x3F000000, some ⟨0x12345014, 0x40, 0xAABBCCDD, 0x11223344, 0x8000000000000005⟩⟩ =
    .ok (.cqeTs ⟨0x12345014, 0x40, 0xAABBCCDD, 0x11223344, 0x8000000000000005⟩) ∧
  decode ⟨0x40000022, none⟩ = .ok (.rdState 0x22) ∧
  decode ⟨0x01020000, none⟩ = .error .reservedBits ∧
  decode ⟨0x40000004, none⟩ = .error .registerNumber

/-- R58, R61: decoding an encoded well-formed command gives it back, with every operand. -/
def Obligations.DecodeOfEncodeIsIdentity : Prop :=
  ∀ i : Instr, i.wellFormed = true → decode (encode i) = .ok i

/-- R58, R61: a command word has one meaning: a command that decodes to `i` is the encoding of `i`, its
record included where the command is marked rec. -/
def Obligations.EncodeOfDecodeIsIdentity : Prop :=
  ∀ (c : Command) (i : Instr), decode c = .ok i →
    i.wellFormed = true ∧ (encode i).cw = c.cw ∧
    (takesRecord (cwOp c.cw) = true → (encode i).record = c.record)

/-- R62: an illegal command raises `F_ILLEGAL_CMD` with no other effect; every other command is decoded
and executed; a record given with a command not marked rec is ignored. -/
def Obligations.ExactlyIllegalCommandsRaiseIllegalCmd : Prop :=
  ∀ (s : State) (c : Command) (rest : List Input), s.fault = none → s.inputs = .command c :: rest →
    (IllegalByR62 c →
      step s = .next ((s.later rest).latch ⟨.illegalCmd, some c.cw, none⟩)) ∧
    (¬ IllegalByR62 c →
      ∃ i, decode c = .ok i ∧ i.wellFormed = true ∧ step s = exec i (s.later rest)) ∧
    (c.cw.toNat / 2 ^ 24 ≠ 0x21 → ¬ (0x30 ≤ c.cw.toNat / 2 ^ 24 ∧ c.cw.toNat / 2 ^ 24 ≤ 0x3F) →
      decode c = decode ⟨c.cw, none⟩)

/-- A step runs the decoded command: where the next event presents a command that decodes to `i`, the
step is `exec i` in the state in which that event is no longer waiting. -/
def Obligations.StepRunsDecodedCommand : Prop :=
  ∀ (s : State) (c : Command) (rest : List Input) (i : Instr),
    s.inputs = .command c :: rest → decode c = .ok i → step s = exec i (s.later rest)

/-- R18, R144: with no event waiting the Block waits and nothing changes (model's choice, log 3). R139 to
R141: which environment events are liberties (the bytes of a descriptor write are log 15); a liberty happens
and any other event stops the machine (model's choice, log 12). An `adapterInside` event at the head of the
list happens as an ordinary Adapter event (model's choice, log 10). -/
def Obligations.WaitingAndOutsideLiberties : Prop :=
  (∀ s : State, s.inputs = [] → step s = .next s) ∧
  (∀ (s : State) (e : AdapterEvent) (rest : List Input),
    s.inputs = .adapter e :: rest ∨ s.inputs = .adapterInside e :: rest →
    (adapterMay s.cfg e = false → step s = .fault .adapterOutsideLiberties) ∧
    (adapterMay s.cfg e = true → step s = .next ((s.later rest).adapterEvent e))) ∧
  (∀ (s : State) (e : HostEvent) (rest : List Input), s.inputs = .host e :: rest →
    (hostMay s.cfg e = false → step s = .fault .hostOutsideLiberties) ∧
    (hostMay s.cfg e = true → step s = .next ((s.later rest).hostEvent e))) ∧
  (∀ (c : Cfg) (i : Nat) (r : Cqe) (x : SentinelRing) (v : Byte),
    (adapterMay c (.cqe i r) = true ↔ i < c.nCq) ∧
    (adapterMay c (.cqeBody i r.header r.len r.payHi r.payLo) = true ↔ i < c.nCq) ∧
    (adapterMay c (.cqeTrailer i r.trailer) = true ↔ i < c.nCq) ∧
    (adapterMay c (.setErr x v) = true ↔ v ≠ 0)) ∧
  (∀ (c c' : Cfg) (i : Nat) (r : Cqe) (bytes : List Byte) (prepared : Bool),
    hostMay c .setWqSwError = true ∧ hostMay c (.reset c' prepared) = true ∧
    (hostMay c (.swWrite i r) = true ↔ i < c.nCq) ∧
    (hostMay c (.descWrite .sq i bytes) = true ↔ i < c.nSq ∧ bytes.length ≤ c.sqStride * c.slotBytes) ∧
    (hostMay c (.descWrite .rq i bytes) = true ↔ i < c.nRq ∧ bytes.length ≤ c.rqStride * c.slotBytes))

/-- R70: the line written with a command's mnemonic and operand stands for that command and no other;
`RD_STATE` takes a register's number or its name of R27, and no other number or name. A line as a mnemonic
and an operand is the model's choice (log 22). -/
def Obligations.AssembledLineIsItsCommand : Prop :=
  let names : List (String × Half) :=
    [("N_SQ", 0x00), ("sq.in_use", 0x01), ("sq.pidx", 0x02), ("sq.cidx", 0x03),
     ("N_RQ", 0x08), ("rq.in_use", 0x09), ("rq.pidx", 0x0A), ("rq.cidx", 0x0B), ("rq.msn", 0x0C),
     ("wq.sw_error", 0x10), ("N_CQ", 0x20), ("cq.cidx", 0x21), ("cq.gen", 0x22), ("cq.cidx_inc", 0x23),
     ("cq.last_ts", 0x24), ("cq.error", 0x25), ("cq.sw_in_use", 0x26), ("cq.sw_pidx", 0x27),
     ("cq.sw_cidx", 0x28)]
  (∀ i : Instr, i.wellFormed = true → assembleLine (mnemonic i) (asmOperand i) = some [i]) ∧
  (∀ p ∈ names, assembleLine "RD_STATE" (.register p.1) = some [.rdState p.2] ∧
    assembleLine "RD_STATE" (.number p.2.toNat) = some [.rdState p.2]) ∧
  (∀ n, n ∉ names.map Prod.fst → assembleLine "RD_STATE" (.register n) = none) ∧
  (∀ n, n ∉ names.map (fun p => p.2.toNat) → assembleLine "RD_STATE" (.number n) = none)

/-! ## Faults -/

/-- R127, R128, R25: while the latch is set no command is accepted (the model's form of it, log 4: nothing
changes and there is no response), and nothing but a reset changes the latch. -/
def Obligations.LatchedBlockAcceptsNoCommand : Prop :=
  (∀ (i : Instr) (s : State), s.fault ≠ none → exec i s = .next s) ∧
  (∀ (s : State) (c : Command) (rest : List Input), s.fault ≠ none → s.inputs = .command c :: rest →
    step s = .next (s.later rest)) ∧
  (∀ s t : State, s.fault ≠ none → nextIsReset s = false → step s = .next t → t.fault = s.fault)

/-- R128: a command that faults records its reason, its own word and the info value in the latch and
changes nothing else. -/
def Obligations.FaultingCommandChangesOnlyTheLatch : Prop :=
  ∀ (i : Instr) (s t : State), s.fault = none → exec i s = .next t → t.fault ≠ none →
    ∃ reason info, t = s.latch ⟨reason, some (encode i).cw, info⟩

/-- R59: a command that does not fault ends with exactly one response; it never stops the machine. -/
def Obligations.EveryCommandEndsInOneResponseOrAFault : Prop :=
  ∀ (i : Instr) (s : State), s.fault = none →
    ∃ t, exec i s = .next t ∧
      ((t.fault = none ∧ ∃ r, t.responses = s.responses ++ [r]) ∨
       (t.fault ≠ none ∧ t.responses = s.responses))

/-! ## The whole command set -/

/-- R8, R21, R26: no command changes the configuration or `wq.sw_error`, and the history and the
responses only grow. -/
def Obligations.CommandsKeepConfigAndOnlyAppend : Prop :=
  ∀ (i : Instr) (s t : State), exec i s = .next t →
    t.cfg = s.cfg ∧ t.wqSwError = s.wqSwError ∧ s.history <+: t.history ∧ s.responses <+: t.responses

/-- R27's writers column: a command changes a register, the latch, `H` or a byte of memory only where the
table lists it, and writes a sentinel byte only with the value listed. Under a well-formed configuration
each of the six sentinel bytes has its own writers; where the Adapter acts inside a command (R54, in the
form of log 10) it writes bytes of its own, but no `.dboff` byte. -/
def Obligations.OnlyListedWritersChangeState : Prop :=
  ∀ (i : Instr) (s t : State), exec i s = .next t →
    t.cfg = s.cfg ∧ t.wqSwError = s.wqSwError ∧
    (t.sq.inUse ≠ s.sq.inUse → i = .sqProduce ∨ i = .sqConsume) ∧
    (t.sq.pidx ≠ s.sq.pidx → i = .sqProduce) ∧
    (t.sq.cidx ≠ s.sq.cidx → i = .sqConsume) ∧
    (t.rq.inUse ≠ s.rq.inUse → i = .rqProduce ∨ i = .rqConsume) ∧
    (t.rq.pidx ≠ s.rq.pidx → i = .rqProduce) ∧
    (t.rq.cidx ≠ s.rq.cidx → i = .rqConsume) ∧
    (t.rqMsn ≠ s.rqMsn → i = .rqConsume) ∧
    (t.cqCidx ≠ s.cqCidx → i = .cqHwConsume) ∧
    (t.cqGen ≠ s.cqGen → i = .cqHwConsume) ∧
    (t.cqCidxInc ≠ s.cqCidxInc → i = .cqHwConsume ∨ ∃ se, i = .cqArm se) ∧
    (t.cqLastTs ≠ s.cqLastTs → i = .cqNextHw ∨ i = .cqNext) ∧
    (t.cqError ≠ s.cqError → t.cqError = 1 ∧ (i = .cqNextHw ∨ i = .cqNext)) ∧
    (t.swq.inUse ≠ s.swq.inUse → i = .cqSwProduce ∨ i = .cqSwConsume) ∧
    (t.swq.pidx ≠ s.swq.pidx → i = .cqSwProduce) ∧
    (t.swq.cidx ≠ s.swq.cidx → i = .cqSwConsume) ∧
    (t.fault ≠ s.fault → s.fault = none ∧ t.responses = s.responses) ∧
    (t.history ≠ s.history →
      (∃ n, i = .ringSqDb n ∨ i = .ringRqDb n) ∨ (∃ se, i = .cqArm se) ∨ i = .cqNextHw ∨ i = .cqNext) ∧
    (s.cfg.wf = true →
      (t.readByte s.cfg.sqErr ≠ s.readByte s.cfg.sqErr →
        (i = .wqSetError ∧ t.readByte s.cfg.sqErr = 1) ∨ InsideAdapterWrote i s t s.cfg.sqErr) ∧
      (t.readByte s.cfg.rqErr ≠ s.readByte s.cfg.rqErr →
        (i = .wqSetError ∧ t.readByte s.cfg.rqErr = 1) ∨ InsideAdapterWrote i s t s.cfg.rqErr) ∧
      (t.readByte s.cfg.cqErr ≠ s.readByte s.cfg.cqErr →
        (i = .cqSetError ∧ t.readByte s.cfg.cqErr = 1) ∨ (i = .cqClearError ∧ t.readByte s.cfg.cqErr = 0) ∨
          InsideAdapterWrote i s t s.cfg.cqErr) ∧
      (t.readByte s.cfg.sqDboff ≠ s.readByte s.cfg.sqDboff →
        (i = .wqDisableDb ∧ t.readByte s.cfg.sqDboff = 1) ∨ (i = .wqEnableDb ∧ t.readByte s.cfg.sqDboff = 0)) ∧
      (t.readByte s.cfg.rqDboff ≠ s.readByte s.cfg.rqDboff →
        (i = .wqDisableDb ∧ t.readByte s.cfg.rqDboff = 1) ∨ (i = .wqEnableDb ∧ t.readByte s.cfg.rqDboff = 0)) ∧
      t.readByte s.cfg.cqDboff = s.readByte s.cfg.cqDboff ∧
      (∀ a, a ∉ [s.cfg.sqErr, s.cfg.rqErr, s.cfg.cqErr, s.cfg.sqDboff, s.cfg.rqDboff] →
        t.readByte a ≠ s.readByte a → InsideAdapterWrote i s t a))

/-- R45: a command that is not listed there neither reads nor writes shared memory: over any other memory
it does the same and leaves that memory as it is. -/
def Obligations.OtherCommandsIgnoreMemory : Prop :=
  ∀ (i : Instr) (s t : State) (m : Memory), accessesMemory i = false → exec i s = .next t →
    t.mem = s.mem ∧ exec i { s with mem := m } = .next { t with mem := m }

/-! ## Reset and invariants -/

/-- R143: what reset sets every register, `H` and the latch to, for every configuration; it does not
write memory. -/
def Obligations.ResetSetsEveryRegister : Prop :=
  ∀ (c : Cfg) (m : Memory) (ins : List Input),
    let s := State.resetWith c m ins
    s.cfg = c ∧ s.sq.inUse = 0 ∧ s.sq.pidx = 0 ∧ s.sq.cidx = 0 ∧
    s.rq.inUse = 0 ∧ s.rq.pidx = 0 ∧ s.rq.cidx = 0 ∧ s.rqMsn = BitVec.ofNat 32 c.msnInit ∧
    s.wqSwError = 0 ∧ s.cqCidx = 0 ∧ s.cqGen = BitVec.ofNat 1 c.genInit ∧ s.cqCidxInc = 0 ∧
    s.cqLastTs = 0 ∧ s.cqError = 0 ∧ s.swq.inUse = 0 ∧ s.swq.pidx = 0 ∧ s.swq.cidx = 0 ∧
    s.history = [] ∧ s.mem = m ∧
    (c.wf = true → s.fault = none) ∧ (c.wf = false → s.fault = some ⟨.badConfig, none, none⟩)

/-- R129: with a configuration that is not well formed the latch is set at reset and no command is ever
accepted (in the form of log 4). -/
def Obligations.BadConfigAcceptsNoCommand : Prop :=
  ∀ (c : Cfg) (m : Memory) (ins : List Input) (i : Instr), c.wf = false →
    (State.resetWith c m ins).fault = some ⟨.badConfig, none, none⟩ ∧
    exec i (State.resetWith c m ins) = .next (State.resetWith c m ins)

/-- R144, R145, R146: a reset event starts the instance again with the new configuration, over memory as
it is found, or over memory whose CQ ring and SQ and RQ sentinel records are zero and whose other bytes
are as they were; the events still to happen stay (model's choice, log 13). -/
def Obligations.ResetEventPreparesMemory : Prop :=
  ∀ (s : State) (c : Cfg) (prepared : Bool) (rest : List Input),
    s.inputs = .host (.reset c prepared) :: rest →
    ∃ m, step s = .next (State.resetWith c m rest) ∧
      (prepared = false → m = s.mem) ∧
      (prepared = true → ∀ a : Addr,
        Memory.read m a =
          if c.cqRegion.Has a ∨ (Region.mk c.sentSq.toNat c.slotBytes).Has a ∨
            (Region.mk c.sentRq.toNat c.slotBytes).Has a then 0 else s.readByte a)

/-- The invariant holds after a reset with any configuration over any memory in canonical form, the
machine's own reset state included. -/
def Obligations.ResetMeetsInvariant : Prop :=
  Inv State.reset ∧
  ∀ (c : Cfg) (m : Memory) (ins : List Input), Memory.wf m → Inv (State.resetWith c m ins)

/-- R30, R31: every step, whatever event it performs, keeps the invariant. -/
def Obligations.StepKeepsInvariant : Prop :=
  ∀ s t : State, Inv s → step s = .next t → Inv t

/-- R32: under a well-formed configuration every step but a reset keeps the two doorbell-suppression
bytes equal. -/
def Obligations.StepKeepsDboffBytesEqual : Prop :=
  ∀ s t : State, s.cfg.wf = true → DboffAgree s → nextIsReset s = false → step s = .next t → DboffAgree t

/-- R157, R21, R22: under a well-formed configuration an `.err` byte that reads as set stays set until a
reset or, for the CQ's, a `CQ_CLEAR_ERROR`; `cq.error` and `wq.sw_error` stay set until a reset. -/
def Obligations.ErrorFlagsStaySet : Prop :=
  ∀ s t : State, s.cfg.wf = true → nextIsReset s = false → step s = .next t →
    (s.readByte s.cfg.sqErr ≠ 0 → t.readByte s.cfg.sqErr ≠ 0) ∧
    (s.readByte s.cfg.rqErr ≠ 0 → t.readByte s.cfg.rqErr ≠ 0) ∧
    ((∀ r rest, s.inputs ≠ .command ⟨0x2A000000, r⟩ :: rest) →
      s.readByte s.cfg.cqErr ≠ 0 → t.readByte s.cfg.cqErr ≠ 0) ∧
    (s.cqError = 1 → t.cqError = 1) ∧ (s.wqSwError = 1 → t.wqSwError = 1)

/-! ## Layout -/

/-- R43: under a well-formed configuration every access the Block makes is naturally aligned. -/
def Obligations.BlockAccessesAreAligned : Prop :=
  ∀ (c : Cfg) (i : Nat) (a : Addr), c.wf = true → i < c.nCq → a = c.slotCq i ∨ a = c.slotSw i →
    a.toNat % 8 = 0 ∧ (a + 4).toNat % 4 = 0 ∧ (a + 8).toNat % 4 = 0 ∧ (a + 12).toNat % 4 = 0 ∧
    (a + BitVec.ofNat 64 c.cqeTrailerOff).toNat % 8 = 0 ∧
    c.sqDb.toNat % 4 = 0 ∧ c.rqDb.toNat % 4 = 0 ∧ c.cqArm.toNat % 4 = 0

/-- R39, R40, R42: the five values of a record, from the bytes of its slot, first byte most significant. -/
def Obligations.RecordsAreReadBigEndian : Prop :=
  ∀ (c : Cfg) (m : Memory) (a : Addr),
    let b := fun k : Nat => (Memory.read m (a + BitVec.ofNat 64 k)).toNat
    let word := fun k : Nat => b k * 2 ^ 24 + b (k + 1) * 2 ^ 16 + b (k + 2) * 2 ^ 8 + b (k + 3)
    (readCqe c m a).header.toNat = word 0 ∧ (readCqe c m a).len.toNat = word 4 ∧
    (readCqe c m a).payHi.toNat = word 8 ∧ (readCqe c m a).payLo.toNat = word 12 ∧
    (readCqe c m a).trailer.toNat = word c.cqeTrailerOff * 2 ^ 32 + word (c.cqeTrailerOff + 4)

/-! ## Work-queue rings -/

/-- R72: `SQ_PRODUCE`. -/
def Obligations.SqProduceAddsOneOrFaults : Prop :=
  ∀ s : State, s.fault = none →
    (s.sq.inUse.toNat = s.cfg.nSq - 1 →
      exec .sqProduce s = .next (s.latch ⟨.sqOverflow, some 0x01000000, some (s.sq.inUse.setWidth 32)⟩)) ∧
    (s.sq.inUse.toNat ≠ s.cfg.nSq - 1 →
      exec .sqProduce s = .next (({ s with
        sq := ⟨s.sq.inUse + 1, if s.sq.pidx.toNat + 1 = s.cfg.nSq then 0 else s.sq.pidx + 1, s.sq.cidx⟩ } :
        State).answer ⟨.ok, 0, none, .none⟩))

/-- R73: `SQ_CONSUME`. -/
def Obligations.SqConsumeTakesOneOrFaults : Prop :=
  ∀ s : State, s.fault = none →
    (s.sq.inUse = 0 → exec .sqConsume s = .next (s.latch ⟨.sqUnderflow, some 0x02000000, some 0⟩)) ∧
    (s.sq.inUse ≠ 0 →
      exec .sqConsume s = .next (({ s with
        sq := ⟨s.sq.inUse - 1, s.sq.pidx, if s.sq.cidx.toNat + 1 = s.cfg.nSq then 0 else s.sq.cidx + 1⟩ } :
        State).answer ⟨.ok, 0, none, .none⟩))

/-- R78: `RQ_PRODUCE`. -/
def Obligations.RqProduceAddsOneOrFaults : Prop :=
  ∀ s : State, s.fault = none →
    (s.rq.inUse.toNat = s.cfg.nRq - 1 →
      exec .rqProduce s = .next (s.latch ⟨.rqOverflow, some 0x09000000, some (s.rq.inUse.setWidth 32)⟩)) ∧
    (s.rq.inUse.toNat ≠ s.cfg.nRq - 1 →
      exec .rqProduce s = .next (({ s with
        rq := ⟨s.rq.inUse + 1, if s.rq.pidx.toNat + 1 = s.cfg.nRq then 0 else s.rq.pidx + 1, s.rq.cidx⟩ } :
        State).answer ⟨.ok, 0, none, .none⟩))

/-- R79: `RQ_CONSUME`, which also counts one message modulo 2^32. -/
def Obligations.RqConsumeTakesOneAndCountsOrFaults : Prop :=
  ∀ s : State, s.fault = none →
    (s.rq.inUse = 0 → exec .rqConsume s = .next (s.latch ⟨.rqUnderflow, some 0x0A000000, some 0⟩)) ∧
    (s.rq.inUse ≠ 0 →
      exec .rqConsume s = .next (({ s with
        rq := ⟨s.rq.inUse - 1, s.rq.pidx, if s.rq.cidx.toNat + 1 = s.cfg.nRq then 0 else s.rq.cidx + 1⟩
        rqMsn := BitVec.ofNat 32 ((s.rqMsn.toNat + 1) % 2 ^ 32) } :
        State).answer ⟨.ok, 0, none, .none⟩))

/-- R74, R75, R76: `SQ_EMPTY`, `SQ_FULL`, `SQ_AVAIL`. -/
def Obligations.SqQueriesAnswerOccupancy : Prop :=
  encode .sqEmpty = ⟨0x03000000, none⟩ ∧ encode .sqFull = ⟨0x04000000, none⟩ ∧
  encode .sqAvail = ⟨0x05000000, none⟩ ∧
  ∀ s : State, s.fault = none →
    exec .sqEmpty s = .next (s.answer ⟨.ok, if s.sq.inUse = 0 then 1 else 0, none, .none⟩) ∧
    exec .sqFull s =
      .next (s.answer ⟨.ok, if s.sq.inUse.toNat = s.cfg.nSq - 1 then 1 else 0, none, .none⟩) ∧
    (s.sq.inUse.toNat ≤ s.cfg.nSq - 1 →
      exec .sqAvail s =
        .next (s.answer ⟨.ok, BitVec.ofNat 64 (s.cfg.nSq - 1 - s.sq.inUse.toNat), none, .none⟩))

/-- R80, R81, R82, R84: `RQ_EMPTY`, `RQ_FULL`, `RQ_AVAIL`, `RQES_POSTED`. -/
def Obligations.RqQueriesAnswerOccupancy : Prop :=
  encode .rqEmpty = ⟨0x0B000000, none⟩ ∧ encode .rqFull = ⟨0x0C000000, none⟩ ∧
  encode .rqAvail = ⟨0x0D000000, none⟩ ∧ encode .rqesPosted = ⟨0x0F000000, none⟩ ∧
  ∀ s : State, s.fault = none →
    exec .rqEmpty s = .next (s.answer ⟨.ok, if s.rq.inUse = 0 then 1 else 0, none, .none⟩) ∧
    exec .rqFull s =
      .next (s.answer ⟨.ok, if s.rq.inUse.toNat = s.cfg.nRq - 1 then 1 else 0, none, .none⟩) ∧
    (s.rq.inUse.toNat ≤ s.cfg.nRq - 1 →
      exec .rqAvail s =
        .next (s.answer ⟨.ok, BitVec.ofNat 64 (s.cfg.nRq - 1 - s.rq.inUse.toNat), none, .none⟩)) ∧
    exec .rqesPosted s = .next (s.answer ⟨.ok, BitVec.ofNat 64 s.rq.inUse.toNat, none, .none⟩)

/-- R77: `RING_SQ_DB #inc`, whatever the suppression latch and the occupancy are. -/
def Obligations.RingSqDbFencesThenWritesOrFaults : Prop :=
  ∀ (s : State) (inc : Half), s.fault = none →
    (2 ^ s.cfg.pidxWidth ≤ inc.toNat * s.cfg.sqStride →
      exec (.ringSqDb inc) s = .next (s.latch ⟨.dbIncRange, some (BitVec.ofNat 32 (0x06000000 + inc.toNat)),
        some (BitVec.ofNat 32 (inc.toNat * s.cfg.sqStride))⟩)) ∧
    (inc.toNat * s.cfg.sqStride < 2 ^ s.cfg.pidxWidth →
      exec (.ringSqDb inc) s = .next (((s.emit .fenceSs).emit (.mmioWrite32 s.cfg.sqDb
        (dbWord s.cfg s.cfg.qidSq (inc.toNat * s.cfg.sqStride)))).answer ⟨.ok, 0, none, .none⟩))

/-- R83: `RING_RQ_DB #inc`. -/
def Obligations.RingRqDbFencesThenWritesOrFaults : Prop :=
  ∀ (s : State) (inc : Half), s.fault = none →
    (2 ^ s.cfg.pidxWidth ≤ inc.toNat * s.cfg.rqStride →
      exec (.ringRqDb inc) s = .next (s.latch ⟨.dbIncRange, some (BitVec.ofNat 32 (0x0E000000 + inc.toNat)),
        some (BitVec.ofNat 32 (inc.toNat * s.cfg.rqStride))⟩)) ∧
    (inc.toNat * s.cfg.rqStride < 2 ^ s.cfg.pidxWidth →
      exec (.ringRqDb inc) s = .next (((s.emit .fenceSs).emit (.mmioWrite32 s.cfg.rqDb
        (dbWord s.cfg s.cfg.qidRq (inc.toNat * s.cfg.rqStride)))).answer ⟨.ok, 0, none, .none⟩))

/-- R68: under a well-formed configuration the doorbell word is the two fields side by side, below 2^32
and not overlapping, and the increment can be read back from it. -/
def Obligations.DoorbellWordHoldsBothFields : Prop :=
  ∀ (c : Cfg) (qid : Word) (scaled : Nat), c.wf = true → scaled < 2 ^ c.pidxWidth →
    (dbWord c qid scaled).toNat =
      (((qid &&& c.qidMaskWq).toNat <<< c.qidShift) ||| (scaled <<< c.pidxShift)) ∧
    ((qid &&& c.qidMaskWq).toNat <<< c.qidShift) &&& (scaled <<< c.pidxShift) = 0 ∧
    ((dbWord c qid scaled).toNat >>> c.pidxShift) % 2 ^ c.pidxWidth = scaled

/-- R69 with R9's ranges and disjoint masks: under a well-formed configuration the arm word is its four
fields side by side, below 2^32, and the solicited flag, the increment and the timer selector can be read
back from it. -/
def Obligations.ArmWordHoldsItsFields : Prop :=
  ∀ (c : Cfg) (se : BitVec 1) (inc : Word), c.wf = true → inc.toNat < 2 ^ c.armCidxincWidth →
    (armWord c se inc).toNat =
      ((se.toNat <<< c.armSeShift) ||| (inc.toNat <<< c.armCidxincShift) |||
        (c.armTimerSel <<< c.armTimerShift) ||| ((c.qidCq &&& c.qidMaskCq).toNat <<< c.armQidShift)) ∧
    ((armWord c se inc).toNat >>> c.armSeShift) % 2 = se.toNat ∧
    ((armWord c se inc).toNat >>> c.armCidxincShift) % 2 ^ c.armCidxincWidth = inc.toNat ∧
    ((armWord c se inc).toNat >>> c.armTimerShift) % 2 ^ c.armTimerWidth = c.armTimerSel

/-- R85: from reset, for any sequence of commands that does not fault, the SQ and RQ registers are what
the numbers of produces and consumes in it say; a ring answers full exactly when it holds `N - 1` entries,
and what it answers as available makes up `N - 1` with what it holds. -/
def Obligations.RingRegistersCountProducesAndConsumes : Prop :=
  ∀ (c : Cfg) (m : Memory) (ins : List Input) (is : List Instr) (t : State), c.wf = true →
    execAll is (State.resetWith c m ins) = .next t → t.fault = none →
    (t.sq.inUse.toNat + is.count .sqConsume = is.count .sqProduce ∧
      t.sq.inUse.toNat ≤ c.nSq - 1 ∧
      t.sq.pidx.toNat = is.count .sqProduce % c.nSq ∧
      t.sq.cidx.toNat = is.count .sqConsume % c.nSq ∧
      (exec .sqFull t = .next (t.answer ⟨.ok, 1, none, .none⟩) ↔ t.sq.inUse.toNat = c.nSq - 1) ∧
      ∃ v : DWord, exec .sqAvail t = .next (t.answer ⟨.ok, v, none, .none⟩) ∧
        v.toNat + t.sq.inUse.toNat = c.nSq - 1) ∧
    (t.rq.inUse.toNat + is.count .rqConsume = is.count .rqProduce ∧
      t.rq.inUse.toNat ≤ c.nRq - 1 ∧
      t.rq.pidx.toNat = is.count .rqProduce % c.nRq ∧
      t.rq.cidx.toNat = is.count .rqConsume % c.nRq ∧
      (exec .rqFull t = .next (t.answer ⟨.ok, 1, none, .none⟩) ↔ t.rq.inUse.toNat = c.nRq - 1) ∧
      ∃ v : DWord, exec .rqAvail t = .next (t.answer ⟨.ok, v, none, .none⟩) ∧
        v.toNat + t.rq.inUse.toNat = c.nRq - 1) ∧
    t.rqMsn.toNat = (c.msnInit + is.count .rqConsume) % 2 ^ 32

/-- R71: the commands the four pseudo-instructions stand for, in the line form of log 22 (R71 writes
`1 <= n` for `POST_SQ` only; that `POST_RQ #0` is `RING_RQ_DB #0` is the model's choice, log 23). With room
for `n` entries `POST_SQ #n` and `POST_RQ #n` post them and ring the doorbell once for all of them. -/
def Obligations.PseudoInstructionsStandForTheirCommands : Prop :=
  (∀ n : Half, n ≠ 0 →
    assembleLine "POST_SQ" (.number n.toNat) = some (List.replicate n.toNat .sqProduce ++ [.ringSqDb n])) ∧
  (∀ n : Half,
    assembleLine "POST_RQ" (.number n.toNat) = some (List.replicate n.toNat .rqProduce ++ [.ringRqDb n])) ∧
  assembleLine "CQ_ARM" .absent = some [.cqArm 0] ∧ assembleLine "POLL" .absent = some [.cqNext] ∧
  ∀ (s : State) (n : Half) (is : List Instr), s.fault = none → s.cfg.wf = true → RegsOk s →
    (assembleLine "POST_SQ" (.number n.toNat) = some is → s.sq.inUse.toNat + n.toNat ≤ s.cfg.nSq - 1 →
      n.toNat * s.cfg.sqStride < 2 ^ s.cfg.pidxWidth →
      ∃ t, execAll is s = .next t ∧ t.fault = none ∧
        t.sq.inUse.toNat = s.sq.inUse.toNat + n.toNat ∧
        t.sq.pidx.toNat = (s.sq.pidx.toNat + n.toNat) % s.cfg.nSq ∧ t.sq.cidx = s.sq.cidx ∧
        t.history = s.history ++ [.fenceSs, .mmioWrite32 s.cfg.sqDb
          (dbWord s.cfg s.cfg.qidSq (n.toNat * s.cfg.sqStride))]) ∧
    (assembleLine "POST_RQ" (.number n.toNat) = some is → s.rq.inUse.toNat + n.toNat ≤ s.cfg.nRq - 1 →
      n.toNat * s.cfg.rqStride < 2 ^ s.cfg.pidxWidth →
      ∃ t, execAll is s = .next t ∧ t.fault = none ∧
        t.rq.inUse.toNat = s.rq.inUse.toNat + n.toNat ∧
        t.rq.pidx.toNat = (s.rq.pidx.toNat + n.toNat) % s.cfg.nRq ∧ t.rq.cidx = s.rq.cidx ∧
        t.rqMsn = s.rqMsn ∧
        t.history = s.history ++ [.fenceSs, .mmioWrite32 s.cfg.rqDb
          (dbWord s.cfg s.cfg.qidRq (n.toNat * s.cfg.rqStride))])

/-! ## Work-queue sentinels -/

/-- R86: `WQ_IN_ERROR` is the software flag or either ring's `.err` byte. -/
def Obligations.WqInErrorOrsFlagAndBothSentinels : Prop :=
  encode .wqInError = ⟨0x10000000, none⟩ ∧
  ∀ s : State, s.fault = none →
    exec .wqInError s = .next (s.answer ⟨.ok,
      if s.wqSwError = 1 ∨ s.readByte s.cfg.sqErr ≠ 0 ∨ s.readByte s.cfg.rqErr ≠ 0 then 1 else 0,
      none, .none⟩)

/-- R87, R88, R89: `WQ_SET_ERROR` writes 1 to both `.err` bytes, `WQ_DISABLE_DB` 1 and `WQ_ENABLE_DB` 0 to
both `.dboff` bytes, each to no other byte; here with no Adapter event inside the command (R54, in the form
of log 10). -/
def Obligations.WqSentinelCommandsWriteBothRings : Prop :=
  encode .wqSetError = ⟨0x11000000, none⟩ ∧ encode .wqDisableDb = ⟨0x12000000, none⟩ ∧
  encode .wqEnableDb = ⟨0x13000000, none⟩ ∧
  ∀ s : State, s.fault = none → (∀ e rest, s.inputs ≠ .adapterInside e :: rest) →
    (∃ m, exec .wqSetError s = .next (({ s with mem := m } : State).answer ⟨.ok, 0, none, .none⟩) ∧
      ∀ a, Memory.read m a = if a = s.cfg.sqErr ∨ a = s.cfg.rqErr then 1 else s.readByte a) ∧
    (∃ m, exec .wqDisableDb s = .next (({ s with mem := m } : State).answer ⟨.ok, 0, none, .none⟩) ∧
      ∀ a, Memory.read m a = if a = s.cfg.sqDboff ∨ a = s.cfg.rqDboff then 1 else s.readByte a) ∧
    (∃ m, exec .wqEnableDb s = .next (({ s with mem := m } : State).answer ⟨.ok, 0, none, .none⟩) ∧
      ∀ a, Memory.read m a = if a = s.cfg.sqDboff ∨ a = s.cfg.rqDboff then 0 else s.readByte a)

/-- R54: the three commands that write both sentinels, with the Adapter events `es` between the two
writes (in the form of log 10): SQ byte first, then those events, then the RQ byte. -/
def Obligations.AdapterMayActBetweenTheTwoSentinelWrites : Prop :=
  ∀ (s : State) (es : List AdapterEvent) (rest : List Input), s.fault = none →
    s.inputs = es.map .adapterInside ++ rest → (∀ e r, rest ≠ .adapterInside e :: r) →
    (∀ e ∈ es, adapterMay s.cfg e = true) →
    ∀ p ∈ [(Instr.wqSetError, s.cfg.sqErr, s.cfg.rqErr, (1 : Byte)),
           (.wqDisableDb, s.cfg.sqDboff, s.cfg.rqDboff, 1), (.wqEnableDb, s.cfg.sqDboff, s.cfg.rqDboff, 0)],
      exec p.1 s = .next (({ s with
        inputs := rest
        mem := Memory.write (es.foldl (adapterWrites s.cfg) (Memory.write s.mem p.2.1 p.2.2.2)) p.2.2.1 p.2.2.2 } :
        State).answer ⟨.ok, 0, none, .none⟩)

/-- R90: `WQ_DB_ENABLED` reads the SQ sentinel's `.dboff` byte. -/
def Obligations.WqDbEnabledReadsSqDboff : Prop :=
  encode .wqDbEnabled = ⟨0x14000000, none⟩ ∧
  ∀ s : State, s.fault = none →
    exec .wqDbEnabled s =
      .next (s.answer ⟨.ok, if s.readByte s.cfg.sqDboff = 0 then 1 else 0, none, .none⟩)

/-! ## Completion-queue engine -/

/-- R91: `CQ_HW_CONSUME`. -/
def Obligations.CqHwConsumeAdvancesOrFaults : Prop :=
  ∀ s : State, s.fault = none →
    (s.cqCidxInc.toNat = 2 ^ 32 - 1 →
      exec .cqHwConsume s = .next (s.latch ⟨.cidxincWrap, some 0x20000000, some s.cqCidxInc⟩)) ∧
    (s.cqCidxInc.toNat ≠ 2 ^ 32 - 1 → s.cqCidx.toNat + 1 = s.cfg.nCq →
      exec .cqHwConsume s = .next (({ s with
        cqCidxInc := s.cqCidxInc + 1, cqCidx := 0, cqGen := s.cqGen ^^^ 1 } : State).answer
        ⟨.ok, 0, none, .none⟩)) ∧
    (s.cqCidxInc.toNat ≠ 2 ^ 32 - 1 → s.cqCidx.toNat + 1 ≠ s.cfg.nCq →
      exec .cqHwConsume s = .next (({ s with
        cqCidxInc := s.cqCidxInc + 1, cqCidx := s.cqCidx + 1 } : State).answer ⟨.ok, 0, none, .none⟩))

/-- R33: from `cq.cidx = 0` and `cq.gen = g`, `k` hardware consumes leave `cq.cidx = k mod N_CQ` and
`cq.gen = g ^ ((k div N_CQ) mod 2)`. -/
def Obligations.GenerationBitAlternatesEachLap : Prop :=
  ∀ (s t : State) (k : Nat), s.cfg.wf = true → s.cqCidx = 0 →
    execAll (List.replicate k .cqHwConsume) s = .next t → t.fault = none →
    t.cqCidx.toNat = k % s.cfg.nCq ∧ t.cqGen = s.cqGen ^^^ BitVec.ofNat 1 (k / s.cfg.nCq % 2)

/-- R92: `CQ_IS_VALID rec` looks at trailer bit 63 alone. -/
def Obligations.CqIsValidComparesGeneration : Prop :=
  ∀ (s : State) (r : Cqe), s.fault = none →
    encode (.cqIsValid r) = ⟨0x21000000, some r⟩ ∧
    exec (.cqIsValid r) s =
      .next (s.answer ⟨.ok, if r.trailer.toNat / 2 ^ 63 = s.cqGen.toNat then 1 else 0, none, .none⟩)

/-- R93, R94: the three outcomes of `CQ_NEXT_HW` on the record in the slot at `cq.cidx`. -/
def Obligations.CqNextHwReturnsOverflowsOrHasNoData : Prop :=
  encode .cqNextHw = ⟨0x22000000, none⟩ ∧
  ∀ s : State, s.fault = none →
    let r := readCqe s.cfg s.mem (s.cfg.slotCq s.cqCidx.toNat)
    (r.trailer.toNat / 2 ^ 63 = s.cqGen.toNat →
      exec .cqNextHw s = .next (({ s with cqLastTs := BitVec.ofNat 60 (r.trailer.toNat % 2 ^ 60) } :
        State).answer ⟨.ok, BitVec.ofNat 64 s.cqCidx.toNat, some r, .hw⟩)) ∧
    (r.trailer.toNat / 2 ^ 63 ≠ s.cqGen.toNat → s.cqLastTs.toNat < r.trailer.toNat % 2 ^ 60 →
      exec .cqNextHw s = .next ((({ s with cqError := 1 } : State).emit (.diag .overflow s.cfg.qidCq)).answer
        ⟨.overflow, 0, none, .none⟩)) ∧
    (r.trailer.toNat / 2 ^ 63 ≠ s.cqGen.toNat → r.trailer.toNat % 2 ^ 60 ≤ s.cqLastTs.toNat →
      exec .cqNextHw s = .next (s.answer ⟨.nodata, 0, none, .none⟩))

/-- R95: `CQ_NEXT_SW` returns the auxiliary ring's head record. -/
def Obligations.CqNextSwReturnsHeadOrHasNoData : Prop :=
  encode .cqNextSw = ⟨0x23000000, none⟩ ∧
  ∀ s : State, s.fault = none →
    (s.swq.inUse = 0 → exec .cqNextSw s = .next (s.answer ⟨.nodata, 0, none, .none⟩)) ∧
    (s.swq.inUse ≠ 0 → exec .cqNextSw s = .next (s.answer ⟨.ok, BitVec.ofNat 64 s.swq.cidx.toNat,
      some (readCqe s.cfg s.mem (s.cfg.slotSw s.swq.cidx.toNat)), .sw⟩))

/-- R96, R104: `CQ_NEXT` tests the sticky error, then the auxiliary ring, then does what `CQ_NEXT_HW`
does. -/
def Obligations.CqNextPrefersErrorThenAuxiliaryThenHardware : Prop :=
  encode .cqNext = ⟨0x24000000, none⟩ ∧
  ∀ s : State, s.fault = none →
    (s.cqError = 1 → exec .cqNext s = .next (s.answer ⟨.nodata, 0, none, .none⟩)) ∧
    (s.cqError ≠ 1 → s.swq.inUse ≠ 0 → exec .cqNext s = .next (s.answer ⟨.ok,
      BitVec.ofNat 64 s.swq.cidx.toNat, some (readCqe s.cfg s.mem (s.cfg.slotSw s.swq.cidx.toNat)), .sw⟩)) ∧
    (s.cqError ≠ 1 → s.swq.inUse = 0 → exec .cqNext s = exec .cqNextHw s ∧ ∃ t, exec .cqNext s = .next t)

/-- R93, R103 (d): after an overflow, whatever commands follow, `cq.error` stays set and every `CQ_NEXT`
that is accepted gives NODATA. -/
def Obligations.OverflowMakesEveryLaterPollNoData : Prop :=
  ∀ (s t u : State) (is : List Instr), s.fault = none → exec .cqNextHw s = .next t →
    t.responses = s.responses ++ [⟨.overflow, 0, none, .none⟩] → execAll is t = .next u →
    u.cqError = 1 ∧ (u.fault = none → exec .cqNext u = .next (u.answer ⟨.nodata, 0, none, .none⟩))

/-- R97: `CQ_SW_PRODUCE`, whose full ring holds `N_CQ` entries. -/
def Obligations.CqSwProduceAddsOneOrFaults : Prop :=
  ∀ s : State, s.fault = none →
    (s.swq.inUse.toNat = s.cfg.nCq →
      exec .cqSwProduce s = .next (s.latch ⟨.swOverflow, some 0x26000000, some (s.swq.inUse.setWidth 32)⟩)) ∧
    (s.swq.inUse.toNat ≠ s.cfg.nCq →
      exec .cqSwProduce s = .next (({ s with
        swq := ⟨s.swq.inUse + 1, if s.swq.pidx.toNat + 1 = s.cfg.nCq then 0 else s.swq.pidx + 1, s.swq.cidx⟩ } :
        State).answer ⟨.ok, 0, none, .none⟩))

/-- R98: `CQ_SW_CONSUME`, which earns no arm credit. -/
def Obligations.CqSwConsumeTakesOneOrFaults : Prop :=
  ∀ s : State, s.fault = none →
    (s.swq.inUse = 0 → exec .cqSwConsume s = .next (s.latch ⟨.swUnderflow, some 0x27000000, some 0⟩)) ∧
    (s.swq.inUse ≠ 0 →
      exec .cqSwConsume s = .next (({ s with
        swq := ⟨s.swq.inUse - 1, s.swq.pidx, if s.swq.cidx.toNat + 1 = s.cfg.nCq then 0 else s.swq.cidx + 1⟩ } :
        State).answer ⟨.ok, 0, none, .none⟩))

/-- R103 (e): with `cq.error = 0`, polling and retiring `k` of the auxiliary ring's records returns them in
the order of their slots from `cq.sw_cidx` on, whatever the hardware ring holds. -/
def Obligations.AuxiliaryRecordsDrainInOrder : Prop :=
  ∀ (s : State) (k : Nat), s.fault = none → s.cfg.wf = true → RegsOk s → s.cqError = 0 →
    k ≤ s.swq.inUse.toNat →
    ∃ t, execAll ((List.replicate k [Instr.cqNext, Instr.cqSwConsume]).flatten) s = .next t ∧
      t.fault = none ∧ t.cqLastTs = s.cqLastTs ∧ t.swq.inUse.toNat + k = s.swq.inUse.toNat ∧
      t.responses = s.responses ++ ((List.range k).map (fun j =>
        [⟨.ok, BitVec.ofNat 64 ((s.swq.cidx.toNat + j) % s.cfg.nCq),
          some (readCqe s.cfg s.mem (s.cfg.slotSw ((s.swq.cidx.toNat + j) % s.cfg.nCq))), .sw⟩,
         ⟨.ok, 0, none, .none⟩])).flatten

/-- R99: `CQ_ARM #se`, with no barrier. -/
def Obligations.CqArmWritesAndClearsIncrementOrFaults : Prop :=
  ∀ (s : State) (se : BitVec 1), s.fault = none →
    (2 ^ s.cfg.armCidxincWidth ≤ s.cqCidxInc.toNat →
      exec (.cqArm se) s = .next (s.latch ⟨.armIncRange,
        some (BitVec.ofNat 32 (0x25000000 + se.toNat * 2 ^ 16)), some s.cqCidxInc⟩)) ∧
    (s.cqCidxInc.toNat < 2 ^ s.cfg.armCidxincWidth →
      exec (.cqArm se) s = .next ((({ s with cqCidxInc := 0 } : State).emit
        (.mmioWrite32 s.cfg.cqArm (armWord s.cfg se s.cqCidxInc))).answer ⟨.ok, 0, none, .none⟩))

/-- R100, R101, R102: the CQ sentinel's `.err` byte read, set and cleared, and no other byte. -/
def Obligations.CqSentinelCommandsUseOnlyCqErr : Prop :=
  encode .cqInError = ⟨0x28000000, none⟩ ∧ encode .cqSetError = ⟨0x29000000, none⟩ ∧
  encode .cqClearError = ⟨0x2A000000, none⟩ ∧
  ∀ s : State, s.fault = none →
    exec .cqInError s =
      .next (s.answer ⟨.ok, if s.readByte s.cfg.cqErr ≠ 0 then 1 else 0, none, .none⟩) ∧
    (∃ m, exec .cqSetError s = .next (({ s with mem := m } : State).answer ⟨.ok, 0, none, .none⟩) ∧
      ∀ a, Memory.read m a = if a = s.cfg.cqErr then 1 else s.readByte a) ∧
    (∃ m, exec .cqClearError s = .next (({ s with mem := m } : State).answer ⟨.ok, 0, none, .none⟩) ∧
      ∀ a, Memory.read m a = if a = s.cfg.cqErr then 0 else s.readByte a)

/-- R33, R92, R93, R140, R145: the generation-bit protocol. Where the Adapter has written `m` records as
R140 assumes, over slots prepared as log 24 reads R145, and the Host has consumed `c` of them in order,
`CQ_NEXT_HW` returns record `c` if it is written and not yet overwritten, gives NODATA if it is not written
yet, and reports OVERFLOW if the Adapter has lapped the Host by at most one lap. -/
def Obligations.GenerationProtocolIsSound : Prop :=
  ∀ (s : State) (w : Nat → Cqe) (m c : Nat), s.fault = none → s.cfg.wf = true →
    AdapterWrote s w m → HostConsumed s w c → c ≤ m →
    ∃ t, exec .cqNextHw s = .next t ∧
      (c < m → m ≤ c + s.cfg.nCq →
        t.responses = s.responses ++ [⟨.ok, BitVec.ofNat 64 (c % s.cfg.nCq), some (w c), .hw⟩] ∧
        t.cqLastTs = Cqe.ts (w c)) ∧
      (c = m → t.responses = s.responses ++ [⟨.nodata, 0, none, .none⟩]) ∧
      (c + s.cfg.nCq < m → m ≤ c + 2 * s.cfg.nCq →
        t.responses = s.responses ++ [⟨.overflow, 0, none, .none⟩] ∧ t.cqError = 1)

/-- R140, R151: every step keeps the generation-bit protocol. Where `m` records are written, `c` consumed and
`p` returned valid, the Adapter's later records are the next ones in order (each written whole, inside a
command too, log 10), the Host consumes only a record it was given, and the Adapter is at most two laps
ahead, the state after any step but a reset is that of the protocol again: one record more for each one the
Adapter wrote, and one consumed only by `CQ_HW_CONSUME`. -/
def Obligations.StepKeepsCompletionsInOrder : Prop :=
  ∀ (s t : State) (w : Nat → Cqe) (m c p : Nat), s.cfg.wf = true →
    CompletionsInOrder s w m c p → AdapterInOrder s.cfg w s.inputs m → m ≤ c + 2 * s.cfg.nCq →
    nextIsReset s = false → (∀ r rest, s.inputs = .command ⟨0x20000000, r⟩ :: rest → p = c + 1) →
    step s = .next t →
    ∃ m' c' p', CompletionsInOrder t w m' c' p' ∧ AdapterInOrder t.cfg w t.inputs m' ∧
      m' + recordsAhead t.inputs = m + recordsAhead s.inputs ∧
      (c' = c ∨ (c' = c + 1 ∧ ∃ r rest, s.inputs = .command ⟨0x20000000, r⟩ :: rest))

/-! ## CQE decoders and state read-out -/

/-- R106 to R111: the header decoders; the send-family decoder does not look at the entry type. -/
def Obligations.HeaderDecodersExtractTheirBits : Prop :=
  ∀ (s : State) (r : Cqe), s.fault = none →
    encode (.cqeQpid r) = ⟨0x30000000, some r⟩ ∧
    encode (.cqeSwcqe r) = ⟨0x31000000, some r⟩ ∧
    encode (.cqeStatus r) = ⟨0x32000000, some r⟩ ∧
    encode (.cqeType r) = ⟨0x33000000, some r⟩ ∧
    encode (.cqeOpcode r) = ⟨0x34000000, some r⟩ ∧
    encode (.cqeSendOpcode r) = ⟨0x35000000, some r⟩ ∧
    exec (.cqeQpid r) s = .next (s.answer ⟨.ok, BitVec.ofNat 64 (r.header.toNat / 2 ^ 12), none, .none⟩) ∧
    exec (.cqeSwcqe r) s = .next (s.answer ⟨.ok, BitVec.ofNat 64 (r.header.toNat / 2 ^ 11 % 2), none, .none⟩) ∧
    exec (.cqeStatus r) s =
      .next (s.answer ⟨.ok, BitVec.ofNat 64 (r.header.toNat / 2 ^ 5 % 2 ^ 6), none, .none⟩) ∧
    exec (.cqeType r) s = .next (s.answer ⟨.ok, BitVec.ofNat 64 (r.header.toNat / 2 ^ 4 % 2), none, .none⟩) ∧
    exec (.cqeOpcode r) s = .next (s.answer ⟨.ok, BitVec.ofNat 64 (r.header.toNat % 2 ^ 4), none, .none⟩) ∧
    exec (.cqeSendOpcode r) s =
      .next (s.answer ⟨.ok, if r.header.toNat % 2 ^ 4 ∈ s.cfg.sendOpcodes then 1 else 0, none, .none⟩)

/-- R112 to R117: the length and payload decoders. -/
def Obligations.PayloadDecodersReturnTheirWords : Prop :=
  ∀ (s : State) (r : Cqe), s.fault = none →
    encode (.cqeLen r) = ⟨0x36000000, some r⟩ ∧
    encode (.cqeWridStag r) = ⟨0x37000000, some r⟩ ∧
    encode (.cqeWridMsn r) = ⟨0x38000000, some r⟩ ∧
    encode (.cqeWridSqIdx r) = ⟨0x39000000, some r⟩ ∧
    encode (.cqeWridHi r) = ⟨0x3A000000, some r⟩ ∧
    encode (.cqeWridLow r) = ⟨0x3B000000, some r⟩ ∧
    exec (.cqeLen r) s = .next (s.answer ⟨.ok, BitVec.ofNat 64 r.len.toNat, none, .none⟩) ∧
    exec (.cqeWridStag r) s = .next (s.answer ⟨.ok, BitVec.ofNat 64 r.payHi.toNat, none, .none⟩) ∧
    exec (.cqeWridMsn r) s = .next (s.answer ⟨.ok, BitVec.ofNat 64 r.payLo.toNat, none, .none⟩) ∧
    exec (.cqeWridSqIdx r) s =
      .next (s.answer ⟨.ok, BitVec.ofNat 64 (r.payLo.toNat % 2 ^ 16), none, .none⟩) ∧
    exec (.cqeWridHi r) s = .next (s.answer ⟨.ok, BitVec.ofNat 64 r.payHi.toNat, none, .none⟩) ∧
    exec (.cqeWridLow r) s = .next (s.answer ⟨.ok, BitVec.ofNat 64 r.payLo.toNat, none, .none⟩)

/-- R118 to R121: the trailer decoders. -/
def Obligations.TrailerDecodersExtractTheirBits : Prop :=
  ∀ (s : State) (r : Cqe), s.fault = none →
    encode (.cqeGenbit r) = ⟨0x3C000000, some r⟩ ∧
    encode (.cqeOvfbit r) = ⟨0x3D000000, some r⟩ ∧
    encode (.cqeIqtype r) = ⟨0x3E000000, some r⟩ ∧
    encode (.cqeTs r) = ⟨0x3F000000, some r⟩ ∧
    exec (.cqeGenbit r) s = .next (s.answer ⟨.ok, BitVec.ofNat 64 (r.trailer.toNat / 2 ^ 63), none, .none⟩) ∧
    exec (.cqeOvfbit r) s =
      .next (s.answer ⟨.ok, BitVec.ofNat 64 (r.trailer.toNat / 2 ^ 62 % 2), none, .none⟩) ∧
    exec (.cqeIqtype r) s =
      .next (s.answer ⟨.ok, BitVec.ofNat 64 (r.trailer.toNat / 2 ^ 60 % 2 ^ 2), none, .none⟩) ∧
    exec (.cqeTs r) s = .next (s.answer ⟨.ok, BitVec.ofNat 64 (r.trailer.toNat % 2 ^ 60), none, .none⟩)

/-- R122: a header or trailer made of its fields decodes to them, and every header and trailer is made of
exactly one tuple of fields. -/
def Obligations.HeaderAndTrailerFieldsRoundTrip : Prop :=
  (∀ (x : Cqe) (q : BitVec 20) (w : BitVec 1) (st : BitVec 6) (t : BitVec 1) (o : BitVec 4),
    let h := BitVec.ofNat 32
      ((q.toNat <<< 12) ||| (w.toNat <<< 11) ||| (st.toNat <<< 5) ||| (t.toNat <<< 4) ||| o.toNat)
    Cqe.qpid { x with header := h } = q ∧ Cqe.swcqe { x with header := h } = w ∧
    Cqe.status { x with header := h } = st ∧ Cqe.entryType { x with header := h } = t ∧
    Cqe.opcode { x with header := h } = o) ∧
  (∀ x : Cqe, x.header = BitVec.ofNat 32 (((Cqe.qpid x).toNat <<< 12) ||| ((Cqe.swcqe x).toNat <<< 11) |||
    ((Cqe.status x).toNat <<< 5) ||| ((Cqe.entryType x).toNat <<< 4) ||| (Cqe.opcode x).toNat)) ∧
  (∀ (x : Cqe) (g o : BitVec 1) (iq : BitVec 2) (ts : BitVec 60),
    let v := BitVec.ofNat 64 ((g.toNat <<< 63) ||| (o.toNat <<< 62) ||| (iq.toNat <<< 60) ||| ts.toNat)
    Cqe.gen { x with trailer := v } = g ∧ Cqe.ovfl { x with trailer := v } = o ∧
    Cqe.iqtype { x with trailer := v } = iq ∧ Cqe.ts { x with trailer := v } = ts) ∧
  (∀ x : Cqe, x.trailer = BitVec.ofNat 64 (((Cqe.gen x).toNat <<< 63) ||| ((Cqe.ovfl x).toNat <<< 62) |||
    ((Cqe.iqtype x).toNat <<< 60) ||| (Cqe.ts x).toNat))

/-- R123: `RD_STATE #r` returns the register the table gives for `r`, zero-extended, and changes nothing;
any other `r` is an illegal command. -/
def Obligations.RdStateReturnsTheNumberedRegister : Prop :=
  (∀ r : Half, encode (.rdState r) = ⟨BitVec.ofNat 32 (0x40000000 + r.toNat), none⟩) ∧
  ∀ s : State, s.fault = none →
    let table : List (Half × Nat) :=
      [(0x00, s.cfg.nSq), (0x01, s.sq.inUse.toNat), (0x02, s.sq.pidx.toNat), (0x03, s.sq.cidx.toNat),
       (0x08, s.cfg.nRq), (0x09, s.rq.inUse.toNat), (0x0A, s.rq.pidx.toNat), (0x0B, s.rq.cidx.toNat),
       (0x0C, s.rqMsn.toNat), (0x10, s.wqSwError.toNat), (0x20, s.cfg.nCq), (0x21, s.cqCidx.toNat),
       (0x22, s.cqGen.toNat), (0x23, s.cqCidxInc.toNat), (0x24, s.cqLastTs.toNat), (0x25, s.cqError.toNat),
       (0x26, s.swq.inUse.toNat), (0x27, s.swq.pidx.toNat), (0x28, s.swq.cidx.toNat)]
    (∀ p ∈ table, exec (.rdState p.1) s = .next (s.answer ⟨.ok, BitVec.ofNat 64 p.2, none, .none⟩)) ∧
    (∀ r : Half, r ∉ table.map Prod.fst →
      exec (.rdState r) s =
        .next (s.latch ⟨.illegalCmd, some (BitVec.ofNat 32 (0x40000000 + r.toNat)), none⟩))

/-! ## The Adapter and the Host -/

/-- R53, R140 (b), R141: an Adapter write of a non-zero value to an `.err` byte changes that byte and
nothing else. -/
def Obligations.AdapterSetErrWritesOneByte : Prop :=
  ∀ (s : State) (x : SentinelRing) (v : Byte) (rest : List Input), v ≠ 0 →
    s.inputs = .adapter (.setErr x v) :: rest →
    ∃ m, step s = .next { s with mem := m, inputs := rest } ∧
      ∀ a, Memory.read m a =
        if a = (match x with | .sq => s.cfg.sqErr | .rq => s.cfg.rqErr | .cq => s.cfg.cqErr) then v
        else s.readByte a

/-- R39, R40, R51, R141: an Adapter write to CQ slot `i`: the whole record reads back as written, the body
alone leaves the old trailer, the trailer alone leaves the old body, and no byte outside the slot and no
register changes. -/
def Obligations.AdapterRecordReadsBackFromItsSlot : Prop :=
  ∀ (s : State) (i : Nat) (r : Cqe) (e : AdapterEvent) (rest : List Input), s.cfg.wf = true →
    i < s.cfg.nCq → s.inputs = .adapter e :: rest →
    (e = .cqe i r ∨ e = .cqeBody i r.header r.len r.payHi r.payLo ∨ e = .cqeTrailer i r.trailer) →
    ∃ m, step s = .next { s with mem := m, inputs := rest } ∧
      readCqe s.cfg m (s.cfg.slotCq i) =
        (match e with
         | .cqe _ _ => r
         | .cqeBody _ _ _ _ _ => { r with trailer := (slotRecord s i).trailer }
         | _ => { slotRecord s i with trailer := r.trailer }) ∧
      ∀ a, ¬ (Region.mk (s.cfg.slotCq i).toNat s.cfg.cqeBytes).Has a → Memory.read m a = s.readByte a

/-- R139, R141: the Host's moves: `set_wq_sw_error` sets that flag alone; an auxiliary record reads back
from its slot and no byte outside the slot changes; a descriptor write changes no byte outside its entry.
That it carries bytes, written from the entry's first byte on and at most the entry's footprint, is the
model's choice (log 15). -/
def Obligations.HostMovesWriteOnlyTheirPlace : Prop :=
  ∀ (s : State) (rest : List Input), s.cfg.wf = true →
    (s.inputs = .host .setWqSwError :: rest → step s = .next { s with wqSwError := 1, inputs := rest }) ∧
    (∀ (i : Nat) (r : Cqe), i < s.cfg.nCq → s.inputs = .host (.swWrite i r) :: rest →
      ∃ m, step s = .next { s with mem := m, inputs := rest } ∧ readCqe s.cfg m (s.cfg.slotSw i) = r ∧
        ∀ a, ¬ (Region.mk (s.cfg.slotSw i).toNat s.cfg.cqeBytes).Has a → Memory.read m a = s.readByte a) ∧
    (∀ (i : Nat) (bytes : List Byte), i < s.cfg.nSq → bytes.length ≤ s.cfg.sqStride * s.cfg.slotBytes →
      s.inputs = .host (.descWrite .sq i bytes) :: rest →
      ∃ m, step s = .next { s with mem := m, inputs := rest } ∧
        Memory.readBytes m (s.cfg.sqEntry i) bytes.length = bytes ∧
        ∀ a, ¬ (Region.mk (s.cfg.sqEntry i).toNat (s.cfg.sqStride * s.cfg.slotBytes)).Has a →
          Memory.read m a = s.readByte a) ∧
    (∀ (i : Nat) (bytes : List Byte), i < s.cfg.nRq → bytes.length ≤ s.cfg.rqStride * s.cfg.slotBytes →
      s.inputs = .host (.descWrite .rq i bytes) :: rest →
      ∃ m, step s = .next { s with mem := m, inputs := rest } ∧
        Memory.readBytes m (s.cfg.rqEntry i) bytes.length = bytes ∧
        ∀ a, ¬ (Region.mk (s.cfg.rqEntry i).toNat (s.cfg.rqStride * s.cfg.slotBytes)).Has a →
          Memory.read m a = s.readByte a)
end

