-- ==== Sys2Proof/Laws/Encoding.lean ====
section
/-!
SUPPORT. The fields of a command word built by the encoder (R58), and a command word from its fields.
-/
namespace Sys2Proof

theorem commandWord_toNat (op : BitVec 8) (s : BitVec 1) (imm : Half) :
    (commandWord op s imm).toNat = op.toNat * 2 ^ 24 + s.toNat * 2 ^ 16 + imm.toNat := by
  have h1 := s.isLt
  have h2 := imm.isLt
  unfold commandWord
  simp only [BitVec.toNat_append]
  rw [← Nat.shiftLeft_add_eq_or_of_lt h2, ← Nat.shiftLeft_add_eq_or_of_lt h1,
    ← Nat.shiftLeft_add_eq_or_of_lt (by decide)]
  have h0 : BitVec.toNat (0 : BitVec 7) = 0 := rfl
  simp only [Nat.shiftLeft_eq, h0]
  omega

theorem cwOp_commandWord (op : BitVec 8) (s : BitVec 1) (imm : Half) : cwOp (commandWord op s imm) = op := by
  apply BitVec.eq_of_toNat_eq
  simp only [cwOp, BitVec.extractLsb'_toNat, commandWord_toNat, Nat.shiftRight_eq_div_pow]
  have := op.isLt; have := s.isLt; have := imm.isLt
  omega

theorem cwRsv_commandWord (op : BitVec 8) (s : BitVec 1) (imm : Half) : cwRsv (commandWord op s imm) = 0 := by
  apply BitVec.eq_of_toNat_eq
  simp only [cwRsv, BitVec.extractLsb'_toNat, commandWord_toNat, Nat.shiftRight_eq_div_pow]
  have := op.isLt; have := s.isLt; have := imm.isLt
  simp; omega

theorem cwS_commandWord (op : BitVec 8) (s : BitVec 1) (imm : Half) : cwS (commandWord op s imm) = s := by
  apply BitVec.eq_of_toNat_eq
  simp only [cwS, BitVec.extractLsb'_toNat, commandWord_toNat, Nat.shiftRight_eq_div_pow]
  have := op.isLt; have := s.isLt; have := imm.isLt
  omega

theorem cwImm_commandWord (op : BitVec 8) (s : BitVec 1) (imm : Half) : cwImm (commandWord op s imm) = imm := by
  apply BitVec.eq_of_toNat_eq
  simp only [cwImm, BitVec.extractLsb'_toNat, commandWord_toNat, Nat.shiftRight_eq_div_pow]
  have := op.isLt; have := s.isLt; have := imm.isLt
  omega

/-- A word whose reserved bits are zero is the word of its fields. -/
theorem commandWord_fields (w : Word) (h : cwRsv w = 0) : commandWord (cwOp w) (cwS w) (cwImm w) = w := by
  apply BitVec.eq_of_toNat_eq
  have h' := congrArg BitVec.toNat h
  simp only [cwRsv, BitVec.extractLsb'_toNat, Nat.shiftRight_eq_div_pow] at h'
  simp only [commandWord_toNat, cwOp, cwS, cwImm, BitVec.extractLsb'_toNat, Nat.shiftRight_eq_div_pow]
  have := w.isLt
  simp at h'
  omega

end Sys2Proof
end

