-- ==== Sys2Proof/Laws/Memory.lean ====
section
/-!
SUPPORT. Shared memory: a read after a write, and every operation keeps the canonical form.
-/
namespace Sys2Proof.Machine

theorem Memory.lookup_insert (m : Memory) (a b : Nat) (v : Byte) :
    Memory.lookup (Memory.insert m a v) b = if a = b then v else Memory.lookup m b := by
  induction m with
  | nil => simp [Memory.insert, Memory.lookup]
  | cons c m ih =>
    obtain ⟨k, w⟩ := c
    simp only [Memory.insert]
    split
    · simp [Memory.lookup]
    · split
      · subst_vars; simp [Memory.lookup]; split <;> rfl
      · simp only [Memory.lookup, ih]
        split
        · subst_vars; simp_all
        · rfl

theorem Memory.lookup_clear (m : Memory) (first length b : Nat) :
    Memory.lookup (Memory.clear m first length) b =
      if first ≤ b ∧ b < first + length then unlistedByte else Memory.lookup m b := by
  unfold Memory.clear
  induction m with
  | nil => simp [Memory.lookup]
  | cons c m ih =>
    obtain ⟨k, w⟩ := c
    simp only [List.filter_cons]
    split <;> rename_i h
    · simp only [Memory.lookup, ih]
      split
      · subst_vars; simp at h; split <;> simp_all; omega
      · rfl
    · simp only [ih, Memory.lookup]
      split
      · rfl
      · rw [if_neg]; rintro rfl; simp_all

/-- A write is read back where it was made and nowhere else. -/
theorem Memory.read_write (m : Memory) (a b : Addr) (v : Byte) :
    Memory.read (Memory.write m a v) b = if a = b then v else Memory.read m b := by
  unfold Memory.read Memory.write
  have hab : a.toNat = b.toNat ↔ a = b := BitVec.toNat_inj
  split
  · subst_vars
    rw [Memory.lookup_clear]
    split <;> rename_i h
    · rw [if_pos (hab.1 (by omega))]
    · rw [if_neg]; rintro rfl; omega
  · simp [Memory.lookup_insert, hab]

theorem Memory.read_write_same (m : Memory) (a : Addr) (v : Byte) :
    Memory.read (Memory.write m a v) a = v := by simp [Memory.read_write]

theorem Memory.read_write_other (m : Memory) (a b : Addr) (v : Byte) (h : a ≠ b) :
    Memory.read (Memory.write m a v) b = Memory.read m b := by simp [Memory.read_write, h]

theorem Memory.clear_wf (m : Memory) (first length : Nat) (h : Memory.wf m) :
    Memory.wf (Memory.clear m first length) :=
  ⟨h.1.sublist List.filter_sublist, fun c hc => h.2 c (List.mem_of_mem_filter hc)⟩

theorem Memory.mem_insert (m : Memory) (a : Nat) (v : Byte) (c : Host.Cell)
    (h : c ∈ Memory.insert m a v) : c = (a, v) ∨ c ∈ m := by
  induction m with
  | nil => simpa [Memory.insert] using h
  | cons d m ih =>
    obtain ⟨k, w⟩ := d
    simp only [Memory.insert] at h
    split at h
    · simpa using h
    · split at h
      · simp only [List.mem_cons] at h ⊢; tauto
      · simp only [List.mem_cons] at h ⊢
        rcases h with h | h
        · exact .inr (.inl h)
        · rcases ih h with h | h <;> tauto

theorem Memory.insert_pairwise (m : Memory) (a : Nat) (v : Byte)
    (h : m.Pairwise (fun x y => x.1 < y.1)) :
    (Memory.insert m a v).Pairwise (fun x y => x.1 < y.1) := by
  induction m with
  | nil => simp [Memory.insert]
  | cons d m ih =>
    obtain ⟨k, w⟩ := d
    rw [List.pairwise_cons] at h
    simp only [Memory.insert]
    split <;> rename_i hk
    · refine List.pairwise_cons.2 ⟨?_, List.pairwise_cons.2 h⟩
      intro c hc
      rcases List.mem_cons.1 hc with rfl | hc
      · exact hk
      · exact lt_trans hk (h.1 c hc)
    · split <;> rename_i hk'
      · subst hk'; exact List.pairwise_cons.2 h
      · refine List.pairwise_cons.2 ⟨fun c hc => ?_, ih h.2⟩
        rcases Memory.mem_insert m a v c hc with rfl | hc
        · simp only; omega
        · exact h.1 c hc

/-- Every write keeps the canonical form. -/
theorem Memory.write_wf (m : Memory) (a : Addr) (v : Byte) (h : Memory.wf m) :
    Memory.wf (Memory.write m a v) := by
  unfold Memory.write
  split <;> rename_i hv
  · exact Memory.clear_wf m _ _ h
  · refine ⟨Memory.insert_pairwise m _ v h.1, fun c hc => ?_⟩
    rcases Memory.mem_insert m _ v c hc with rfl | hc
    · exact ⟨a.isLt, hv⟩
    · exact h.2 c hc

theorem Memory.writeBytes_wf (bs : List Byte) (m : Memory) (a : Addr) (h : Memory.wf m) :
    Memory.wf (Memory.writeBytes m a bs) := by
  induction bs generalizing m a with
  | nil => exact h
  | cons b bs ih => exact ih _ _ (Memory.write_wf m a b h)

/-- Writing bytes leaves every byte outside them alone. -/
theorem Memory.read_writeBytes_other (bs : List Byte) (m : Memory) (a b : Addr)
    (h : ∀ k, k < bs.length → a + BitVec.ofNat 64 k ≠ b) :
    Memory.read (Memory.writeBytes m a bs) b = Memory.read m b := by
  induction bs generalizing m a with
  | nil => rfl
  | cons c bs ih =>
    rw [Memory.writeBytes, ih, Memory.read_write_other]
    · simpa using h 0 (by simp)
    · intro k hk
      have := h (k + 1) (by simpa using hk)
      rwa [BitVec.ofNat_add, BitVec.add_comm (BitVec.ofNat 64 k), ← BitVec.add_assoc] at this

theorem writeCqe_wf (c : Cfg) (m : Memory) (a : Addr) (r : Cqe) (h : Memory.wf m) :
    Memory.wf (writeCqe c m a r) :=
  Memory.writeBytes_wf _ _ _ (Memory.writeBytes_wf _ _ _ h)

theorem adapterWrites_wf (c : Cfg) (m : Memory) (e : AdapterEvent) (h : Memory.wf m) :
    Memory.wf (adapterWrites c m e) := by
  cases e with
  | cqeBody => exact Memory.writeBytes_wf _ _ _ h
  | cqeTrailer => exact Memory.writeBytes_wf _ _ _ h
  | cqe => exact writeCqe_wf _ _ _ _ h
  | setErr => exact Memory.write_wf _ _ _ h

theorem prepareMemory_wf (c : Cfg) (m : Memory) (h : Memory.wf m) : Memory.wf (prepareMemory c m) :=
  Memory.clear_wf _ _ _ (Memory.clear_wf _ _ _ (Memory.clear_wf _ _ _ h))

/-- A Host event keeps the canonical form. -/
theorem hostEvent_wf (e : HostEvent) (s : State) (h : Memory.wf s.mem) :
    Memory.wf (s.hostEvent e).mem := by
  cases e with
  | setWqSwError => exact h
  | swWrite i r => exact writeCqe_wf _ _ _ _ h
  | descWrite q i bytes => exact Memory.writeBytes_wf _ _ _ h
  | reset c p => cases p <;> [exact h; exact prepareMemory_wf _ _ h]

/-- Two memories in canonical form that read alike are equal data. -/
theorem Memory.wf_ext (m n : Memory) (hm : Memory.wf m) (hn : Memory.wf n)
    (h : ∀ a, Memory.lookup m a = Memory.lookup n a) : m = n := by
  have absent : ∀ (k : Memory) (a : Nat), (∀ c ∈ k, a < c.1) → Memory.lookup k a = unlistedByte := by
    intro k a hk
    induction k with
    | nil => rfl
    | cons c k ih =>
      rw [Memory.lookup, if_neg (by have := hk c (by simp); omega)]
      exact ih (fun d hd => hk d (by simp [hd]))
  induction m generalizing n with
  | nil =>
    cases n with
    | nil => rfl
    | cons c n =>
      have := h c.1
      simp only [Memory.lookup, if_true] at this
      exact absurd this.symm (hn.2 c (by simp)).2
  | cons c m ih =>
    have hm' := List.pairwise_cons.1 hm.1
    cases n with
    | nil =>
      have := h c.1
      simp only [Memory.lookup, if_true] at this
      exact absurd this (hm.2 c (by simp)).2
    | cons d n =>
      have hn' := List.pairwise_cons.1 hn.1
      have h1 := h c.1
      have h2 := h d.1
      simp only [Memory.lookup, if_true] at h1 h2
      have key : c.1 = d.1 := by
        rcases lt_trichotomy c.1 d.1 with hlt | heq | hgt
        · rw [if_neg (by omega), absent n c.1 (fun e he => lt_trans hlt (hn'.1 e he))] at h1
          exact absurd h1 (hm.2 c (by simp)).2
        · exact heq
        · rw [if_neg (by omega), absent m d.1 (fun e he => lt_trans hgt (hm'.1 e he))] at h2
          exact absurd h2.symm (hn.2 d (by simp)).2
      rw [if_pos key.symm] at h1
      have hcd : c = d := Prod.ext key h1
      subst hcd
      congr 1
      refine ih n ⟨hm'.2, fun e he => hm.2 e (by simp [he])⟩ ⟨hn'.2, fun e he => hn.2 e (by simp [he])⟩ ?_
      intro a
      by_cases ha : c.1 = a
      · subst ha; rw [absent m _ hm'.1, absent n _ hn'.1]
      · have := h a
        simpa [Memory.lookup, ha] using this

end Sys2Proof.Machine
end

