-- ==== Sys2Proof/Laws/Layout.lean ====
section
/-!
SUPPORT. Under a well-formed configuration no address computation wraps: every address of Machine/Layout.lean
as a natural number, and every ring below 2^64. With them, what wide writes and CQE records do to memory.
-/
namespace Sys2Proof

theorem Cfg.wf_iff (c : Cfg) :
    c.wf = true ↔ c.SizesOk ∧ c.RecordsOk ∧ c.AlignedOk ∧ c.RegionsOk ∧ c.DoorbellOk ∧ c.ArmOk ∧ c.ValuesOk := by
  simp only [Cfg.wf, Bool.and_eq_true, decide_eq_true_eq, and_assoc]

theorem Cfg.sizesOk {c : Cfg} (h : c.wf = true) : c.SizesOk := (c.wf_iff.1 h).1

theorem Cfg.recordsOk {c : Cfg} (h : c.wf = true) : c.RecordsOk := (c.wf_iff.1 h).2.1

theorem Cfg.regionsOk {c : Cfg} (h : c.wf = true) : c.RegionsOk := (c.wf_iff.1 h).2.2.2.1

theorem Cfg.doorbellOk {c : Cfg} (h : c.wf = true) : c.DoorbellOk := (c.wf_iff.1 h).2.2.2.2.1

theorem Cfg.armOk {c : Cfg} (h : c.wf = true) : c.ArmOk := (c.wf_iff.1 h).2.2.2.2.2.1

/-- The four memory regions lie below 2^64 and are pairwise disjoint, written out. -/
theorem Cfg.regions_spread {c : Cfg} (h : c.wf = true) :
    (c.sqRegion.Below ∧ c.rqRegion.Below ∧ c.cqRegion.Below ∧ c.swqRegion.Below) ∧
    c.sqRegion.Disjoint c.rqRegion ∧ c.sqRegion.Disjoint c.cqRegion ∧ c.sqRegion.Disjoint c.swqRegion ∧
    c.rqRegion.Disjoint c.cqRegion ∧ c.rqRegion.Disjoint c.swqRegion ∧ c.cqRegion.Disjoint c.swqRegion := by
  obtain ⟨hd, -, hb, -⟩ := Cfg.regionsOk h
  simp only [Cfg.memoryRegions, List.pairwise_cons, List.mem_cons, List.not_mem_nil, or_false,
    forall_eq_or_imp, forall_eq] at hd hb
  obtain ⟨⟨d1, d2, d3⟩, ⟨d4, d5⟩, d6, -⟩ := hd
  exact ⟨hb, d1, d2, d3, d4, d5, d6⟩

/-- A byte is in at most one of the four rings. -/
theorem Cfg.region_apart {c : Cfg} (h : c.wf = true) (b : Addr) :
    (c.sqRegion.Has b → ¬ c.rqRegion.Has b ∧ ¬ c.cqRegion.Has b ∧ ¬ c.swqRegion.Has b) ∧
    (c.rqRegion.Has b → ¬ c.sqRegion.Has b ∧ ¬ c.cqRegion.Has b ∧ ¬ c.swqRegion.Has b) ∧
    (c.cqRegion.Has b → ¬ c.sqRegion.Has b ∧ ¬ c.rqRegion.Has b ∧ ¬ c.swqRegion.Has b) := by
  obtain ⟨-, d1, d2, d3, d4, d5, d6⟩ := Cfg.regions_spread h
  simp only [Region.Has, Region.Disjoint] at *
  refine ⟨fun h => ⟨?_, ?_, ?_⟩, fun h => ⟨?_, ?_, ?_⟩, fun h => ⟨?_, ?_, ?_⟩⟩ <;> omega

/-- An offset that stays below 2^64 is added exactly. -/
theorem addr_add_toNat (a : Addr) (n : Nat) (h : a.toNat + n < 2 ^ 64) :
    (a + BitVec.ofNat 64 n).toNat = a.toNat + n := by
  rw [BitVec.toNat_add, BitVec.toNat_ofNat, Nat.mod_eq_of_lt (by omega : n < 2 ^ 64), Nat.mod_eq_of_lt h]

theorem Cfg.sentSq_toNat {c : Cfg} (h : c.wf = true) :
    c.sentSq.toNat = c.sqBase.toNat + c.nSq * c.sqStride * c.slotBytes ∧
    c.sentSq.toNat + c.slotBytes = c.sqRegion.first + c.sqRegion.length ∧
    c.sentSq.toNat + c.slotBytes ≤ 2 ^ 64 := by
  have hb := (Cfg.regions_spread h).1.1
  have hs := (Cfg.recordsOk h).1
  have : c.sentSq.toNat = c.sqBase.toNat + c.nSq * c.sqStride * c.slotBytes := by
    unfold Cfg.sentSq
    apply addr_add_toNat
    simp only [Region.Below, Cfg.sqRegion, Nat.add_mul] at hb
    omega
  simp only [Region.Below, Cfg.sqRegion, Nat.add_mul] at hb ⊢
  omega

theorem Cfg.sentRq_toNat {c : Cfg} (h : c.wf = true) :
    c.sentRq.toNat = c.rqBase.toNat + c.nRq * c.rqStride * c.slotBytes ∧
    c.sentRq.toNat + c.slotBytes = c.rqRegion.first + c.rqRegion.length ∧
    c.sentRq.toNat + c.slotBytes ≤ 2 ^ 64 := by
  have hb := (Cfg.regions_spread h).1.2.1
  have hs := (Cfg.recordsOk h).1
  have : c.sentRq.toNat = c.rqBase.toNat + c.nRq * c.rqStride * c.slotBytes := by
    unfold Cfg.sentRq
    apply addr_add_toNat
    simp only [Region.Below, Cfg.rqRegion, Nat.add_mul] at hb
    omega
  simp only [Region.Below, Cfg.rqRegion, Nat.add_mul] at hb ⊢
  omega

theorem Cfg.sentCq_toNat {c : Cfg} (h : c.wf = true) :
    c.sentCq.toNat = c.cqBase.toNat + c.nCq * c.cqeBytes ∧
    c.sentCq.toNat + c.cqeBytes = c.cqRegion.first + c.cqRegion.length ∧
    c.sentCq.toNat + c.cqeBytes ≤ 2 ^ 64 := by
  have hb := (Cfg.regions_spread h).1.2.2.1
  have hs := (Cfg.recordsOk h).2.2.2.2.2.1
  have : c.sentCq.toNat = c.cqBase.toNat + c.nCq * c.cqeBytes := by
    unfold Cfg.sentCq
    apply addr_add_toNat
    simp only [Region.Below, Cfg.cqRegion, Nat.add_mul] at hb
    omega
  simp only [Region.Below, Cfg.cqRegion, Nat.add_mul] at hb ⊢
  omega

/-- The six sentinel bytes, each inside its ring's sentinel record. -/
theorem Cfg.sentinel_toNat {c : Cfg} (h : c.wf = true) :
    c.sqErr.toNat = c.sentSq.toNat + c.sentErrOff ∧ c.sqDboff.toNat = c.sentSq.toNat + c.sentDboffOff ∧
    c.rqErr.toNat = c.sentRq.toNat + c.sentErrOff ∧ c.rqDboff.toNat = c.sentRq.toNat + c.sentDboffOff ∧
    c.cqErr.toNat = c.sentCq.toNat + c.sentErrOff ∧ c.cqDboff.toNat = c.sentCq.toNat + c.sentDboffOff := by
  obtain ⟨-, -, -, -, -, -, he, hd, -⟩ := Cfg.recordsOk h
  have h1 := (Cfg.sentSq_toNat h).2.2
  have h2 := (Cfg.sentRq_toNat h).2.2
  have h3 := (Cfg.sentCq_toNat h).2.2
  refine ⟨?_, ?_, ?_, ?_, ?_, ?_⟩ <;> refine addr_add_toNat _ _ ?_ <;> omega

/-- Each sentinel byte is in its own ring, past the ring's entries or slots. -/
theorem Cfg.sentinel_in_ring {c : Cfg} (h : c.wf = true) :
    (c.sqRegion.Has c.sqErr ∧ c.sentSq.toNat ≤ c.sqErr.toNat) ∧
    (c.sqRegion.Has c.sqDboff ∧ c.sentSq.toNat ≤ c.sqDboff.toNat) ∧
    (c.rqRegion.Has c.rqErr ∧ c.sentRq.toNat ≤ c.rqErr.toNat) ∧
    (c.rqRegion.Has c.rqDboff ∧ c.sentRq.toNat ≤ c.rqDboff.toNat) ∧
    (c.cqRegion.Has c.cqErr ∧ c.sentCq.toNat ≤ c.cqErr.toNat) := by
  obtain ⟨e1, e2, e3, e4, e5, -⟩ := Cfg.sentinel_toNat h
  obtain ⟨-, -, -, -, -, -, r1, r2, -⟩ := Cfg.recordsOk h
  obtain ⟨s1, s2, -⟩ := Cfg.sentSq_toNat h
  obtain ⟨q1, q2, -⟩ := Cfg.sentRq_toNat h
  obtain ⟨c1, c2, -⟩ := Cfg.sentCq_toNat h
  have f1 : c.sqRegion.first = c.sqBase.toNat := rfl
  have f2 : c.rqRegion.first = c.rqBase.toNat := rfl
  have f3 : c.cqRegion.first = c.cqBase.toNat := rfl
  simp only [Region.Has]
  refine ⟨⟨?_, ?_⟩, ⟨?_, ?_⟩, ⟨?_, ?_⟩, ⟨?_, ?_⟩, ⟨?_, ?_⟩⟩ <;> omega

/-- A CQ slot lies between the ring's base and its sentinel. -/
theorem Cfg.slotCq_toNat {c : Cfg} (h : c.wf = true) {i : Nat} (hi : i < c.nCq) :
    (c.slotCq i).toNat = c.cqBase.toNat + i * c.cqeBytes ∧
    (c.slotCq i).toNat + c.cqeBytes ≤ c.sentCq.toNat := by
  have hs := Cfg.sentCq_toNat h
  have hm : (i + 1) * c.cqeBytes ≤ c.nCq * c.cqeBytes := Nat.mul_le_mul_right _ hi
  rw [Nat.add_mul, Nat.one_mul] at hm
  have hp := (Cfg.recordsOk h).2.2.2.2.2.1
  have : (c.slotCq i).toNat = c.cqBase.toNat + i * c.cqeBytes := addr_add_toNat _ _ (by omega)
  omega

/-- An auxiliary slot lies in the auxiliary ring. -/
theorem Cfg.slotSw_toNat {c : Cfg} (h : c.wf = true) {i : Nat} (hi : i < c.nCq) :
    (c.slotSw i).toNat = c.swqBase.toNat + i * c.cqeBytes ∧
    (c.slotSw i).toNat + c.cqeBytes ≤ c.swqRegion.first + c.swqRegion.length := by
  have hb := (Cfg.regions_spread h).1.2.2.2
  have hm : (i + 1) * c.cqeBytes ≤ c.nCq * c.cqeBytes := Nat.mul_le_mul_right _ hi
  rw [Nat.add_mul, Nat.one_mul] at hm
  have hp := (Cfg.recordsOk h).2.2.2.2.2.1
  simp only [Region.Below, Cfg.swqRegion] at hb ⊢
  have : (c.slotSw i).toNat = c.swqBase.toNat + i * c.cqeBytes := addr_add_toNat _ _ (by omega)
  omega

/-- An SQ entry lies between the ring's base and its sentinel. -/
theorem Cfg.sqEntry_toNat {c : Cfg} (h : c.wf = true) {i : Nat} (hi : i < c.nSq) :
    (c.sqEntry i).toNat = c.sqBase.toNat + i * c.sqStride * c.slotBytes ∧
    (c.sqEntry i).toNat + c.sqStride * c.slotBytes ≤ c.sentSq.toNat := by
  have hs := Cfg.sentSq_toNat h
  have hm : (i + 1) * (c.sqStride * c.slotBytes) ≤ c.nSq * (c.sqStride * c.slotBytes) :=
    Nat.mul_le_mul_right _ hi
  rw [Nat.add_mul, Nat.one_mul, ← Nat.mul_assoc, ← Nat.mul_assoc] at hm
  have hp := (Cfg.recordsOk h).1
  have : (c.sqEntry i).toNat = c.sqBase.toNat + i * c.sqStride * c.slotBytes :=
    addr_add_toNat _ _ (by omega)
  omega

/-- An RQ entry lies between the ring's base and its sentinel. -/
theorem Cfg.rqEntry_toNat {c : Cfg} (h : c.wf = true) {i : Nat} (hi : i < c.nRq) :
    (c.rqEntry i).toNat = c.rqBase.toNat + i * c.rqStride * c.slotBytes ∧
    (c.rqEntry i).toNat + c.rqStride * c.slotBytes ≤ c.sentRq.toNat := by
  have hs := Cfg.sentRq_toNat h
  have hm : (i + 1) * (c.rqStride * c.slotBytes) ≤ c.nRq * (c.rqStride * c.slotBytes) :=
    Nat.mul_le_mul_right _ hi
  rw [Nat.add_mul, Nat.one_mul, ← Nat.mul_assoc, ← Nat.mul_assoc] at hm
  have hp := (Cfg.recordsOk h).1
  have : (c.rqEntry i).toNat = c.rqBase.toNat + i * c.rqStride * c.slotBytes :=
    addr_add_toNat _ _ (by omega)
  omega

end Sys2Proof

namespace Sys2Proof.Machine

/-- Bytes written below 2^64 change no byte outside them. -/
theorem Memory.read_writeBytes_outside (bs : List Byte) (m : Memory) (a b : Addr)
    (hw : a.toNat + bs.length ≤ 2 ^ 64) (h : b.toNat < a.toNat ∨ a.toNat + bs.length ≤ b.toNat) :
    Memory.read (Memory.writeBytes m a bs) b = Memory.read m b := by
  apply Memory.read_writeBytes_other
  intro k hk he
  have := congrArg BitVec.toNat he
  rw [addr_add_toNat _ _ (by omega)] at this
  omega

/-- Reading bytes looks at those bytes only. -/
theorem Memory.readBytes_congr (m m' : Memory) (a : Addr) (n : Nat) (hw : a.toNat + n ≤ 2 ^ 64)
    (h : ∀ b : Addr, a.toNat ≤ b.toNat → b.toNat < a.toNat + n → Memory.read m b = Memory.read m' b) :
    Memory.readBytes m a n = Memory.readBytes m' a n := by
  induction n generalizing a with
  | zero => rfl
  | succ n ih =>
    simp only [Memory.readBytes]
    rw [h a (Nat.le_refl _) (by omega)]
    by_cases hn : n = 0
    · subst hn; rfl
    · have h1 : (a + 1).toNat = a.toNat + 1 := addr_add_toNat a 1 (by omega)
      rw [ih (a + 1) (by omega) (fun b h2 h3 => h b (by omega) (by omega))]

/-- Bytes written below 2^64 read back as written. -/
theorem Memory.readBytes_writeBytes (bs : List Byte) (m : Memory) (a : Addr)
    (hw : a.toNat + bs.length ≤ 2 ^ 64) : Memory.readBytes (Memory.writeBytes m a bs) a bs.length = bs := by
  induction bs generalizing m a with
  | nil => rfl
  | cons b bs ih =>
    simp only [List.length_cons] at hw ⊢
    simp only [Memory.writeBytes, Memory.readBytes]
    by_cases hn : bs = []
    · subst hn; simp [Memory.writeBytes, Memory.readBytes, Memory.read_write_same]
    · have hl : 0 < bs.length := List.length_pos_iff.2 hn
      have h1 : (a + 1).toNat = a.toNat + 1 := addr_add_toNat a 1 (by omega)
      rw [ih _ _ (by omega), Memory.read_writeBytes_outside _ _ _ _ (by omega) (by omega),
        Memory.read_write_same]

theorem Memory.readBytes_append (m : Memory) (a : Addr) (n k : Nat) :
    Memory.readBytes m a (n + k) = Memory.readBytes m a n ++ Memory.readBytes m (a + BitVec.ofNat 64 n) k := by
  induction n generalizing a with
  | zero => simp [Memory.readBytes]
  | succ n ih =>
    rw [Nat.add_right_comm, Memory.readBytes, Memory.readBytes, ih, List.cons_append]
    rw [Nat.add_comm n 1, BitVec.ofNat_add, BitVec.add_assoc]
    rfl

@[simp] theorem toBe_length (n v : Nat) : (toBe n v).length = n := by
  induction n with
  | zero => rfl
  | succ n ih => simp [toBe, ih]

theorem be_toBe (n v : Nat) : be (toBe n v) = v % 256 ^ n := by
  suffices ∀ acc, (toBe n v).foldl (fun acc b => acc * 256 + b.toNat) acc = acc * 256 ^ n + v % 256 ^ n by
    simpa [be] using this 0
  induction n with
  | zero => simp [toBe, Nat.mod_one]
  | succ n ih =>
    intro acc
    simp only [toBe, List.foldl_cons, ih, BitVec.toNat_ofNat]
    rw [show 2 ^ 8 = 256 from rfl, Nat.pow_succ, Nat.mod_mul]
    ring

/-- The first sixteen bytes of a record, cut into its four words. -/
theorem readBytes_words (m : Memory) (a : Addr) (h l ph pl : List Byte)
    (hl : l.length = 4) (hph : ph.length = 4) (hpl : pl.length = 4)
    (he : Memory.readBytes m a 16 = h ++ l ++ ph ++ pl) :
    Memory.readBytes m a 4 = h ∧ Memory.readBytes m (a + 4) 4 = l ∧ Memory.readBytes m (a + 8) 4 = ph ∧
    Memory.readBytes m (a + 12) 4 = pl := by
  have len : ∀ (n : Nat) (a : Addr), (Memory.readBytes m a n).length = n := by
    intro n; induction n with
    | zero => intro; rfl
    | succ n ih => intro a; simp [Memory.readBytes, ih]
  rw [show (16 : Nat) = 4 + 4 + 4 + 4 from rfl, Memory.readBytes_append, Memory.readBytes_append,
    Memory.readBytes_append] at he
  obtain ⟨he, h4⟩ := List.append_inj' he (by simp [len, hpl])
  obtain ⟨he, h3⟩ := List.append_inj' he (by simp [len, hph])
  obtain ⟨h1, h2⟩ := List.append_inj' he (by simp [len, hl])
  exact ⟨h1, h2, h3, h4⟩

/-- Reading a record looks at the bytes of its slot only. -/
theorem readCqe_congr (c : Cfg) (m m' : Memory) (a : Addr) (h1 : 16 ≤ c.cqeTrailerOff)
    (h2 : c.cqeTrailerOff + 8 ≤ c.cqeBytes) (h3 : a.toNat + c.cqeBytes ≤ 2 ^ 64)
    (h : ∀ b : Addr, a.toNat ≤ b.toNat → b.toNat < a.toNat + c.cqeBytes →
      Memory.read m b = Memory.read m' b) : readCqe c m a = readCqe c m' a := by
  have a4 : (a + 4).toNat = a.toNat + 4 := addr_add_toNat a 4 (by omega)
  have a8 : (a + 8).toNat = a.toNat + 8 := addr_add_toNat a 8 (by omega)
  have a12 : (a + 12).toNat = a.toNat + 12 := addr_add_toNat a 12 (by omega)
  have at' := addr_add_toNat a c.cqeTrailerOff (by omega)
  have go : ∀ (x : Addr) (n : Nat), a.toNat ≤ x.toNat → x.toNat + n ≤ a.toNat + c.cqeBytes →
      Memory.readBytes m x n = Memory.readBytes m' x n := fun x n hx hn =>
    Memory.readBytes_congr m m' x n (by omega) (fun b k1 k2 => h b (by omega) (by omega))
  unfold readCqe
  rw [go a 4 (by omega) (by omega), go (a + 4) 4 (by omega) (by omega), go (a + 8) 4 (by omega) (by omega),
    go (a + 12) 4 (by omega) (by omega), go _ 8 (by omega) (by omega)]

/-- A body write: the four words read back, the trailer is as before. -/
theorem readCqe_writeCqeBody (c : Cfg) (m : Memory) (a : Addr) (h l ph pl : Word)
    (h1 : 16 ≤ c.cqeTrailerOff) (h2 : c.cqeTrailerOff + 8 ≤ c.cqeBytes)
    (h3 : a.toNat + c.cqeBytes ≤ 2 ^ 64) :
    readCqe c (writeCqeBody m a h l ph pl) a = ⟨h, l, ph, pl, (readCqe c m a).trailer⟩ := by
  have hlen : (toBe 4 h.toNat ++ toBe 4 l.toNat ++ toBe 4 ph.toNat ++ toBe 4 pl.toNat).length = 16 := by
    simp
  have hr := Memory.readBytes_writeBytes
    (toBe 4 h.toNat ++ toBe 4 l.toNat ++ toBe 4 ph.toNat ++ toBe 4 pl.toNat) m a (by rw [hlen]; omega)
  rw [hlen] at hr
  obtain ⟨e1, e2, e3, e4⟩ := readBytes_words _ a _ _ _ _ (by simp) (by simp) (by simp) hr
  have at' := addr_add_toNat a c.cqeTrailerOff (by omega)
  have e5 : Memory.readBytes (writeCqeBody m a h l ph pl) (a + BitVec.ofNat 64 c.cqeTrailerOff) 8 =
      Memory.readBytes m (a + BitVec.ofNat 64 c.cqeTrailerOff) 8 := by
    refine Memory.readBytes_congr _ _ _ _ (by omega) fun b k1 k2 => ?_
    exact Memory.read_writeBytes_outside _ _ _ _ (by rw [hlen]; omega) (by rw [hlen]; omega)
  have w : ∀ x : Word, BitVec.ofNat 32 (be (toBe 4 x.toNat)) = x := by
    intro x
    rw [be_toBe, show (256 : Nat) ^ 4 = 2 ^ 32 from rfl, Nat.mod_eq_of_lt x.isLt, BitVec.ofNat_toNat,
      BitVec.setWidth_eq]
  unfold readCqe
  simp only [e5]
  simp only [writeCqeBody, e1, e2, e3, e4, w]

/-- A trailer write: the trailer reads back, the body is as before. -/
theorem readCqe_writeCqeTrailer (c : Cfg) (m : Memory) (a : Addr) (t : DWord)
    (h1 : 16 ≤ c.cqeTrailerOff) (h2 : c.cqeTrailerOff + 8 ≤ c.cqeBytes)
    (h3 : a.toNat + c.cqeBytes ≤ 2 ^ 64) :
    readCqe c (writeCqeTrailer c m a t) a = { readCqe c m a with trailer := t } := by
  have at' := addr_add_toNat a c.cqeTrailerOff (by omega)
  have a4 : (a + 4).toNat = a.toNat + 4 := addr_add_toNat a 4 (by omega)
  have a8 : (a + 8).toNat = a.toNat + 8 := addr_add_toNat a 8 (by omega)
  have a12 : (a + 12).toNat = a.toNat + 12 := addr_add_toNat a 12 (by omega)
  have hlen : (toBe 8 t.toNat).length = 8 := by simp
  have hr := Memory.readBytes_writeBytes (toBe 8 t.toNat) m (a + BitVec.ofNat 64 c.cqeTrailerOff)
    (by rw [hlen]; omega)
  rw [hlen] at hr
  have go : ∀ (x : Addr) (n : Nat), a.toNat ≤ x.toNat → x.toNat + n ≤ a.toNat + 16 →
      Memory.readBytes (writeCqeTrailer c m a t) x n = Memory.readBytes m x n := fun x n hx hn =>
    Memory.readBytes_congr _ _ x n (by omega) fun b k1 k2 =>
      Memory.read_writeBytes_outside _ _ _ _ (by rw [hlen]; omega) (by omega)
  unfold readCqe
  rw [go a 4 (by omega) (by omega), go (a + 4) 4 (by omega) (by omega), go (a + 8) 4 (by omega) (by omega),
    go (a + 12) 4 (by omega) (by omega)]
  simp only [writeCqeTrailer, hr, be_toBe]
  rw [show (256 : Nat) ^ 8 = 2 ^ 64 from rfl, Nat.mod_eq_of_lt t.isLt, BitVec.ofNat_toNat,
    BitVec.setWidth_eq]

/-- A whole record reads back as written. -/
theorem readCqe_writeCqe (c : Cfg) (m : Memory) (a : Addr) (r : Cqe) (h1 : 16 ≤ c.cqeTrailerOff)
    (h2 : c.cqeTrailerOff + 8 ≤ c.cqeBytes) (h3 : a.toNat + c.cqeBytes ≤ 2 ^ 64) :
    readCqe c (writeCqe c m a r) a = r := by
  rw [writeCqe, readCqe_writeCqeTrailer c _ a _ h1 h2 h3, readCqe_writeCqeBody c m a _ _ _ _ h1 h2 h3]

/-- A body write changes no byte outside the first sixteen of its slot. -/
theorem read_writeCqeBody_outside (m : Memory) (a b : Addr) (h l ph pl : Word)
    (hw : a.toNat + 16 ≤ 2 ^ 64) (hb : b.toNat < a.toNat ∨ a.toNat + 16 ≤ b.toNat) :
    Memory.read (writeCqeBody m a h l ph pl) b = Memory.read m b :=
  Memory.read_writeBytes_outside _ _ _ _ (by simpa using hw) (by simpa using hb)

/-- A trailer write changes no byte outside its slot. -/
theorem read_writeCqeTrailer_outside (c : Cfg) (m : Memory) (a b : Addr) (t : DWord)
    (h2 : c.cqeTrailerOff + 8 ≤ c.cqeBytes) (h3 : a.toNat + c.cqeBytes ≤ 2 ^ 64)
    (hb : b.toNat < a.toNat ∨ a.toNat + c.cqeBytes ≤ b.toNat) :
    Memory.read (writeCqeTrailer c m a t) b = Memory.read m b := by
  have at' := addr_add_toNat a c.cqeTrailerOff (by omega)
  exact Memory.read_writeBytes_outside _ _ _ _ (by simp; omega) (by simp; omega)

/-- A record write changes no byte outside its slot. -/
theorem read_writeCqe_outside (c : Cfg) (m : Memory) (a b : Addr) (r : Cqe) (h1 : 16 ≤ c.cqeTrailerOff)
    (h2 : c.cqeTrailerOff + 8 ≤ c.cqeBytes) (h3 : a.toNat + c.cqeBytes ≤ 2 ^ 64)
    (hb : b.toNat < a.toNat ∨ a.toNat + c.cqeBytes ≤ b.toNat) :
    Memory.read (writeCqe c m a r) b = Memory.read m b := by
  rw [writeCqe, read_writeCqeTrailer_outside c _ a b _ h2 h3 hb]
  exact read_writeCqeBody_outside m a b _ _ _ _ (by omega) (by omega)

end Sys2Proof.Machine
end

