-- ==== Sys2Proof/Laws/State.lean ====
section
/-!
SUPPORT. One lemma per field of State and per update of it, true by rfl.
-/
namespace Sys2Proof.Machine

/-! ## emit -/

@[simp] theorem State.emit_cfg (e : Event) (s : State) : (s.emit e).cfg = s.cfg := rfl
@[simp] theorem State.emit_sq (e : Event) (s : State) : (s.emit e).sq = s.sq := rfl
@[simp] theorem State.emit_rq (e : Event) (s : State) : (s.emit e).rq = s.rq := rfl
@[simp] theorem State.emit_rqMsn (e : Event) (s : State) : (s.emit e).rqMsn = s.rqMsn := rfl
@[simp] theorem State.emit_wqSwError (e : Event) (s : State) : (s.emit e).wqSwError = s.wqSwError := rfl
@[simp] theorem State.emit_cqCidx (e : Event) (s : State) : (s.emit e).cqCidx = s.cqCidx := rfl
@[simp] theorem State.emit_cqGen (e : Event) (s : State) : (s.emit e).cqGen = s.cqGen := rfl
@[simp] theorem State.emit_cqCidxInc (e : Event) (s : State) : (s.emit e).cqCidxInc = s.cqCidxInc := rfl
@[simp] theorem State.emit_cqLastTs (e : Event) (s : State) : (s.emit e).cqLastTs = s.cqLastTs := rfl
@[simp] theorem State.emit_cqError (e : Event) (s : State) : (s.emit e).cqError = s.cqError := rfl
@[simp] theorem State.emit_swq (e : Event) (s : State) : (s.emit e).swq = s.swq := rfl
@[simp] theorem State.emit_mem (e : Event) (s : State) : (s.emit e).mem = s.mem := rfl
@[simp] theorem State.emit_fault (e : Event) (s : State) : (s.emit e).fault = s.fault := rfl
@[simp] theorem State.emit_history (e : Event) (s : State) : (s.emit e).history = s.history ++ [e] := rfl
@[simp] theorem State.emit_responses (e : Event) (s : State) : (s.emit e).responses = s.responses := rfl
@[simp] theorem State.emit_inputs (e : Event) (s : State) : (s.emit e).inputs = s.inputs := rfl

/-! ## answer -/

@[simp] theorem State.answer_cfg (r : Response) (s : State) : (s.answer r).cfg = s.cfg := rfl
@[simp] theorem State.answer_sq (r : Response) (s : State) : (s.answer r).sq = s.sq := rfl
@[simp] theorem State.answer_rq (r : Response) (s : State) : (s.answer r).rq = s.rq := rfl
@[simp] theorem State.answer_rqMsn (r : Response) (s : State) : (s.answer r).rqMsn = s.rqMsn := rfl
@[simp] theorem State.answer_wqSwError (r : Response) (s : State) : (s.answer r).wqSwError = s.wqSwError := rfl
@[simp] theorem State.answer_cqCidx (r : Response) (s : State) : (s.answer r).cqCidx = s.cqCidx := rfl
@[simp] theorem State.answer_cqGen (r : Response) (s : State) : (s.answer r).cqGen = s.cqGen := rfl
@[simp] theorem State.answer_cqCidxInc (r : Response) (s : State) : (s.answer r).cqCidxInc = s.cqCidxInc := rfl
@[simp] theorem State.answer_cqLastTs (r : Response) (s : State) : (s.answer r).cqLastTs = s.cqLastTs := rfl
@[simp] theorem State.answer_cqError (r : Response) (s : State) : (s.answer r).cqError = s.cqError := rfl
@[simp] theorem State.answer_swq (r : Response) (s : State) : (s.answer r).swq = s.swq := rfl
@[simp] theorem State.answer_mem (r : Response) (s : State) : (s.answer r).mem = s.mem := rfl
@[simp] theorem State.answer_fault (r : Response) (s : State) : (s.answer r).fault = s.fault := rfl
@[simp] theorem State.answer_history (r : Response) (s : State) : (s.answer r).history = s.history := rfl
@[simp] theorem State.answer_responses (r : Response) (s : State) : (s.answer r).responses = s.responses ++ [r] := rfl
@[simp] theorem State.answer_inputs (r : Response) (s : State) : (s.answer r).inputs = s.inputs := rfl

/-! ## latch -/

@[simp] theorem State.latch_cfg (l : Latch) (s : State) : (s.latch l).cfg = s.cfg := rfl
@[simp] theorem State.latch_sq (l : Latch) (s : State) : (s.latch l).sq = s.sq := rfl
@[simp] theorem State.latch_rq (l : Latch) (s : State) : (s.latch l).rq = s.rq := rfl
@[simp] theorem State.latch_rqMsn (l : Latch) (s : State) : (s.latch l).rqMsn = s.rqMsn := rfl
@[simp] theorem State.latch_wqSwError (l : Latch) (s : State) : (s.latch l).wqSwError = s.wqSwError := rfl
@[simp] theorem State.latch_cqCidx (l : Latch) (s : State) : (s.latch l).cqCidx = s.cqCidx := rfl
@[simp] theorem State.latch_cqGen (l : Latch) (s : State) : (s.latch l).cqGen = s.cqGen := rfl
@[simp] theorem State.latch_cqCidxInc (l : Latch) (s : State) : (s.latch l).cqCidxInc = s.cqCidxInc := rfl
@[simp] theorem State.latch_cqLastTs (l : Latch) (s : State) : (s.latch l).cqLastTs = s.cqLastTs := rfl
@[simp] theorem State.latch_cqError (l : Latch) (s : State) : (s.latch l).cqError = s.cqError := rfl
@[simp] theorem State.latch_swq (l : Latch) (s : State) : (s.latch l).swq = s.swq := rfl
@[simp] theorem State.latch_mem (l : Latch) (s : State) : (s.latch l).mem = s.mem := rfl
@[simp] theorem State.latch_fault (l : Latch) (s : State) : (s.latch l).fault = some l := rfl
@[simp] theorem State.latch_history (l : Latch) (s : State) : (s.latch l).history = s.history := rfl
@[simp] theorem State.latch_responses (l : Latch) (s : State) : (s.latch l).responses = s.responses := rfl
@[simp] theorem State.latch_inputs (l : Latch) (s : State) : (s.latch l).inputs = s.inputs := rfl

/-! ## writeByte -/

@[simp] theorem State.writeByte_cfg (a : Addr) (v : Byte) (s : State) : (s.writeByte a v).cfg = s.cfg := rfl
@[simp] theorem State.writeByte_sq (a : Addr) (v : Byte) (s : State) : (s.writeByte a v).sq = s.sq := rfl
@[simp] theorem State.writeByte_rq (a : Addr) (v : Byte) (s : State) : (s.writeByte a v).rq = s.rq := rfl
@[simp] theorem State.writeByte_rqMsn (a : Addr) (v : Byte) (s : State) : (s.writeByte a v).rqMsn = s.rqMsn := rfl
@[simp] theorem State.writeByte_wqSwError (a : Addr) (v : Byte) (s : State) : (s.writeByte a v).wqSwError = s.wqSwError := rfl
@[simp] theorem State.writeByte_cqCidx (a : Addr) (v : Byte) (s : State) : (s.writeByte a v).cqCidx = s.cqCidx := rfl
@[simp] theorem State.writeByte_cqGen (a : Addr) (v : Byte) (s : State) : (s.writeByte a v).cqGen = s.cqGen := rfl
@[simp] theorem State.writeByte_cqCidxInc (a : Addr) (v : Byte) (s : State) : (s.writeByte a v).cqCidxInc = s.cqCidxInc := rfl
@[simp] theorem State.writeByte_cqLastTs (a : Addr) (v : Byte) (s : State) : (s.writeByte a v).cqLastTs = s.cqLastTs := rfl
@[simp] theorem State.writeByte_cqError (a : Addr) (v : Byte) (s : State) : (s.writeByte a v).cqError = s.cqError := rfl
@[simp] theorem State.writeByte_swq (a : Addr) (v : Byte) (s : State) : (s.writeByte a v).swq = s.swq := rfl
@[simp] theorem State.writeByte_mem (a : Addr) (v : Byte) (s : State) : (s.writeByte a v).mem = Memory.write s.mem a v := rfl
@[simp] theorem State.writeByte_fault (a : Addr) (v : Byte) (s : State) : (s.writeByte a v).fault = s.fault := rfl
@[simp] theorem State.writeByte_history (a : Addr) (v : Byte) (s : State) : (s.writeByte a v).history = s.history := rfl
@[simp] theorem State.writeByte_responses (a : Addr) (v : Byte) (s : State) : (s.writeByte a v).responses = s.responses := rfl
@[simp] theorem State.writeByte_inputs (a : Addr) (v : Byte) (s : State) : (s.writeByte a v).inputs = s.inputs := rfl

/-! ## adapterEvent -/

@[simp] theorem State.adapterEvent_cfg (e : AdapterEvent) (s : State) : (s.adapterEvent e).cfg = s.cfg := rfl
@[simp] theorem State.adapterEvent_sq (e : AdapterEvent) (s : State) : (s.adapterEvent e).sq = s.sq := rfl
@[simp] theorem State.adapterEvent_rq (e : AdapterEvent) (s : State) : (s.adapterEvent e).rq = s.rq := rfl
@[simp] theorem State.adapterEvent_rqMsn (e : AdapterEvent) (s : State) : (s.adapterEvent e).rqMsn = s.rqMsn := rfl
@[simp] theorem State.adapterEvent_wqSwError (e : AdapterEvent) (s : State) : (s.adapterEvent e).wqSwError = s.wqSwError := rfl
@[simp] theorem State.adapterEvent_cqCidx (e : AdapterEvent) (s : State) : (s.adapterEvent e).cqCidx = s.cqCidx := rfl
@[simp] theorem State.adapterEvent_cqGen (e : AdapterEvent) (s : State) : (s.adapterEvent e).cqGen = s.cqGen := rfl
@[simp] theorem State.adapterEvent_cqCidxInc (e : AdapterEvent) (s : State) : (s.adapterEvent e).cqCidxInc = s.cqCidxInc := rfl
@[simp] theorem State.adapterEvent_cqLastTs (e : AdapterEvent) (s : State) : (s.adapterEvent e).cqLastTs = s.cqLastTs := rfl
@[simp] theorem State.adapterEvent_cqError (e : AdapterEvent) (s : State) : (s.adapterEvent e).cqError = s.cqError := rfl
@[simp] theorem State.adapterEvent_swq (e : AdapterEvent) (s : State) : (s.adapterEvent e).swq = s.swq := rfl
@[simp] theorem State.adapterEvent_mem (e : AdapterEvent) (s : State) : (s.adapterEvent e).mem = adapterWrites s.cfg s.mem e := rfl
@[simp] theorem State.adapterEvent_fault (e : AdapterEvent) (s : State) : (s.adapterEvent e).fault = s.fault := rfl
@[simp] theorem State.adapterEvent_history (e : AdapterEvent) (s : State) : (s.adapterEvent e).history = s.history := rfl
@[simp] theorem State.adapterEvent_responses (e : AdapterEvent) (s : State) : (s.adapterEvent e).responses = s.responses := rfl
@[simp] theorem State.adapterEvent_inputs (e : AdapterEvent) (s : State) : (s.adapterEvent e).inputs = s.inputs := rfl

/-! ## later -/

@[simp] theorem State.later_cfg (rest : List Input) (s : State) : (s.later rest).cfg = s.cfg := rfl
@[simp] theorem State.later_sq (rest : List Input) (s : State) : (s.later rest).sq = s.sq := rfl
@[simp] theorem State.later_rq (rest : List Input) (s : State) : (s.later rest).rq = s.rq := rfl
@[simp] theorem State.later_rqMsn (rest : List Input) (s : State) : (s.later rest).rqMsn = s.rqMsn := rfl
@[simp] theorem State.later_wqSwError (rest : List Input) (s : State) : (s.later rest).wqSwError = s.wqSwError := rfl
@[simp] theorem State.later_cqCidx (rest : List Input) (s : State) : (s.later rest).cqCidx = s.cqCidx := rfl
@[simp] theorem State.later_cqGen (rest : List Input) (s : State) : (s.later rest).cqGen = s.cqGen := rfl
@[simp] theorem State.later_cqCidxInc (rest : List Input) (s : State) : (s.later rest).cqCidxInc = s.cqCidxInc := rfl
@[simp] theorem State.later_cqLastTs (rest : List Input) (s : State) : (s.later rest).cqLastTs = s.cqLastTs := rfl
@[simp] theorem State.later_cqError (rest : List Input) (s : State) : (s.later rest).cqError = s.cqError := rfl
@[simp] theorem State.later_swq (rest : List Input) (s : State) : (s.later rest).swq = s.swq := rfl
@[simp] theorem State.later_mem (rest : List Input) (s : State) : (s.later rest).mem = s.mem := rfl
@[simp] theorem State.later_fault (rest : List Input) (s : State) : (s.later rest).fault = s.fault := rfl
@[simp] theorem State.later_history (rest : List Input) (s : State) : (s.later rest).history = s.history := rfl
@[simp] theorem State.later_responses (rest : List Input) (s : State) : (s.later rest).responses = s.responses := rfl
@[simp] theorem State.later_inputs (rest : List Input) (s : State) : (s.later rest).inputs = rest := rfl

/-! ## Reset -/

@[simp] theorem State.resetWith_cfg (c : Cfg) (m : Memory) (ins : List Input) :
    (State.resetWith c m ins).cfg = c := rfl
@[simp] theorem State.resetWith_sq (c : Cfg) (m : Memory) (ins : List Input) :
    (State.resetWith c m ins).sq = ⟨0, 0, 0⟩ := rfl
@[simp] theorem State.resetWith_rq (c : Cfg) (m : Memory) (ins : List Input) :
    (State.resetWith c m ins).rq = ⟨0, 0, 0⟩ := rfl
@[simp] theorem State.resetWith_rqMsn (c : Cfg) (m : Memory) (ins : List Input) :
    (State.resetWith c m ins).rqMsn = BitVec.ofNat 32 c.msnInit := rfl
@[simp] theorem State.resetWith_wqSwError (c : Cfg) (m : Memory) (ins : List Input) :
    (State.resetWith c m ins).wqSwError = 0 := rfl
@[simp] theorem State.resetWith_cqCidx (c : Cfg) (m : Memory) (ins : List Input) :
    (State.resetWith c m ins).cqCidx = 0 := rfl
@[simp] theorem State.resetWith_cqGen (c : Cfg) (m : Memory) (ins : List Input) :
    (State.resetWith c m ins).cqGen = BitVec.ofNat 1 c.genInit := rfl
@[simp] theorem State.resetWith_cqCidxInc (c : Cfg) (m : Memory) (ins : List Input) :
    (State.resetWith c m ins).cqCidxInc = 0 := rfl
@[simp] theorem State.resetWith_cqLastTs (c : Cfg) (m : Memory) (ins : List Input) :
    (State.resetWith c m ins).cqLastTs = 0 := rfl
@[simp] theorem State.resetWith_cqError (c : Cfg) (m : Memory) (ins : List Input) :
    (State.resetWith c m ins).cqError = 0 := rfl
@[simp] theorem State.resetWith_swq (c : Cfg) (m : Memory) (ins : List Input) :
    (State.resetWith c m ins).swq = ⟨0, 0, 0⟩ := rfl
@[simp] theorem State.resetWith_mem (c : Cfg) (m : Memory) (ins : List Input) :
    (State.resetWith c m ins).mem = m := rfl
@[simp] theorem State.resetWith_fault (c : Cfg) (m : Memory) (ins : List Input) :
    (State.resetWith c m ins).fault = if c.wf then none else some ⟨.badConfig, none, none⟩ := rfl
@[simp] theorem State.resetWith_history (c : Cfg) (m : Memory) (ins : List Input) :
    (State.resetWith c m ins).history = [] := rfl
@[simp] theorem State.resetWith_responses (c : Cfg) (m : Memory) (ins : List Input) :
    (State.resetWith c m ins).responses = [] := rfl
@[simp] theorem State.resetWith_inputs (c : Cfg) (m : Memory) (ins : List Input) :
    (State.resetWith c m ins).inputs = ins := rfl

theorem State.ext_inputs (s : State) {ins : List Input} (h : s.inputs = ins) : s.later ins = s := by
  subst h; rfl

end Sys2Proof.Machine
end

