-- ==== Sys2Proof/Laws/Window.lean ====
section
/-!
SUPPORT. The Adapter's window of R54: it changes memory and the events still to happen, nothing else.
-/
namespace Sys2Proof.Machine

@[simp] theorem State.runInside_cfg (s : State) (ins : List Input) : (s.runInside ins).cfg = s.cfg := by
  induction ins generalizing s with
  | nil => rfl
  | cons e rest ih =>
    cases e <;> simp only [State.runInside] <;> (try split) <;> simp [ih]

@[simp] theorem State.window_cfg (s : State) : s.window.cfg = s.cfg := s.runInside_cfg _

@[simp] theorem State.runInside_sq (s : State) (ins : List Input) : (s.runInside ins).sq = s.sq := by
  induction ins generalizing s with
  | nil => rfl
  | cons e rest ih =>
    cases e <;> simp only [State.runInside] <;> (try split) <;> simp [ih]

@[simp] theorem State.window_sq (s : State) : s.window.sq = s.sq := s.runInside_sq _

@[simp] theorem State.runInside_rq (s : State) (ins : List Input) : (s.runInside ins).rq = s.rq := by
  induction ins generalizing s with
  | nil => rfl
  | cons e rest ih =>
    cases e <;> simp only [State.runInside] <;> (try split) <;> simp [ih]

@[simp] theorem State.window_rq (s : State) : s.window.rq = s.rq := s.runInside_rq _

@[simp] theorem State.runInside_rqMsn (s : State) (ins : List Input) : (s.runInside ins).rqMsn = s.rqMsn := by
  induction ins generalizing s with
  | nil => rfl
  | cons e rest ih =>
    cases e <;> simp only [State.runInside] <;> (try split) <;> simp [ih]

@[simp] theorem State.window_rqMsn (s : State) : s.window.rqMsn = s.rqMsn := s.runInside_rqMsn _

@[simp] theorem State.runInside_wqSwError (s : State) (ins : List Input) : (s.runInside ins).wqSwError = s.wqSwError := by
  induction ins generalizing s with
  | nil => rfl
  | cons e rest ih =>
    cases e <;> simp only [State.runInside] <;> (try split) <;> simp [ih]

@[simp] theorem State.window_wqSwError (s : State) : s.window.wqSwError = s.wqSwError := s.runInside_wqSwError _

@[simp] theorem State.runInside_cqCidx (s : State) (ins : List Input) : (s.runInside ins).cqCidx = s.cqCidx := by
  induction ins generalizing s with
  | nil => rfl
  | cons e rest ih =>
    cases e <;> simp only [State.runInside] <;> (try split) <;> simp [ih]

@[simp] theorem State.window_cqCidx (s : State) : s.window.cqCidx = s.cqCidx := s.runInside_cqCidx _

@[simp] theorem State.runInside_cqGen (s : State) (ins : List Input) : (s.runInside ins).cqGen = s.cqGen := by
  induction ins generalizing s with
  | nil => rfl
  | cons e rest ih =>
    cases e <;> simp only [State.runInside] <;> (try split) <;> simp [ih]

@[simp] theorem State.window_cqGen (s : State) : s.window.cqGen = s.cqGen := s.runInside_cqGen _

@[simp] theorem State.runInside_cqCidxInc (s : State) (ins : List Input) : (s.runInside ins).cqCidxInc = s.cqCidxInc := by
  induction ins generalizing s with
  | nil => rfl
  | cons e rest ih =>
    cases e <;> simp only [State.runInside] <;> (try split) <;> simp [ih]

@[simp] theorem State.window_cqCidxInc (s : State) : s.window.cqCidxInc = s.cqCidxInc := s.runInside_cqCidxInc _

@[simp] theorem State.runInside_cqLastTs (s : State) (ins : List Input) : (s.runInside ins).cqLastTs = s.cqLastTs := by
  induction ins generalizing s with
  | nil => rfl
  | cons e rest ih =>
    cases e <;> simp only [State.runInside] <;> (try split) <;> simp [ih]

@[simp] theorem State.window_cqLastTs (s : State) : s.window.cqLastTs = s.cqLastTs := s.runInside_cqLastTs _

@[simp] theorem State.runInside_cqError (s : State) (ins : List Input) : (s.runInside ins).cqError = s.cqError := by
  induction ins generalizing s with
  | nil => rfl
  | cons e rest ih =>
    cases e <;> simp only [State.runInside] <;> (try split) <;> simp [ih]

@[simp] theorem State.window_cqError (s : State) : s.window.cqError = s.cqError := s.runInside_cqError _

@[simp] theorem State.runInside_swq (s : State) (ins : List Input) : (s.runInside ins).swq = s.swq := by
  induction ins generalizing s with
  | nil => rfl
  | cons e rest ih =>
    cases e <;> simp only [State.runInside] <;> (try split) <;> simp [ih]

@[simp] theorem State.window_swq (s : State) : s.window.swq = s.swq := s.runInside_swq _

@[simp] theorem State.runInside_fault (s : State) (ins : List Input) : (s.runInside ins).fault = s.fault := by
  induction ins generalizing s with
  | nil => rfl
  | cons e rest ih =>
    cases e <;> simp only [State.runInside] <;> (try split) <;> simp [ih]

@[simp] theorem State.window_fault (s : State) : s.window.fault = s.fault := s.runInside_fault _

@[simp] theorem State.runInside_history (s : State) (ins : List Input) : (s.runInside ins).history = s.history := by
  induction ins generalizing s with
  | nil => rfl
  | cons e rest ih =>
    cases e <;> simp only [State.runInside] <;> (try split) <;> simp [ih]

@[simp] theorem State.window_history (s : State) : s.window.history = s.history := s.runInside_history _

@[simp] theorem State.runInside_responses (s : State) (ins : List Input) : (s.runInside ins).responses = s.responses := by
  induction ins generalizing s with
  | nil => rfl
  | cons e rest ih =>
    cases e <;> simp only [State.runInside] <;> (try split) <;> simp [ih]

@[simp] theorem State.window_responses (s : State) : s.window.responses = s.responses := s.runInside_responses _

/-- With no Adapter event inside the command, the window is empty. -/
theorem State.window_eq_self (s : State) (h : ∀ e rest, s.inputs ≠ .adapterInside e :: rest) :
    s.window = s := by
  unfold State.window
  cases hi : s.inputs with
  | nil => rw [State.runInside] <;> simp [State.ext_inputs s hi]
  | cons e rest =>
    cases e with
    | adapterInside e => exact absurd hi (h e rest)
    | command c => rw [State.runInside] <;> simp [State.ext_inputs s hi]
    | host c => rw [State.runInside] <;> simp [State.ext_inputs s hi]
    | adapter c => rw [State.runInside] <;> simp [State.ext_inputs s hi]

/-- The canonical form of memory holds after the window. -/
theorem State.window_wf (s : State) (h : Memory.wf s.mem) : Memory.wf s.window.mem := by
  suffices ∀ ins : List Input, Memory.wf (s.runInside ins).mem from this _
  intro ins
  induction ins generalizing s with
  | nil => exact h
  | cons e rest ih =>
    cases e <;> simp only [State.runInside] <;> try exact h
    split
    · exact ih _ (adapterWrites_wf _ _ _ h)
    · exact h

end Sys2Proof.Machine
end

