-- ==== Sys2Proof/Laws/Ops.lean ====
section
/-!
SUPPORT. What each shared operation can do, said once: the provers cite these instead of unfolding.
-/
namespace Sys2Proof.Machine

theorem accepted_of_clear (s : State) (b : Result) (h : s.fault = none) : accepted s b = b := by
  simp [accepted, h]

theorem accepted_of_latched (s : State) (b : Result) (h : s.fault ≠ none) : accepted s b = .next s := by
  simp [accepted, Option.isSome_iff_ne_none, h]

/-- A command either is not accepted, and nothing changes, or answers what its body answers. -/
theorem accepted_cases (s t : State) (b : Result) (h : accepted s b = .next t) :
    (s.fault ≠ none ∧ t = s) ∨ (s.fault = none ∧ b = .next t) := by
  by_cases hf : s.fault = none
  · exact .inr ⟨hf, by rwa [accepted_of_clear s b hf] at h⟩
  · rw [accepted_of_latched s b hf, Host.Outcome.next.injEq] at h
    exact .inl ⟨hf, h.symm⟩

theorem respond_eq (rc : ResultCode) (val : DWord) (record : Option Cqe) (src : Source) (s : State) :
    respond rc val record src s = .next (s.answer ⟨rc, val, record, src⟩) := rfl

theorem respondOk_eq (val : DWord) (s : State) :
    respondOk val s = .next (s.answer ⟨.ok, val, none, .none⟩) := rfl

theorem raise_eq (reason : FaultReason) (cw : Word) (info : Option Word) (s : State) :
    raise reason cw info s = .next (s.latch ⟨reason, some cw, info⟩) := rfl

theorem produceOn_cases (reason : FaultReason) (i : Instr) (limit size : Nat) (r : Ring)
    (put : Ring → State) (s t : State) (h : produceOn reason i limit size r put s = .next t) :
    (r.inUse.toNat = limit ∧ t = s.latch ⟨reason, some (encode i).cw, some (r.inUse.setWidth 32)⟩) ∨
    (r.inUse.toNat ≠ limit ∧ t = (put (Ring.produce size r)).answer ⟨.ok, 0, none, .none⟩) := by
  unfold produceOn at h
  split at h
  · exact .inl ⟨‹_›, by simpa [raise] using h.symm⟩
  · exact .inr ⟨‹_›, by simpa [respondOk, respond] using h.symm⟩

theorem consumeOn_cases (reason : FaultReason) (i : Instr) (size : Nat) (r : Ring)
    (put : Ring → State) (s t : State) (h : consumeOn reason i size r put s = .next t) :
    (r.inUse = 0 ∧ t = s.latch ⟨reason, some (encode i).cw, some 0⟩) ∨
    (r.inUse ≠ 0 ∧ t = (put (Ring.consume size r)).answer ⟨.ok, 0, none, .none⟩) := by
  unfold consumeOn Ring.empty at h
  split at h <;> rename_i hz
  · exact .inl ⟨by simpa using hz, by simpa [raise] using h.symm⟩
  · exact .inr ⟨by simpa using hz, by simpa [respondOk, respond] using h.symm⟩

theorem ringDoorbell_cases (i : Instr) (inc : Half) (stride : Nat) (qid : Word) (addr : Addr)
    (s t : State) (h : ringDoorbell i inc stride qid addr s = .next t) :
    (2 ^ s.cfg.pidxWidth ≤ scaledInc inc stride ∧
      t = s.latch ⟨.dbIncRange, some (encode i).cw, some (BitVec.ofNat 32 (scaledInc inc stride))⟩) ∨
    (scaledInc inc stride < 2 ^ s.cfg.pidxWidth ∧
      t = ((s.emit .fenceSs).emit (.mmioWrite32 addr (dbWord s.cfg qid (scaledInc inc stride)))).answer
        ⟨.ok, 0, none, .none⟩) := by
  unfold ringDoorbell at h
  simp only at h
  split at h <;> rename_i hr
  · exact .inl ⟨hr, by simpa [raise] using h.symm⟩
  · exact .inr ⟨by omega, by simpa [respondOk, respond] using h.symm⟩

theorem pollHw_cases (s t : State) (h : pollHw s = .next t) :
    (Cqe.gen (hwRecord s) = s.cqGen ∧
      t = ({ s with cqLastTs := Cqe.ts (hwRecord s) } : State).answer
        ⟨.ok, s.cqCidx.setWidth 64, some (hwRecord s), .hw⟩) ∨
    (Cqe.gen (hwRecord s) ≠ s.cqGen ∧ s.cqLastTs.toNat < (Cqe.ts (hwRecord s)).toNat ∧
      t = (({ s with cqError := 1 } : State).emit (.diag .overflow s.cfg.qidCq)).answer
        ⟨.overflow, 0, none, .none⟩) ∨
    (Cqe.gen (hwRecord s) ≠ s.cqGen ∧ (Cqe.ts (hwRecord s)).toNat ≤ s.cqLastTs.toNat ∧
      t = s.answer ⟨.nodata, 0, none, .none⟩) := by
  unfold pollHw isValid isBeyond at h
  simp only at h
  split at h <;> rename_i hg
  · exact .inl ⟨by simpa using hg, by simpa [respond] using h.symm⟩
  · split at h <;> rename_i ht
    · exact .inr (.inl ⟨by simpa using hg, by simpa using ht, by simpa [respond] using h.symm⟩)
    · exact .inr (.inr ⟨by simpa using hg, by simpa using ht, by simpa [respond] using h.symm⟩)

theorem pollSw_eq (s : State) :
    pollSw s = .next (s.answer ⟨.ok, s.swq.cidx.setWidth 64, some (swRecord s), .sw⟩) := rfl

/-- Every environment move that is a liberty succeeds, and the others stop the machine. -/
theorem adapterMove_cases (e : AdapterEvent) (s t : State) (h : adapterMove e s = .next t) :
    adapterMay s.cfg e = true ∧ t = s.adapterEvent e := by
  unfold adapterMove at h
  split at h
  · exact ⟨‹_›, by simpa using h.symm⟩
  · cases h

theorem hostMove_cases (e : HostEvent) (s t : State) (h : hostMove e s = .next t) :
    hostMay s.cfg e = true ∧ t = s.hostEvent e := by
  unfold hostMove at h
  split at h
  · exact ⟨‹_›, by simpa using h.symm⟩
  · cases h

theorem incMod_toNat (x : Half) (n : Nat) (hx : x.toNat < n) (hn : n ≤ 65535) :
    (incMod x n).toNat = (x.toNat + 1) % n := by
  unfold incMod
  split <;> rename_i h
  · rw [h]; simp
  · rw [Nat.mod_eq_of_lt (by omega)]
    simp; omega

end Sys2Proof.Machine
end

