-- ==== Sys2Proof/Laws/PerInstr.lean ====
section
/-!
SUPPORT. One lemma per command: the fields of the word it is encoded as (R58), and a record exactly where
R61 marks the command *rec*.
-/
namespace Sys2Proof.Laws.CommandFields

/-- The reserved bits are zero, and the encoding carries a record exactly for the operation codes marked *rec*. -/
def Statement (i : Instr) : Prop :=
  cwRsv (encode i).cw = 0 ∧ takesRecord (cwOp (encode i).cw) = (encode i).record.isSome

theorem fields (op : BitVec 8) (s : BitVec 1) (imm : Half) (r : Option Cqe)
    (h : takesRecord op = r.isSome) :
    cwRsv (commandWord op s imm) = 0 ∧ takesRecord (cwOp (commandWord op s imm)) = r.isSome :=
  ⟨cwRsv_commandWord op s imm, by rw [cwOp_commandWord, h]⟩

theorem sqProduce : Statement (.sqProduce) :=
  fields 0x01 0 0 none rfl
theorem sqConsume : Statement (.sqConsume) :=
  fields 0x02 0 0 none rfl
theorem sqEmpty : Statement (.sqEmpty) :=
  fields 0x03 0 0 none rfl
theorem sqFull : Statement (.sqFull) :=
  fields 0x04 0 0 none rfl
theorem sqAvail : Statement (.sqAvail) :=
  fields 0x05 0 0 none rfl
theorem ringSqDb (inc : Half) : Statement (.ringSqDb inc) :=
  fields 0x06 0 inc none rfl
theorem rqProduce : Statement (.rqProduce) :=
  fields 0x09 0 0 none rfl
theorem rqConsume : Statement (.rqConsume) :=
  fields 0x0A 0 0 none rfl
theorem rqEmpty : Statement (.rqEmpty) :=
  fields 0x0B 0 0 none rfl
theorem rqFull : Statement (.rqFull) :=
  fields 0x0C 0 0 none rfl
theorem rqAvail : Statement (.rqAvail) :=
  fields 0x0D 0 0 none rfl
theorem ringRqDb (inc : Half) : Statement (.ringRqDb inc) :=
  fields 0x0E 0 inc none rfl
theorem rqesPosted : Statement (.rqesPosted) :=
  fields 0x0F 0 0 none rfl
theorem wqInError : Statement (.wqInError) :=
  fields 0x10 0 0 none rfl
theorem wqSetError : Statement (.wqSetError) :=
  fields 0x11 0 0 none rfl
theorem wqDisableDb : Statement (.wqDisableDb) :=
  fields 0x12 0 0 none rfl
theorem wqEnableDb : Statement (.wqEnableDb) :=
  fields 0x13 0 0 none rfl
theorem wqDbEnabled : Statement (.wqDbEnabled) :=
  fields 0x14 0 0 none rfl
theorem cqHwConsume : Statement (.cqHwConsume) :=
  fields 0x20 0 0 none rfl
theorem cqIsValid (record : Cqe) : Statement (.cqIsValid record) :=
  fields 0x21 0 0 (some record) rfl
theorem cqNextHw : Statement (.cqNextHw) :=
  fields 0x22 0 0 none rfl
theorem cqNextSw : Statement (.cqNextSw) :=
  fields 0x23 0 0 none rfl
theorem cqNext : Statement (.cqNext) :=
  fields 0x24 0 0 none rfl
theorem cqArm (se : BitVec 1) : Statement (.cqArm se) :=
  fields 0x25 se 0 none rfl
theorem cqSwProduce : Statement (.cqSwProduce) :=
  fields 0x26 0 0 none rfl
theorem cqSwConsume : Statement (.cqSwConsume) :=
  fields 0x27 0 0 none rfl
theorem cqInError : Statement (.cqInError) :=
  fields 0x28 0 0 none rfl
theorem cqSetError : Statement (.cqSetError) :=
  fields 0x29 0 0 none rfl
theorem cqClearError : Statement (.cqClearError) :=
  fields 0x2A 0 0 none rfl
theorem cqeQpid (record : Cqe) : Statement (.cqeQpid record) :=
  fields 0x30 0 0 (some record) rfl
theorem cqeSwcqe (record : Cqe) : Statement (.cqeSwcqe record) :=
  fields 0x31 0 0 (some record) rfl
theorem cqeStatus (record : Cqe) : Statement (.cqeStatus record) :=
  fields 0x32 0 0 (some record) rfl
theorem cqeType (record : Cqe) : Statement (.cqeType record) :=
  fields 0x33 0 0 (some record) rfl
theorem cqeOpcode (record : Cqe) : Statement (.cqeOpcode record) :=
  fields 0x34 0 0 (some record) rfl
theorem cqeSendOpcode (record : Cqe) : Statement (.cqeSendOpcode record) :=
  fields 0x35 0 0 (some record) rfl
theorem cqeLen (record : Cqe) : Statement (.cqeLen record) :=
  fields 0x36 0 0 (some record) rfl
theorem cqeWridStag (record : Cqe) : Statement (.cqeWridStag record) :=
  fields 0x37 0 0 (some record) rfl
theorem cqeWridMsn (record : Cqe) : Statement (.cqeWridMsn record) :=
  fields 0x38 0 0 (some record) rfl
theorem cqeWridSqIdx (record : Cqe) : Statement (.cqeWridSqIdx record) :=
  fields 0x39 0 0 (some record) rfl
theorem cqeWridHi (record : Cqe) : Statement (.cqeWridHi record) :=
  fields 0x3A 0 0 (some record) rfl
theorem cqeWridLow (record : Cqe) : Statement (.cqeWridLow record) :=
  fields 0x3B 0 0 (some record) rfl
theorem cqeGenbit (record : Cqe) : Statement (.cqeGenbit record) :=
  fields 0x3C 0 0 (some record) rfl
theorem cqeOvfbit (record : Cqe) : Statement (.cqeOvfbit record) :=
  fields 0x3D 0 0 (some record) rfl
theorem cqeIqtype (record : Cqe) : Statement (.cqeIqtype record) :=
  fields 0x3E 0 0 (some record) rfl
theorem cqeTs (record : Cqe) : Statement (.cqeTs record) :=
  fields 0x3F 0 0 (some record) rfl
theorem rdState (r : Half) : Statement (.rdState r) :=
  fields 0x40 0 r none rfl

end Sys2Proof.Laws.CommandFields
end

