-- ==== Sys2Proof/Laws/Step.lean ====
section
/-!
SUPPORT. What a command can do and what a step can do, said once: later proofs take a command or a step
apart with `exec_cases` and `step_cases` and never unfold a meaning.
-/
namespace Sys2Proof.Machine

/-! ## The two writes of a sentinel command, and one hardware consume -/

@[simp] theorem writeBoth_cfg (a b : Addr) (v : Byte) (s : State) :
    (writeBoth a b v s).cfg = s.cfg := by simp [writeBoth]
@[simp] theorem writeBoth_sq (a b : Addr) (v : Byte) (s : State) :
    (writeBoth a b v s).sq = s.sq := by simp [writeBoth]
@[simp] theorem writeBoth_rq (a b : Addr) (v : Byte) (s : State) :
    (writeBoth a b v s).rq = s.rq := by simp [writeBoth]
@[simp] theorem writeBoth_rqMsn (a b : Addr) (v : Byte) (s : State) :
    (writeBoth a b v s).rqMsn = s.rqMsn := by simp [writeBoth]
@[simp] theorem writeBoth_wqSwError (a b : Addr) (v : Byte) (s : State) :
    (writeBoth a b v s).wqSwError = s.wqSwError := by simp [writeBoth]
@[simp] theorem writeBoth_cqCidx (a b : Addr) (v : Byte) (s : State) :
    (writeBoth a b v s).cqCidx = s.cqCidx := by simp [writeBoth]
@[simp] theorem writeBoth_cqGen (a b : Addr) (v : Byte) (s : State) :
    (writeBoth a b v s).cqGen = s.cqGen := by simp [writeBoth]
@[simp] theorem writeBoth_cqCidxInc (a b : Addr) (v : Byte) (s : State) :
    (writeBoth a b v s).cqCidxInc = s.cqCidxInc := by simp [writeBoth]
@[simp] theorem writeBoth_cqLastTs (a b : Addr) (v : Byte) (s : State) :
    (writeBoth a b v s).cqLastTs = s.cqLastTs := by simp [writeBoth]
@[simp] theorem writeBoth_cqError (a b : Addr) (v : Byte) (s : State) :
    (writeBoth a b v s).cqError = s.cqError := by simp [writeBoth]
@[simp] theorem writeBoth_swq (a b : Addr) (v : Byte) (s : State) :
    (writeBoth a b v s).swq = s.swq := by simp [writeBoth]
@[simp] theorem writeBoth_fault (a b : Addr) (v : Byte) (s : State) :
    (writeBoth a b v s).fault = s.fault := by simp [writeBoth]
@[simp] theorem writeBoth_history (a b : Addr) (v : Byte) (s : State) :
    (writeBoth a b v s).history = s.history := by simp [writeBoth]
@[simp] theorem writeBoth_responses (a b : Addr) (v : Byte) (s : State) :
    (writeBoth a b v s).responses = s.responses := by simp [writeBoth]

theorem writeBoth_wf (a b : Addr) (v : Byte) (s : State) (h : Memory.wf s.mem) :
    Memory.wf (writeBoth a b v s).mem :=
  Memory.write_wf _ _ _ (State.window_wf _ (Memory.write_wf _ _ _ h))

@[simp] theorem hwAdvance_cfg (s : State) : (hwAdvance s).cfg = s.cfg := by
  unfold hwAdvance; split <;> rfl
@[simp] theorem hwAdvance_sq (s : State) : (hwAdvance s).sq = s.sq := by
  unfold hwAdvance; split <;> rfl
@[simp] theorem hwAdvance_rq (s : State) : (hwAdvance s).rq = s.rq := by
  unfold hwAdvance; split <;> rfl
@[simp] theorem hwAdvance_rqMsn (s : State) : (hwAdvance s).rqMsn = s.rqMsn := by
  unfold hwAdvance; split <;> rfl
@[simp] theorem hwAdvance_wqSwError (s : State) : (hwAdvance s).wqSwError = s.wqSwError := by
  unfold hwAdvance; split <;> rfl
@[simp] theorem hwAdvance_cqCidxInc (s : State) : (hwAdvance s).cqCidxInc = s.cqCidxInc := by
  unfold hwAdvance; split <;> rfl
@[simp] theorem hwAdvance_cqLastTs (s : State) : (hwAdvance s).cqLastTs = s.cqLastTs := by
  unfold hwAdvance; split <;> rfl
@[simp] theorem hwAdvance_cqError (s : State) : (hwAdvance s).cqError = s.cqError := by
  unfold hwAdvance; split <;> rfl
@[simp] theorem hwAdvance_swq (s : State) : (hwAdvance s).swq = s.swq := by
  unfold hwAdvance; split <;> rfl
@[simp] theorem hwAdvance_fault (s : State) : (hwAdvance s).fault = s.fault := by
  unfold hwAdvance; split <;> rfl
@[simp] theorem hwAdvance_history (s : State) : (hwAdvance s).history = s.history := by
  unfold hwAdvance; split <;> rfl
@[simp] theorem hwAdvance_responses (s : State) : (hwAdvance s).responses = s.responses := by
  unfold hwAdvance; split <;> rfl
@[simp] theorem hwAdvance_mem (s : State) : (hwAdvance s).mem = s.mem := by
  unfold hwAdvance; split <;> rfl
@[simp] theorem hwAdvance_inputs (s : State) : (hwAdvance s).inputs = s.inputs := by
  unfold hwAdvance; split <;> rfl

theorem hwAdvance_cqCidx (s : State) : (hwAdvance s).cqCidx = incMod s.cqCidx s.cfg.nCq := by
  unfold hwAdvance incMod; split <;> rfl

theorem hwAdvance_cqGen (s : State) :
    (hwAdvance s).cqGen = if s.cqCidx.toNat + 1 = s.cfg.nCq then s.cqGen ^^^ 1 else s.cqGen := by
  unfold hwAdvance; split <;> rfl

/-! ## Commands and steps -/

/-- What each command that does not fault does to the state before its response is added. -/
def Effect (i : Instr) (s s' : State) : Prop :=
  match i with
  | .sqProduce => s.sq.inUse.toNat ≠ s.cfg.nSq - 1 ∧ s' = { s with sq := Ring.produce s.cfg.nSq s.sq }
  | .sqConsume => s.sq.inUse ≠ 0 ∧ s' = { s with sq := Ring.consume s.cfg.nSq s.sq }
  | .rqProduce => s.rq.inUse.toNat ≠ s.cfg.nRq - 1 ∧ s' = { s with rq := Ring.produce s.cfg.nRq s.rq }
  | .rqConsume =>
    s.rq.inUse ≠ 0 ∧ s' = { s with rq := Ring.consume s.cfg.nRq s.rq, rqMsn := s.rqMsn + 1 }
  | .cqSwProduce => s.swq.inUse.toNat ≠ s.cfg.nCq ∧ s' = { s with swq := Ring.produce s.cfg.nCq s.swq }
  | .cqSwConsume => s.swq.inUse ≠ 0 ∧ s' = { s with swq := Ring.consume s.cfg.nCq s.swq }
  | .ringSqDb _ => ∃ v, s' = (s.emit .fenceSs).emit (.mmioWrite32 s.cfg.sqDb v)
  | .ringRqDb _ => ∃ v, s' = (s.emit .fenceSs).emit (.mmioWrite32 s.cfg.rqDb v)
  | .cqArm _ => ∃ v, s' = { s.emit (.mmioWrite32 s.cfg.cqArm v) with cqCidxInc := 0 }
  | .cqHwConsume => s' = hwAdvance { s with cqCidxInc := s.cqCidxInc + 1 }
  | .wqSetError => s' = writeBoth s.cfg.sqErr s.cfg.rqErr setByte s
  | .wqDisableDb => s' = writeBoth s.cfg.sqDboff s.cfg.rqDboff setByte s
  | .wqEnableDb => s' = writeBoth s.cfg.sqDboff s.cfg.rqDboff clearByte s
  | .cqSetError => s' = s.writeByte s.cfg.cqErr setByte
  | .cqClearError => s' = s.writeByte s.cfg.cqErr clearByte
  | .cqNextHw | .cqNext =>
    s' = s ∨ (∃ ts, s' = { s with cqLastTs := ts }) ∨
      s' = ({ s with cqError := 1 } : State).emit (.diag .overflow s.cfg.qidCq)
  | .sqEmpty | .sqFull | .sqAvail | .rqEmpty | .rqFull | .rqAvail | .rqesPosted | .wqInError
  | .wqDbEnabled | .cqIsValid _ | .cqNextSw | .cqInError
  | .cqeQpid _ | .cqeSwcqe _ | .cqeStatus _ | .cqeType _ | .cqeOpcode _ | .cqeSendOpcode _ | .cqeLen _
  | .cqeWridStag _ | .cqeWridMsn _ | .cqeWridSqIdx _ | .cqeWridHi _ | .cqeWridLow _
  | .cqeGenbit _ | .cqeOvfbit _ | .cqeIqtype _ | .cqeTs _ | .rdState _ => s' = s

/-- A command that is accepted either sets the latch, and nothing else, or has its effect and answers. -/
theorem exec_cases (i : Instr) (s t : State) (hf : s.fault = none) (h : exec i s = .next t) :
    (∃ reason info, t = s.latch ⟨reason, some (encode i).cw, info⟩) ∨ (∃ r s', t = s'.answer r ∧ Effect i s s') := by
  cases i
  all_goals simp only [exec] at h
  case sqProduce =>
    rcases accepted_cases _ _ _ h with ⟨h1, -⟩ | ⟨-, h1⟩; · exact absurd hf h1
    rcases produceOn_cases _ _ _ _ _ _ _ _ h1 with ⟨a, b⟩ | ⟨a, b⟩
    · exact .inl ⟨_, _, b⟩
    · exact .inr ⟨_, _, b, a, rfl⟩
  case rqProduce =>
    rcases accepted_cases _ _ _ h with ⟨h1, -⟩ | ⟨-, h1⟩; · exact absurd hf h1
    rcases produceOn_cases _ _ _ _ _ _ _ _ h1 with ⟨a, b⟩ | ⟨a, b⟩
    · exact .inl ⟨_, _, b⟩
    · exact .inr ⟨_, _, b, a, rfl⟩
  case cqSwProduce =>
    rcases accepted_cases _ _ _ h with ⟨h1, -⟩ | ⟨-, h1⟩; · exact absurd hf h1
    rcases produceOn_cases _ _ _ _ _ _ _ _ h1 with ⟨a, b⟩ | ⟨a, b⟩
    · exact .inl ⟨_, _, b⟩
    · exact .inr ⟨_, _, b, a, rfl⟩
  case sqConsume =>
    rcases accepted_cases _ _ _ h with ⟨h1, -⟩ | ⟨-, h1⟩; · exact absurd hf h1
    rcases consumeOn_cases _ _ _ _ _ _ _ h1 with ⟨a, b⟩ | ⟨a, b⟩
    · exact .inl ⟨_, _, b⟩
    · exact .inr ⟨_, _, b, a, rfl⟩
  case rqConsume =>
    rcases accepted_cases _ _ _ h with ⟨h1, -⟩ | ⟨-, h1⟩; · exact absurd hf h1
    rcases consumeOn_cases _ _ _ _ _ _ _ h1 with ⟨a, b⟩ | ⟨a, b⟩
    · exact .inl ⟨_, _, b⟩
    · exact .inr ⟨_, _, b, a, rfl⟩
  case cqSwConsume =>
    rcases accepted_cases _ _ _ h with ⟨h1, -⟩ | ⟨-, h1⟩; · exact absurd hf h1
    rcases consumeOn_cases _ _ _ _ _ _ _ h1 with ⟨a, b⟩ | ⟨a, b⟩
    · exact .inl ⟨_, _, b⟩
    · exact .inr ⟨_, _, b, a, rfl⟩
  case ringSqDb =>
    rcases accepted_cases _ _ _ h with ⟨h1, -⟩ | ⟨-, h1⟩; · exact absurd hf h1
    rcases ringDoorbell_cases _ _ _ _ _ _ _ h1 with ⟨a, b⟩ | ⟨a, b⟩
    · exact .inl ⟨_, _, b⟩
    · exact .inr ⟨_, _, b, _, rfl⟩
  case ringRqDb =>
    rcases accepted_cases _ _ _ h with ⟨h1, -⟩ | ⟨-, h1⟩; · exact absurd hf h1
    rcases ringDoorbell_cases _ _ _ _ _ _ _ h1 with ⟨a, b⟩ | ⟨a, b⟩
    · exact .inl ⟨_, _, b⟩
    · exact .inr ⟨_, _, b, _, rfl⟩
  case cqArm =>
    rcases accepted_cases _ _ _ h with ⟨h1, -⟩ | ⟨-, h1⟩; · exact absurd hf h1
    split at h1 <;> cases h1
    · exact .inl ⟨_, _, rfl⟩
    · exact .inr ⟨_, _, rfl, _, rfl⟩
  case cqHwConsume =>
    rcases accepted_cases _ _ _ h with ⟨h1, -⟩ | ⟨-, h1⟩; · exact absurd hf h1
    split at h1 <;> cases h1
    · exact .inl ⟨_, _, rfl⟩
    · exact .inr ⟨_, _, rfl, rfl⟩
  case cqNextHw =>
    rcases accepted_cases _ _ _ h with ⟨h1, -⟩ | ⟨-, h1⟩; · exact absurd hf h1
    rcases pollHw_cases _ _ h1 with ⟨a, b⟩ | ⟨a, a', b⟩ | ⟨a, a', b⟩
    · exact .inr ⟨_, _, b, .inr (.inl ⟨_, rfl⟩)⟩
    · exact .inr ⟨_, _, b, .inr (.inr rfl)⟩
    · exact .inr ⟨_, _, b, .inl rfl⟩
  case cqNext =>
    rcases accepted_cases _ _ _ h with ⟨h1, -⟩ | ⟨-, h1⟩; · exact absurd hf h1
    split at h1
    · cases h1; exact .inr ⟨_, _, rfl, .inl rfl⟩
    split at h1
    · cases h1; exact .inr ⟨_, _, rfl, .inl rfl⟩
    rcases pollHw_cases _ _ h1 with ⟨a, b⟩ | ⟨a, a', b⟩ | ⟨a, a', b⟩
    · exact .inr ⟨_, _, b, .inr (.inl ⟨_, rfl⟩)⟩
    · exact .inr ⟨_, _, b, .inr (.inr rfl)⟩
    · exact .inr ⟨_, _, b, .inl rfl⟩
  case cqNextSw =>
    rcases accepted_cases _ _ _ h with ⟨h1, -⟩ | ⟨-, h1⟩; · exact absurd hf h1
    split at h1 <;> cases h1 <;> exact .inr ⟨_, _, rfl, rfl⟩
  case rdState =>
    rcases accepted_cases _ _ _ h with ⟨h1, -⟩ | ⟨-, h1⟩; · exact absurd hf h1
    split at h1 <;> cases h1
    · exact .inr ⟨_, _, rfl, rfl⟩
    · exact .inl ⟨_, _, rfl⟩
  all_goals
    rcases accepted_cases _ _ _ h with ⟨h1, -⟩ | ⟨-, h1⟩
    · exact absurd hf h1
    · cases h1; exact .inr ⟨_, _, rfl, rfl⟩

/-- A command never stops the machine. -/
theorem exec_next (i : Instr) (s : State) : ∃ t, exec i s = .next t := by
  by_cases hf : s.fault = none
  · cases i <;> simp only [exec] <;> first | exact ⟨_, (accepted_of_clear _ _ hf).trans rfl⟩ | skip
    all_goals simp only [execSqProduce, execSqConsume, execRqProduce, execRqConsume, execCqSwProduce,
      execCqSwConsume, execRingSqDb, execRingRqDb, execCqHwConsume, execCqNextHw, execCqNextSw,
      execCqNext, execCqArm, execRdState, accepted_of_clear _ _ hf, produceOn, consumeOn, ringDoorbell,
      pollHw]
    all_goals repeat' split
    all_goals exact ⟨_, rfl⟩
  · exact ⟨s, by cases i <;> exact accepted_of_latched _ _ hf⟩

/-- A latched Block drops every command (log 4). -/
theorem exec_of_latched (i : Instr) (s : State) (h : s.fault ≠ none) : exec i s = .next s := by
  cases i <;> exact accepted_of_latched _ _ h

/-- What a step can do: wait, run the presented command, latch an illegal one, or perform one move of the
Host or the Adapter. -/
theorem step_cases (s t : State) (h : step s = .next t) :
    (s.inputs = [] ∧ t = s) ∨
    (∃ c rest, s.inputs = .command c :: rest ∧
      ((∃ i, decode c = .ok i ∧ exec i (s.later rest) = .next t) ∨
       (∃ e, decode c = .error e ∧
        accepted (s.later rest) (raise .illegalCmd c.cw none (s.later rest)) = .next t))) ∨
    (∃ e rest, s.inputs = .host e :: rest ∧ hostMay s.cfg e = true ∧
      t = (s.later rest).hostEvent e) ∨
    (∃ e rest, (s.inputs = .adapter e :: rest ∨ s.inputs = .adapterInside e :: rest) ∧
      adapterMay s.cfg e = true ∧ t = (s.later rest).adapterEvent e) := by
  unfold step at h
  split at h
  · exact .inl ⟨‹_›, by simpa using h.symm⟩
  · rename_i e rest hi
    cases e with
    | command c =>
      refine .inr (.inl ⟨c, rest, hi, ?_⟩)
      simp only [perform, present] at h
      split at h
      · exact .inl ⟨_, ‹_›, h⟩
      · exact .inr ⟨_, ‹_›, h⟩
    | host e =>
      obtain ⟨h1, h2⟩ := hostMove_cases e _ t h
      exact .inr (.inr (.inl ⟨e, rest, hi, h1, h2⟩))
    | adapter e =>
      obtain ⟨h1, h2⟩ := adapterMove_cases e _ t h
      exact .inr (.inr (.inr ⟨e, rest, .inl hi, h1, h2⟩))
    | adapterInside e =>
      obtain ⟨h1, h2⟩ := adapterMove_cases e _ t h
      exact .inr (.inr (.inr ⟨e, rest, .inr hi, h1, h2⟩))

end Sys2Proof.Machine
end

