-- ==== Sys2Proof/Laws/Runs.lean ====
section
/-!
SUPPORT. Sequences of commands: taken apart at a prefix, and on a latched Block.
-/
namespace Sys2Proof.Machine

/-- No command changes the configuration. -/
theorem exec_cfg (i : Instr) (s t : State) (h : exec i s = .next t) : t.cfg = s.cfg := by
  by_cases hf : s.fault = none
  · rcases exec_cases i s t hf h with ⟨r, inf, rfl⟩ | ⟨r, s', rfl, he⟩
    · rfl
    · clear h
      cases i <;> simp only [Effect] at he
      all_goals first
        | (rcases he with rfl | ⟨_, rfl⟩ | rfl <;> simp)
        | (obtain ⟨_, rfl⟩ := he; simp)
  · rw [exec_of_latched i s hf] at h; cases h; rfl

theorem execAll_cons (i : Instr) (is : List Instr) (s t : State) :
    execAll (i :: is) s = .next t ↔ ∃ u, exec i s = .next u ∧ execAll is u = .next t := by
  obtain ⟨u, hu⟩ := exec_next i s
  simp [execAll, hu]

theorem execAll_append (is js : List Instr) (s t : State) :
    execAll (is ++ js) s = .next t ↔ ∃ u, execAll is s = .next u ∧ execAll js u = .next t := by
  induction is generalizing s with
  | nil => simp [execAll]
  | cons i is ih =>
    simp only [List.cons_append, execAll_cons, ih]
    constructor
    · rintro ⟨u, h1, v, h2, h3⟩; exact ⟨v, ⟨u, h1, h2⟩, h3⟩
    · rintro ⟨v, ⟨u, h1, h2⟩, h3⟩; exact ⟨u, h1, v, h2, h3⟩

theorem execAll_of_latched (is : List Instr) (s : State) (h : s.fault ≠ none) :
    execAll is s = .next s := by
  induction is with
  | nil => rfl
  | cons i is ih => simp only [execAll, exec_of_latched i s h, ih]

/-- A run that ended without a fault had none anywhere on the way. -/
theorem fault_of_execAll (is : List Instr) (s t : State) (h : execAll is s = .next t)
    (ht : t.fault = none) : s.fault = none := by
  by_contra hs
  rw [execAll_of_latched is s hs] at h
  cases h
  exact hs ht

end Sys2Proof.Machine
end

