-- ==== Sys2Proof/Laws/Sentinels.lean ====
section
/-!
SUPPORT. Under a well-formed configuration the six sentinel bytes are pairwise different and lie in no entry
and no slot. With that, what the Adapter, the Host and the window of R54 do to one byte, said once.
-/
namespace Sys2Proof

/-- A byte of one region lies outside every region disjoint from it. -/
theorem Region.Disjoint.outside {a b : Region} {x : Addr} (h : a.Disjoint b) (hx : a.Has x) :
    x.toNat < b.first ∨ b.first + b.length ≤ x.toNat := by
  unfold Region.Disjoint at h
  unfold Region.Has at hx
  omega

theorem Region.Disjoint.symm {a b : Region} (h : a.Disjoint b) : b.Disjoint a := Or.symm h

theorem Region.Disjoint.ne {a b : Region} {x y : Addr} (h : a.Disjoint b) (hx : a.Has x) (hy : b.Has y) :
    x ≠ y := by
  rintro rfl
  have := h.outside hx
  unfold Region.Has at hy
  omega

/-- The byte is in no entry of the SQ or the RQ and in no slot of the auxiliary ring or the CQ. -/
structure Cfg.OutsideSlots (c : Cfg) (b : Addr) : Prop where
  sq : b.toNat < c.sqBase.toNat ∨ c.sentSq.toNat ≤ b.toNat
  rq : b.toNat < c.rqBase.toNat ∨ c.sentRq.toNat ≤ b.toNat
  swq : b.toNat < c.swqBase.toNat ∨ c.swqRegion.first + c.swqRegion.length ≤ b.toNat
  cq : b.toNat < c.cqBase.toNat ∨ c.sentCq.toNat ≤ b.toNat

/-- Outside a whole ring is outside its entries or slots. -/
theorem Cfg.outside_rings {c : Cfg} (h : c.wf = true) (b : Addr) :
    ((b.toNat < c.sqRegion.first ∨ c.sqRegion.first + c.sqRegion.length ≤ b.toNat) →
      b.toNat < c.sqBase.toNat ∨ c.sentSq.toNat ≤ b.toNat) ∧
    ((b.toNat < c.rqRegion.first ∨ c.rqRegion.first + c.rqRegion.length ≤ b.toNat) →
      b.toNat < c.rqBase.toNat ∨ c.sentRq.toNat ≤ b.toNat) ∧
    ((b.toNat < c.cqRegion.first ∨ c.cqRegion.first + c.cqRegion.length ≤ b.toNat) →
      b.toNat < c.cqBase.toNat ∨ c.sentCq.toNat ≤ b.toNat) := by
  have h1 := (Cfg.sentSq_toNat h).2.1
  have h2 := (Cfg.sentRq_toNat h).2.1
  have h3 := (Cfg.sentCq_toNat h).2.1
  refine ⟨fun k => ?_, fun k => ?_, fun k => ?_⟩
  · exact k.imp id (fun k => by omega)
  · exact k.imp id (fun k => by omega)
  · exact k.imp id (fun k => by omega)

/-- A byte of the SQ's sentinel record. -/
theorem Cfg.outsideSlots_sq {c : Cfg} (h : c.wf = true) {b : Addr} (hb : c.sqRegion.Has b)
    (hs : c.sentSq.toNat ≤ b.toNat) : c.OutsideSlots b := by
  obtain ⟨-, d1, d2, d3, d4, d5, d6⟩ := Cfg.regions_spread h
  obtain ⟨o1, o2, o3⟩ := Cfg.outside_rings h b
  exact ⟨.inr hs, o2 (d1.outside hb), d3.outside hb, o3 (d2.outside hb)⟩

/-- A byte of the RQ's sentinel record. -/
theorem Cfg.outsideSlots_rq {c : Cfg} (h : c.wf = true) {b : Addr} (hb : c.rqRegion.Has b)
    (hs : c.sentRq.toNat ≤ b.toNat) : c.OutsideSlots b := by
  obtain ⟨-, d1, d2, d3, d4, d5, d6⟩ := Cfg.regions_spread h
  obtain ⟨o1, o2, o3⟩ := Cfg.outside_rings h b
  exact ⟨o1 (d1.symm.outside hb), .inr hs, d5.outside hb, o3 (d4.outside hb)⟩

/-- A byte of the CQ's sentinel record. -/
theorem Cfg.outsideSlots_cq {c : Cfg} (h : c.wf = true) {b : Addr} (hb : c.cqRegion.Has b)
    (hs : c.sentCq.toNat ≤ b.toNat) : c.OutsideSlots b := by
  obtain ⟨-, d1, d2, d3, d4, d5, d6⟩ := Cfg.regions_spread h
  obtain ⟨o1, o2, o3⟩ := Cfg.outside_rings h b
  exact ⟨o1 (d2.symm.outside hb), o2 (d4.symm.outside hb), d6.outside hb, .inr hs⟩

theorem Cfg.cqDboff_in_ring {c : Cfg} (h : c.wf = true) :
    c.cqRegion.Has c.cqDboff ∧ c.sentCq.toNat ≤ c.cqDboff.toNat := by
  have e := (Cfg.sentinel_toNat h).2.2.2.2.2
  obtain ⟨-, -, -, -, -, -, -, r2, -⟩ := Cfg.recordsOk h
  obtain ⟨c1, c2, -⟩ := Cfg.sentCq_toNat h
  have f3 : c.cqRegion.first = c.cqBase.toNat := rfl
  have hl : c.cqBase.toNat ≤ c.sentCq.toNat := by rw [c1]; exact Nat.le_add_right _ _
  have r : c.sentDboffOff < c.cqeBytes := lt_of_lt_of_le r2 (min_le_right _ _)
  simp only [Region.Has]
  omega

/-- Each sentinel byte lies in no entry and no slot. -/
theorem Cfg.sentinels_outside {c : Cfg} (h : c.wf = true) :
    c.OutsideSlots c.sqErr ∧ c.OutsideSlots c.sqDboff ∧ c.OutsideSlots c.rqErr ∧
    c.OutsideSlots c.rqDboff ∧ c.OutsideSlots c.cqErr ∧ c.OutsideSlots c.cqDboff := by
  obtain ⟨⟨a1, b1⟩, ⟨a2, b2⟩, ⟨a3, b3⟩, ⟨a4, b4⟩, a5, b5⟩ := Cfg.sentinel_in_ring h
  obtain ⟨a6, b6⟩ := Cfg.cqDboff_in_ring h
  exact ⟨outsideSlots_sq h a1 b1, outsideSlots_sq h a2 b2, outsideSlots_rq h a3 b3,
    outsideSlots_rq h a4 b4, outsideSlots_cq h a5 b5, outsideSlots_cq h a6 b6⟩

/-- The two bytes of one sentinel record are different. -/
theorem Cfg.err_ne_dboff {c : Cfg} (h : c.wf = true) :
    c.sqErr ≠ c.sqDboff ∧ c.rqErr ≠ c.rqDboff ∧ c.cqErr ≠ c.cqDboff := by
  obtain ⟨e1, e2, e3, e4, e5, e6⟩ := Cfg.sentinel_toNat h
  have r := (Cfg.recordsOk h).2.2.2.2.2.2.2.2
  refine ⟨fun k => r ?_, fun k => r ?_, fun k => r ?_⟩
  · have := congrArg BitVec.toNat k; omega
  · have := congrArg BitVec.toNat k; omega
  · have := congrArg BitVec.toNat k; omega

/-- The six sentinel bytes are pairwise different. -/
theorem Cfg.sentinels_nodup {c : Cfg} (h : c.wf = true) :
    [c.sqErr, c.sqDboff, c.rqErr, c.rqDboff, c.cqErr, c.cqDboff].Nodup := by
  obtain ⟨⟨a1, -⟩, ⟨a2, -⟩, ⟨a3, -⟩, ⟨a4, -⟩, a5, -⟩ := Cfg.sentinel_in_ring h
  have a6 := (Cfg.cqDboff_in_ring h).1
  obtain ⟨n1, n2, n3⟩ := Cfg.err_ne_dboff h
  obtain ⟨-, d1, d2, d3, d4, d5, d6⟩ := Cfg.regions_spread h
  simp only [List.nodup_cons, List.mem_cons, List.not_mem_nil, not_or, or_false, not_false_eq_true,
    List.nodup_nil, and_true]
  exact ⟨⟨n1, d1.ne a1 a3, d1.ne a1 a4, d2.ne a1 a5, d2.ne a1 a6⟩,
    ⟨d1.ne a2 a3, d1.ne a2 a4, d2.ne a2 a5, d2.ne a2 a6⟩,
    ⟨n2, d4.ne a3 a5, d4.ne a3 a6⟩, ⟨d4.ne a4 a5, d4.ne a4 a6⟩, n3⟩

end Sys2Proof

namespace Sys2Proof.Machine

/-- The three `.dboff` bytes are no `.err` byte. -/
theorem dboff_ne_errAddr {c : Cfg} (h : c.wf = true) (x : SentinelRing) :
    c.sqDboff ≠ errAddr c x ∧ c.rqDboff ≠ errAddr c x ∧ c.cqDboff ≠ errAddr c x := by
  have := Cfg.sentinels_nodup h
  simp only [List.nodup_cons, List.mem_cons, List.not_mem_nil, not_or, or_false, not_false_eq_true,
    List.nodup_nil, and_true] at this
  obtain ⟨⟨a1, a2, a3, a4, a5⟩, ⟨b1, b2, b3, b4⟩, ⟨c1, c2, c3⟩, ⟨d1, d2⟩, e1⟩ := this
  cases x
  · exact ⟨Ne.symm a1, Ne.symm a3, Ne.symm a5⟩
  · exact ⟨b1, Ne.symm c1, Ne.symm c3⟩
  · exact ⟨b3, d1, Ne.symm e1⟩

/-- What an Adapter event does to a byte outside the CQ slots: nothing, or it sets an `.err` byte. -/
theorem read_adapterWrites {c : Cfg} (hw : c.wf = true) (m : Memory) (e : AdapterEvent)
    (hm : adapterMay c e = true) (b : Addr) (hb : b.toNat < c.cqBase.toNat ∨ c.sentCq.toNat ≤ b.toNat) :
    Memory.read (adapterWrites c m e) b = Memory.read m b ∨
      ∃ x, b = errAddr c x ∧ Memory.read (adapterWrites c m e) b ≠ 0 := by
  have hsent := Cfg.sentCq_toNat hw
  obtain ⟨-, -, h16, -, -, h8, -⟩ := Cfg.recordsOk hw
  cases e with
  | cqeBody i =>
    obtain ⟨hs1, hs2⟩ := Cfg.slotCq_toNat hw (of_decide_eq_true hm)
    exact .inl (read_writeCqeBody_outside _ _ _ _ _ _ _ (by omega) (by omega))
  | cqeTrailer i =>
    obtain ⟨hs1, hs2⟩ := Cfg.slotCq_toNat hw (of_decide_eq_true hm)
    exact .inl (read_writeCqeTrailer_outside _ _ _ _ _ h8 (by omega) (by omega))
  | cqe i =>
    obtain ⟨hs1, hs2⟩ := Cfg.slotCq_toNat hw (of_decide_eq_true hm)
    exact .inl (read_writeCqe_outside _ _ _ _ _ h16 h8 (by omega) (by omega))
  | setErr x v =>
    simp only [adapterWrites, Memory.read_write]
    by_cases h : errAddr c x = b
    · exact .inr ⟨x, h.symm, by simpa [adapterMay, h] using hm⟩
    · exact .inl (if_neg h)

/-- A Host event that is no reset changes no byte outside the entries and the auxiliary slots. -/
theorem read_hostEvent (s : State) (hw : s.cfg.wf = true) (e : HostEvent) (hm : hostMay s.cfg e = true)
    (hr : ∀ c p, e ≠ .reset c p) (b : Addr)
    (hsq : b.toNat < s.cfg.sqBase.toNat ∨ s.cfg.sentSq.toNat ≤ b.toNat)
    (hrq : b.toNat < s.cfg.rqBase.toNat ∨ s.cfg.sentRq.toNat ≤ b.toNat)
    (hswq : b.toNat < s.cfg.swqBase.toNat ∨ s.cfg.swqRegion.first + s.cfg.swqRegion.length ≤ b.toNat) :
    Memory.read (s.hostEvent e).mem b = Memory.read s.mem b := by
  have h1 := Cfg.sentSq_toNat hw
  have h2 := Cfg.sentRq_toNat hw
  have h3 := (Cfg.regions_spread hw).1.2.2.2
  simp only [Region.Below] at h3
  obtain ⟨-, -, h16, -, -, h8, -⟩ := Cfg.recordsOk hw
  cases e with
  | setWqSwError => rfl
  | swWrite i r =>
    obtain ⟨hs1, hs2⟩ := Cfg.slotSw_toNat hw (of_decide_eq_true hm)
    exact read_writeCqe_outside _ _ _ _ _ h16 h8 (by omega) (by omega)
  | descWrite q i bs =>
    simp only [hostMay, Bool.and_eq_true, decide_eq_true_eq] at hm
    obtain ⟨hi, hl⟩ := hm
    cases q with
    | sq =>
      obtain ⟨hs1, hs2⟩ := Cfg.sqEntry_toNat hw hi
      simp only [descBytes, Cfg.sqEntryBytes] at hl
      exact Memory.read_writeBytes_outside _ _ _ _ (by simp only [descEntry]; omega)
        (by simp only [descEntry]; omega)
    | rq =>
      obtain ⟨hs1, hs2⟩ := Cfg.rqEntry_toNat hw hi
      simp only [descBytes, Cfg.rqEntryBytes] at hl
      exact Memory.read_writeBytes_outside _ _ _ _ (by simp only [descEntry]; omega)
        (by simp only [descEntry]; omega)
  | reset c p => exact absurd rfl (hr c p)

/-- The window does to a byte outside the CQ slots what the Adapter's events do. -/
theorem read_runInside (ins : List Input) (s : State) (hw : s.cfg.wf = true) (b : Addr)
    (hb : b.toNat < s.cfg.cqBase.toNat ∨ s.cfg.sentCq.toNat ≤ b.toNat) :
    Memory.read (s.runInside ins).mem b = Memory.read s.mem b ∨
      ∃ x, b = errAddr s.cfg x ∧ Memory.read (s.runInside ins).mem b ≠ 0 := by
  induction ins generalizing s with
  | nil => exact .inl rfl
  | cons e rest ih =>
    cases e <;> simp only [State.runInside] <;> try exact .inl rfl
    split
    · rename_i e hm
      rcases ih (s.adapterEvent e) hw hb with h | h
      · rw [h]; exact read_adapterWrites hw _ _ hm b hb
      · exact .inr h
    · exact .inl rfl

/-- Written bytes are either there whatever memory held before, or not at this address. -/
theorem read_writeBytes_either (bs : List Byte) (m m' : Memory) (a b : Addr) :
    Memory.read (Memory.writeBytes m a bs) b = Memory.read (Memory.writeBytes m' a bs) b ∨
    (Memory.read (Memory.writeBytes m a bs) b = Memory.read m b ∧
      Memory.read (Memory.writeBytes m' a bs) b = Memory.read m' b) := by
  induction bs generalizing m m' a with
  | nil => exact .inr ⟨rfl, rfl⟩
  | cons x xs ih =>
    simp only [Memory.writeBytes]
    rcases ih (Memory.write m a x) (Memory.write m' a x) (a + 1) with h | ⟨h1, h2⟩
    · exact .inl h
    · rw [h1, h2, Memory.read_write, Memory.read_write]
      split
      · exact .inl rfl
      · exact .inr ⟨rfl, rfl⟩

/-- The same of an Adapter event. -/
theorem read_adapterWrites_either (c : Cfg) (m m' : Memory) (e : AdapterEvent) (b : Addr) :
    Memory.read (adapterWrites c m e) b = Memory.read (adapterWrites c m' e) b ∨
    (Memory.read (adapterWrites c m e) b = Memory.read m b ∧
      Memory.read (adapterWrites c m' e) b = Memory.read m' b) := by
  cases e with
  | cqeBody => exact read_writeBytes_either _ _ _ _ _
  | cqeTrailer => exact read_writeBytes_either _ _ _ _ _
  | cqe i r =>
    simp only [adapterWrites, writeCqe, writeCqeTrailer]
    rcases read_writeBytes_either (toBe 8 r.trailer.toNat)
      (writeCqeBody m (c.slotCq i) r.header r.len r.payHi r.payLo)
      (writeCqeBody m' (c.slotCq i) r.header r.len r.payHi r.payLo)
      (c.slotCq i + BitVec.ofNat 64 c.cqeTrailerOff) b with h | ⟨h1, h2⟩
    · exact .inl h
    · rw [h1, h2]; exact read_writeBytes_either _ _ _ _ _
  | setErr x v =>
    simp only [adapterWrites, Memory.read_write]
    split
    · exact .inl rfl
    · exact .inr ⟨rfl, rfl⟩

/-- The same of the window. -/
theorem read_runInside_either (ins : List Input) (s s' : State) (hc : s.cfg = s'.cfg) (b : Addr) :
    Memory.read (s.runInside ins).mem b = Memory.read (s'.runInside ins).mem b ∨
    (Memory.read (s.runInside ins).mem b = Memory.read s.mem b ∧
      Memory.read (s'.runInside ins).mem b = Memory.read s'.mem b) := by
  induction ins generalizing s s' with
  | nil => exact .inr ⟨rfl, rfl⟩
  | cons e rest ih =>
    cases e <;> simp only [State.runInside] <;> try exact .inr ⟨rfl, rfl⟩
    rw [← hc]
    split
    · rename_i e hm
      rcases ih (s.adapterEvent e) (s'.adapterEvent e) hc with h | ⟨h1, h2⟩
      · exact .inl h
      · rw [h1, h2]
        have := read_adapterWrites_either s.cfg s.mem s'.mem e b
        simpa only [State.adapterEvent, hc] using this
    · exact .inr ⟨rfl, rfl⟩

/-- What a byte holds after the two writes of a sentinel command: the value written, what the Adapter left
inside the command, or what it held. -/
theorem readByte_writeBoth (s : State) (p q : Addr) (v : Byte) (b : Addr) :
    ((b = p ∨ b = q) ∧ (writeBoth p q v s).readByte b = v) ∨
    (writeBoth p q v s).readByte b = s.window.readByte b ∨
    (writeBoth p q v s).readByte b = s.readByte b := by
  simp only [State.readByte, writeBoth, State.writeByte_mem, Memory.read_write]
  split
  · exact .inl ⟨.inr (Eq.symm ‹_›), rfl⟩
  · rcases read_runInside_either s.inputs (s.writeByte p v) s rfl b with h | ⟨h, -⟩
    · exact .inr (.inl h)
    · rw [State.window, show (s.writeByte p v).inputs = s.inputs from rfl, h, State.writeByte_mem,
        Memory.read_write]
      split
      · exact .inl ⟨.inl (Eq.symm ‹_›), rfl⟩
      · exact .inr (.inr rfl)

end Sys2Proof.Machine
end

