-- ==== Sys2Proof/Tests/Slice0.lean ====
section
/-!
SUPPORT. Tests. Expected results come from the spec: the opcode table (R61), the vectors of
spec/95_test_vectors.md (named in each comment), and hand calculation from the rules. A `witness_` theorem
shows concrete values that meet the hypotheses of the obligation it is named after, clause by clause.
-/
namespace Sys2Proof.Machine

/-- What a command or step leaves, seen through `f`; none where the machine stopped. -/
def seen {α : Type} (f : State → α) : Result → Option α
  | .next s => some (f s)
  | _ => none

/-- The response `OK, val` with no record. -/
def okVal (v : DWord) : List Response := [⟨.ok, v, none, .none⟩]

/-- The records `V(g, ts)` of spec/95 section 2.4. -/
def recV (trailer : DWord) : Cqe := ⟨0x00026000, 0x40, 0, 0, trailer⟩

/-- `X0` and `X1` of spec/95 section 2.5. -/
def recX0 : Cqe := ⟨0x12345014, 0x00000040, 0xAABBCCDD, 0x11223344, 0x8000000000000005⟩

/-- `X1`. -/
def recX1 : Cqe := ⟨0x00000A63, 0xFFFFFFFF, 0, 0xFFFF0001, 0x7000000000000009⟩

/-- The reset state with a record in CQ slot 0. -/
def withSlot0 (r : Cqe) : State :=
  { State.reset with mem := writeCqe exCfg [] (exCfg.slotCq 0) r }

/-- The reset state with these events still to happen. -/
def waiting (ins : List Input) : State := State.reset.later ins

/-! ## Configuration -/

theorem test_exCfg_wf : exCfg.wf = true := by decide

/-- DF13. -/
theorem test_bad_config_sentinel : ({ exCfg with sentErrOff := 13 } : Cfg).wf = false := by decide

/-- DF14. -/
theorem test_bad_config_doorbell : ({ exCfg with pidxWidth := 16 } : Cfg).wf = false := by decide

theorem test_reset_clear : State.reset.fault = none := by decide

/-! ## Well-formedness and decoding -/

/-- An ill-formed term for the one check: 0x04 and 0x29 are no RD numbers (R27, DF8). -/
theorem test_wellFormed_refuses : (Instr.rdState 0x04).wellFormed = false ∧
    (Instr.rdState 0x29).wellFormed = false ∧ (Instr.rdState 0x0124).wellFormed = false := by decide

theorem test_wellFormed_accepts : (Instr.rdState 0x28).wellFormed = true ∧
    (Instr.rdState 0x00).wellFormed = true ∧ (Instr.ringSqDb 0xFFFF).wellFormed = true := by decide

/-- The words of R61's map, written out. -/
theorem test_decode_sq : [0x01000000, 0x02000000, 0x03000000, 0x04000000, 0x05000000, 0x0600ABCD].map
    (decodeTableWord 32) =
    [some .sqProduce, some .sqConsume, some .sqEmpty, some .sqFull, some .sqAvail,
      some (.ringSqDb 0xABCD)] := by decide

theorem test_decode_rq : [0x09000000, 0x0A000000, 0x0B000000, 0x0C000000, 0x0D000000, 0x0E001234,
    0x0F000000].map (decodeTableWord 32) =
    [some .rqProduce, some .rqConsume, some .rqEmpty, some .rqFull, some .rqAvail,
      some (.ringRqDb 0x1234), some .rqesPosted] := by decide

theorem test_decode_wq_status : [0x10000000, 0x11000000, 0x12000000, 0x13000000, 0x14000000].map
    (decodeTableWord 32) =
    [some .wqInError, some .wqSetError, some .wqDisableDb, some .wqEnableDb, some .wqDbEnabled] := by decide

theorem test_decode_cq : [0x20000000, 0x22000000, 0x23000000, 0x24000000, 0x25000000, 0x25010000,
    0x26000000, 0x27000000, 0x28000000, 0x29000000, 0x2A000000].map (decodeTableWord 32) =
    [some .cqHwConsume, some .cqNextHw, some .cqNextSw, some .cqNext, some (.cqArm 0), some (.cqArm 1),
      some .cqSwProduce, some .cqSwConsume, some .cqInError, some .cqSetError, some .cqClearError] := by
  decide

theorem test_decode_record : [0x21000000, 0x30000000, 0x31000000, 0x32000000, 0x33000000, 0x34000000,
    0x35000000, 0x36000000].map (fun w => (decode ⟨w, some recX0⟩).toOption) =
    [some (.cqIsValid recX0), some (.cqeQpid recX0), some (.cqeSwcqe recX0), some (.cqeStatus recX0),
      some (.cqeType recX0), some (.cqeOpcode recX0), some (.cqeSendOpcode recX0),
      some (.cqeLen recX0)] := by decide

theorem test_decode_record_more : [0x37000000, 0x38000000, 0x39000000, 0x3A000000, 0x3B000000, 0x3C000000,
    0x3D000000, 0x3E000000, 0x3F000000].map (fun w => (decode ⟨w, some recX0⟩).toOption) =
    [some (.cqeWridStag recX0), some (.cqeWridMsn recX0), some (.cqeWridSqIdx recX0),
      some (.cqeWridHi recX0), some (.cqeWridLow recX0), some (.cqeGenbit recX0), some (.cqeOvfbit recX0),
      some (.cqeIqtype recX0), some (.cqeTs recX0)] := by decide

theorem test_decode_rd_state : [0x40000000, 0x40000028].map (decodeTableWord 32) =
    [some (.rdState 0x00), some (.rdState 0x28)] := by decide

/-- DF1 to DF9: no instruction. -/
theorem test_decode_illegal : [0x00000000, 0x07000000, 0x41000000, 0x01000001, 0x01010000, 0x01020000,
    0x25020000, 0x40000004, 0x21000000].map (fun w => (decode ⟨w, none⟩).toOption) =
    List.replicate 9 none := by decide

/-- DF10: a record given with a command not marked rec is ignored. -/
theorem test_decode_ignores_record : (decode ⟨0x03000000, some recX0⟩).toOption = some .sqEmpty := by decide

/-- The host's word runs as the first instruction after reset (WR1). -/
theorem test_withFetchWord : seen (fun t => (t.sq, t.responses))
    (step (State.reset.withFetchWord 32 0x01000000)) = some (⟨1, 1, 0⟩, okVal 0) := by decide

/-! ## Faults -/

/-- DF11: an illegal word wins over a full ring (R130). -/
theorem test_illegal_before_overflow : seen State.fault
    (step { State.reset with sq := ⟨7, 7, 0⟩, inputs := [.command ⟨0x01000001, none⟩] }) =
    some (some ⟨.illegalCmd, some 0x01000001, none⟩) := by decide

/-- DF12, P6: a latched Block drops the next command. -/
theorem test_latched_drops : seen (fun t => (t.fault, t.responses, t.sq))
    (execAll [.sqConsume, .sqEmpty] State.reset) =
    some (some ⟨.sqUnderflow, some 0x02000000, some 0⟩, [], ⟨0, 0, 0⟩) := by decide

/-- R126's codes and R60's. -/
theorem test_codes : [FaultReason.badConfig, .illegalCmd, .sqOverflow, .sqUnderflow, .rqOverflow,
    .rqUnderflow, .swOverflow, .swUnderflow, .dbIncRange, .armIncRange, .cidxincWrap].map
    FaultReason.code = [1, 2, 3, 4, 5, 6, 7, 8, 9, 10, 11] ∧
    [ResultCode.ok, .nodata, .overflow].map ResultCode.code = [0, 1, 2] := by decide

/-! ## Work-queue rings -/

/-- WR2: the producer index wraps. -/
theorem test_sq_produce_wraps : seen (fun t => (t.sq, t.responses))
    (exec .sqProduce { State.reset with sq := ⟨6, 7, 1⟩ }) = some (⟨7, 0, 1⟩, okVal 0) := by decide

/-- WR3. -/
theorem test_sq_produce_full : seen (fun t => (t.sq, t.fault, t.responses))
    (exec .sqProduce { State.reset with sq := ⟨7, 7, 0⟩ }) =
    some (⟨7, 7, 0⟩, some ⟨.sqOverflow, some 0x01000000, some 7⟩, []) := by decide

/-- WR10: with `N_SQ = 1` every produce faults. -/
theorem test_sq_produce_size_one : seen State.fault
    (exec .sqProduce (State.resetWith { exCfg with nSq := 1 } [] [])) =
    some (some ⟨.sqOverflow, some 0x01000000, some 0⟩) := by decide

/-- WR5: the consumer index wraps. -/
theorem test_sq_consume_wraps : seen (fun t => (t.sq, t.responses))
    (exec .sqConsume { State.reset with sq := ⟨1, 0, 7⟩ }) = some (⟨0, 0, 0⟩, okVal 0) := by decide

/-- WR6 to WR8 and S7's end state. -/
theorem test_sq_queries : [Instr.sqEmpty, .sqFull, .sqAvail].map (fun i => seen State.responses
    (exec i State.reset)) = [some (okVal 1), some (okVal 0), some (okVal 7)] ∧
    seen State.responses (exec .sqFull { State.reset with sq := ⟨7, 7, 0⟩ }) = some (okVal 1) ∧
    seen State.responses (exec .sqAvail { State.reset with sq := ⟨6, 7, 1⟩ }) = some (okVal 1) := by decide

/-- WR12, WR13: the SQ doorbell word. -/
theorem test_ring_sq_db : seen State.history (exec (.ringSqDb 7) State.reset) =
      some [.fenceSs, .mmioWrite32 0xF0000000 0x0012801C] ∧
    seen State.history (exec (.ringSqDb 4095) State.reset) =
      some [.fenceSs, .mmioWrite32 0xF0000000 0x0012BFFC] := by decide

/-- WR14 and WR15. -/
theorem test_ring_sq_db_range : seen (fun t => (t.fault, t.history)) (exec (.ringSqDb 4096) State.reset) =
      some (some ⟨.dbIncRange, some 0x06001000, some 16384⟩, []) ∧
    seen State.history (exec (.ringSqDb 1) (State.resetWith { exCfg with qidSq := 0x12345 } [] [])) =
      some [.fenceSs, .mmioWrite32 0xF0000000 0x11A28004] := by decide

/-- R78's example, and WR19. -/
theorem test_rq_produce : seen State.rq (exec .rqProduce { State.reset with rq := ⟨0, 3, 3⟩ }) =
      some ⟨1, 0, 3⟩ ∧
    seen State.fault (exec .rqProduce { State.reset with rq := ⟨3, 3, 0⟩ }) =
      some (some ⟨.rqOverflow, some 0x09000000, some 3⟩) := by decide

/-- WR20 and WR21. -/
theorem test_rq_consume : seen (fun t => (t.rq, t.rqMsn))
      (exec .rqConsume { State.reset with rq := ⟨1, 0, 3⟩ }) = some (⟨0, 0, 0⟩, 2) ∧
    seen State.rqMsn (exec .rqConsume { State.reset with rq := ⟨1, 1, 0⟩, rqMsn := 0xFFFFFFFF }) =
      some 0 := by decide

/-- WR23, and `RQ_FULL` of WR18. -/
theorem test_rq_queries : [Instr.rqEmpty, .rqAvail, .rqesPosted, .rqFull].map (fun i => seen State.responses
    (exec i { State.reset with rq := ⟨2, 2, 0⟩ })) =
    [some (okVal 0), some (okVal 1), some (okVal 2), some (okVal 0)] ∧
    seen State.responses (exec .rqFull { State.reset with rq := ⟨3, 3, 0⟩ }) = some (okVal 1) := by decide

/-- WR24 and WR26. -/
theorem test_ring_rq_db : seen State.history (exec (.ringRqDb 3) State.reset) =
      some [.fenceSs, .mmioWrite32 0xF0000004 0x00130006] ∧
    seen State.fault (exec (.ringRqDb 8192) State.reset) =
      some (some ⟨.dbIncRange, some 0x0E002000, some 16384⟩) := by decide

/-! ## Work-queue sentinels -/

/-- WS1 to WS4: neither the CQ's byte nor a clear one counts. -/
theorem test_wq_in_error : [State.reset, { State.reset with mem := [(0x2020C, 0x80)] },
    { State.reset with wqSwError := 1 }, { State.reset with mem := [(0x3008C, 1)] }].map
    (fun s => seen State.responses (exec .wqInError s)) =
    [some (okVal 0), some (okVal 1), some (okVal 1), some (okVal 0)] := by decide

/-- WS5 and WS6. -/
theorem test_wq_set_error : seen State.mem (exec .wqSetError State.reset) =
      some [(0x1080C, 1), (0x2020C, 1)] ∧
    seen State.mem (exec .wqSetError { State.reset with mem := [(0x1080C, 0x80)] }) =
      some [(0x1080C, 1), (0x2020C, 1)] := by decide

/-- WS8 and WS9: the bytes, and back to the same memory. -/
theorem test_wq_db_latch : seen State.mem (exec .wqDisableDb State.reset) =
      some [(0x1080D, 1), (0x2020D, 1)] ∧
    seen State.mem (execAll [.wqDisableDb, .wqEnableDb] State.reset) = some [] := by decide

/-- WS7, WS8. -/
theorem test_wq_db_enabled : seen State.responses (exec .wqDbEnabled State.reset) = some (okVal 1) ∧
    seen State.responses (exec .wqDbEnabled { State.reset with mem := [(0x1080D, 1), (0x2020D, 1)] }) =
      some (okVal 0) := by decide

/-- R54: the Adapter sets the SQ byte after it was written and before the RQ byte is. -/
theorem test_adapter_inside : seen (fun t => (t.mem, t.inputs))
    (exec .wqSetError (waiting [.adapterInside (.setErr .sq 0x40), .adapterInside (.setErr .rq 0x20)])) =
    some ([(0x1080C, 0x40), (0x2020C, 1)], []) := by decide

/-! ## Completion-queue engine -/

/-- CQ2 and CQ3: the wrap flips the expected bit. -/
theorem test_hw_consume : seen (fun t => (t.cqCidx, t.cqGen, t.cqCidxInc))
      (exec .cqHwConsume { State.reset with cqCidx := 3, cqCidxInc := 3 }) = some (0, 0, 4) ∧
    seen (fun t => (t.cqCidx, t.cqGen)) (exec .cqHwConsume { State.reset with cqCidx := 3, cqGen := 0 }) =
      some (0, 1) := by decide

/-- CQ1 and CQ5. -/
theorem test_hw_consume_plain : seen (fun t => (t.cqCidx, t.cqGen, t.cqCidxInc))
      (exec .cqHwConsume State.reset) = some (1, 1, 1) ∧
    seen State.fault (exec .cqHwConsume { State.reset with cqCidxInc := 0xFFFFFFFF }) =
      some (some ⟨.cidxincWrap, some 0x20000000, some 0xFFFFFFFF⟩) := by decide

/-- CQ6 and CQ8. -/
theorem test_is_valid : seen State.responses
      (exec (.cqIsValid (recV 0x8000000000000005)) State.reset) = some (okVal 1) ∧
    seen State.responses (exec (.cqIsValid (recV 0x7FFFFFFFFFFFFFFF)) { State.reset with cqGen := 0 }) =
      some (okVal 1) := by decide

/-- CQ11: a valid record, whose smaller timestamp replaces the mark. -/
theorem test_next_hw_valid : seen (fun t => (t.cqLastTs, t.responses, t.cqCidx))
    (exec .cqNextHw { withSlot0 (recV 0x8000000000000003) with cqLastTs := 9 }) =
    some (3, [⟨.ok, 0, some (recV 0x8000000000000003), .hw⟩], 0) := by decide

/-- CQ12 and CQ13. -/
theorem test_next_hw_stale : seen (fun t => (t.responses, t.cqError, t.history))
      (exec .cqNextHw { withSlot0 (recV 5) with cqLastTs := 5 }) =
      some ([⟨.nodata, 0, none, .none⟩], 0, []) ∧
    seen (fun t => (t.responses, t.cqError, t.history, t.cqLastTs))
      (exec .cqNextHw { withSlot0 (recV 6) with cqLastTs := 5 }) =
      some ([⟨.overflow, 0, none, .none⟩], 1, [.diag .overflow 0x11], 5) := by decide

/-- CQ19 and CQ20. -/
theorem test_next_sw : seen State.responses (exec .cqNextSw State.reset) =
      some [⟨.nodata, 0, none, .none⟩] ∧
    seen State.responses (exec .cqNextSw
      { State.reset with swq := ⟨2, 1, 3⟩, mem := writeCqe exCfg [] 0x40060 recX1 }) =
      some [⟨.ok, 3, some recX1, .sw⟩] := by decide

/-- CQ16 and CQ21: the sticky error first, then the auxiliary ring. -/
theorem test_next_order : seen (fun t => (t.responses, t.cqLastTs))
      (exec .cqNext { withSlot0 (recV 0x8000000000000008) with cqError := 1, swq := ⟨1, 1, 0⟩ }) =
      some ([⟨.nodata, 0, none, .none⟩], 0) ∧
    seen (fun t => (t.responses, t.cqLastTs))
      (exec .cqNext { withSlot0 (recV 0x8000000000000005) with swq := ⟨1, 1, 0⟩ }) =
      some ([⟨.ok, 0, some ⟨0, 0, 0, 0, 0⟩, .sw⟩], 0) := by decide

/-- CQ22 and CQ23. -/
theorem test_next_hardware : seen (fun t => (t.responses, t.cqLastTs))
      (exec .cqNext (withSlot0 (recV 0x8000000000000005))) =
      some ([⟨.ok, 0, some (recV 0x8000000000000005), .hw⟩], 5) ∧
    seen (fun t => (t.responses, t.cqError)) (exec .cqNext (withSlot0 (recV 7))) =
      some ([⟨.overflow, 0, none, .none⟩], 1) := by decide

/-- CQ24 and CQ25. -/
theorem test_sw_produce : seen State.swq (exec .cqSwProduce { State.reset with swq := ⟨3, 3, 0⟩ }) =
      some ⟨4, 0, 0⟩ ∧
    seen State.fault (exec .cqSwProduce { State.reset with swq := ⟨4, 0, 0⟩ }) =
      some (some ⟨.swOverflow, some 0x26000000, some 4⟩) := by decide

/-- CQ26 and CQ27. -/
theorem test_sw_consume : seen (fun t => (t.swq, t.cqCidxInc))
      (exec .cqSwConsume { State.reset with swq := ⟨1, 0, 3⟩ }) = some (⟨0, 0, 0⟩, 0) ∧
    seen State.fault (exec .cqSwConsume State.reset) =
      some (some ⟨.swUnderflow, some 0x27000000, some 0⟩) := by decide

/-- CQ29 and CQ30. -/
theorem test_arm : seen (fun t => (t.history, t.cqCidxInc))
      (exec (.cqArm 1) { State.reset with cqCidxInc := 4 }) =
      some ([.mmioWrite32 0xF0000008 0x0011D004], 0) ∧
    seen (fun t => (t.history, t.cqCidxInc)) (exec (.cqArm 0) { State.reset with cqCidxInc := 4095 }) =
      some ([.mmioWrite32 0xF0000008 0x0011CFFF], 0) := by decide

/-- CQ31. -/
theorem test_arm_range : seen (fun t => (t.fault, t.cqCidxInc, t.history))
    (exec (.cqArm 1) { State.reset with cqCidxInc := 4096 }) =
    some (some ⟨.armIncRange, some 0x25010000, some 4096⟩, 4096, []) := by decide

/-- CQ33 and CQ34. -/
theorem test_cq_set_error : seen State.mem (exec .cqSetError State.reset) = some [(0x3008C, 1)] ∧
    seen State.mem (exec .cqClearError { State.reset with mem := [(0x3008C, 0x80)] }) = some [] := by decide

/-- CQ32, CQ33; `cq.error` is another flag (CQ35). -/
theorem test_cq_in_error : [{ State.reset with cqError := 1 },
    { State.reset with mem := [(0x3008C, 0x80)] }].map (fun s => seen State.responses (exec .cqInError s)) =
    [some (okVal 0), some (okVal 1)] := by decide

/-! ## CQE decoders and state read-out -/

/-- Section 2.5, column X0. -/
theorem test_decoders_x0 : [Instr.cqeQpid recX0, .cqeSwcqe recX0, .cqeStatus recX0, .cqeType recX0,
    .cqeOpcode recX0, .cqeSendOpcode recX0, .cqeLen recX0, .cqeWridStag recX0, .cqeWridMsn recX0,
    .cqeWridSqIdx recX0, .cqeWridHi recX0, .cqeWridLow recX0, .cqeGenbit recX0, .cqeOvfbit recX0,
    .cqeIqtype recX0, .cqeTs recX0].map (fun i => seen State.responses (exec i State.reset)) =
    [0x12345, 0, 0, 1, 4, 1, 0x40, 0xAABBCCDD, 0x11223344, 0x3344, 0xAABBCCDD, 0x11223344, 1, 0, 0, 5].map
      (fun v => some (okVal v)) := by decide

/-- Section 2.5, column X1. -/
theorem test_decoders_x1 : [Instr.cqeQpid recX1, .cqeSwcqe recX1, .cqeStatus recX1, .cqeType recX1,
    .cqeOpcode recX1, .cqeSendOpcode recX1, .cqeLen recX1, .cqeWridStag recX1, .cqeWridMsn recX1,
    .cqeWridSqIdx recX1, .cqeWridHi recX1, .cqeWridLow recX1, .cqeGenbit recX1, .cqeOvfbit recX1,
    .cqeIqtype recX1, .cqeTs recX1].map (fun i => seen State.responses (exec i State.reset)) =
    [0, 1, 0x13, 0, 3, 1, 0xFFFFFFFF, 0, 0xFFFF0001, 1, 0, 0xFFFF0001, 0, 1, 3, 9].map
      (fun v => some (okVal v)) := by decide

/-- Section 2.6. -/
theorem test_rd_state : [0x00, 0x01, 0x08, 0x0C, 0x10, 0x20, 0x22, 0x24].map
    (fun r => seen State.responses (exec (.rdState r) State.reset)) =
    [8, 0, 4, 1, 0, 4, 1, 0].map (fun v => some (okVal v)) ∧
    seen State.responses (exec (.rdState 0x24) { State.reset with cqLastTs := 0x0FFFFFFFFFFFFFFF }) =
      some (okVal 0x0FFFFFFFFFFFFFFF) := by decide

theorem test_register_numbers : [Reg.nSq, .sqInUse, .sqPidx, .sqCidx, .nRq, .rqInUse, .rqPidx, .rqCidx,
    .rqMsn, .wqSwError, .nCq, .cqCidx, .cqGen, .cqCidxInc, .cqLastTs, .cqError, .cqSwInUse, .cqSwPidx,
    .cqSwCidx].map (fun g => Reg.ofNumber? (Reg.number g) = some g) = List.replicate 19 True := by
  simp only [List.map_cons, List.map_nil, Reg.number, Reg.ofNumber?]; simp

/-! ## The Adapter and the Host -/

/-- CQ36 and CQ37: a body without its trailer is not trusted. -/
theorem test_body_then_trailer : seen State.responses
      (step { State.reset with
        mem := adapterWrites exCfg [] (.cqeBody 0 0x00026000 0x40 0 0), inputs := [.command ⟨0x22000000, none⟩] }) =
      some [⟨.nodata, 0, none, .none⟩] ∧
    seen State.responses (step { State.reset with
        mem := adapterWrites exCfg (adapterWrites exCfg [] (.cqeBody 0 0x00026000 0x40 0 0))
          (.cqeTrailer 0 0x8000000000000001)
        inputs := [.command ⟨0x22000000, none⟩] }) =
      some [⟨.ok, 0, some ⟨0x00026000, 0x40, 0, 0, 0x8000000000000001⟩, .hw⟩] := by decide

/-- The layout of R39 under R10's addresses: a big-endian header at the slot, the trailer 24 bytes on. -/
theorem test_adapter_layout : seen State.mem
    (step (waiting [.adapter (.cqe 1 ⟨0x12000000, 0, 0, 0x34, 0x8000000000000005⟩)])) =
    some [(0x30020, 0x12), (0x3002F, 0x34), (0x30038, 0x80), (0x3003F, 5)] := by decide

/-- S9: the sentinel byte of R10's derived addresses. -/
theorem test_adapter_set_err : seen State.mem (step (waiting [.adapter (.setErr .sq 1)])) =
    some [(0x1080C, 1)] := by decide

theorem test_host_moves : seen State.wqSwError (step (waiting [.host .setWqSwError])) = some 1 ∧
    seen State.mem (step (waiting [.host (.swWrite 3 ⟨0x01000000, 0, 0, 0, 0⟩)])) = some [(0x40060, 1)] ∧
    seen State.mem (step (waiting [.host (.descWrite .sq 1 [7, 8])])) = some [(0x10100, 7), (0x10101, 8)] := by
  decide

/-- R145: what preparing memory clears, and what it leaves. -/
theorem test_reset_prepares : seen State.mem
    (step { waiting [.host (.reset exCfg true)] with
      mem := [(0x107FF, 1), (0x1080C, 1), (0x2023F, 1), (0x20240, 1), (0x30000, 1), (0x3009F, 1), (0x40000, 1)] }) =
    some [(0x107FF, 1), (0x20240, 1), (0x40000, 1)] := by decide

/-- R71; `POST_RQ #0` as log 23 has it. -/
theorem test_pseudo : (Pseudo.postSq 2).expand = some [.sqProduce, .sqProduce, .ringSqDb 2] ∧
    (Pseudo.postRq 1).expand = some [.rqProduce, .ringRqDb 1] ∧ (Pseudo.postSq 0).expand = none ∧
    (Pseudo.postRq 0).expand = some [.ringRqDb 0] ∧
    Pseudo.cqArm.expand = some [.cqArm 0] ∧ Pseudo.poll.expand = some [.cqNext] := by decide

theorem test_assembleLine : assembleLine "POST_RQ" (.number 1) = some [.rqProduce, .ringRqDb 1] ∧
    assembleLine "POST_SQ" (.number 0) = none ∧ assembleLine "CQ_ARM" .absent = some [.cqArm 0] ∧
    assembleLine "CQ_ARM" (.number 2) = none ∧ assembleLine "RD_STATE" (.number 4) = none ∧
    assembleLine "RD_STATE" (.register "sq.pidx") = some [.rdState 2] ∧
    assembleLine "RD_STATE" (.register "cq.dboff") = none ∧
    assembleLine "RING_SQ_DB" (.number 65536) = none ∧ assembleLine "SQ_FULL" (.number 0) = none := by decide

/-- R70: `RD_STATE sq.pidx` is `RD_STATE #0x02`. -/
theorem test_asm : rdStateByName .sqPidx = .rdState 0x02 ∧ asmOperand (.cqArm 1) = .number 1 ∧
    asmOperand (.cqeTs recX0) = .record recX0 ∧ asmOperand .sqFull = .absent ∧
    mnemonic (.cqeWridSqIdx recX0) = "CQE_WRID_SQ_IDX" ∧ Reg.name .cqCidxInc = "cq.cidx_inc" := by decide

/-! ## Witnesses: encoding and the command port -/

/-- The reset state with its latch set. -/
def latched : State := State.reset.latch ⟨.sqUnderflow, some 0x02000000, some 0⟩

theorem witness_DecodeOfEncodeIsIdentity : (Instr.rdState 0x28).wellFormed = true ∧
    (Instr.ringSqDb 0xFFFF).wellFormed = true ∧ (Instr.cqArm 1).wellFormed = true := by decide

/-- A well-formed command, a name and a number outside R27. -/
theorem witness_AssembledLineIsItsCommand : (Instr.rdState 0x28).wellFormed = true ∧
    assembleLine "RD_STATE" (.register "cq.sw_cidx") = some [.rdState 0x28] ∧
    assembleLine "RD_STATE" (.register "sq.err") = none ∧ assembleLine "RD_STATE" (.number 0x29) = none ∧
    assembleLine "RD_STATE" (.number 65536) = none := by decide

theorem witness_EncodeOfDecodeIsIdentity :
    decode ⟨0x25010000, some recX0⟩ = .ok (.cqArm 1) ∧ decode ⟨0x3F000000, some recX0⟩ = .ok (.cqeTs recX0) ∧
    takesRecord (cwOp 0x3F000000) = true := ⟨rfl, rfl, rfl⟩

/-- Clause by clause: an illegal and a legal command, and a legal one that needs no record. -/
theorem witness_ExactlyIllegalCommandsRaiseIllegalCmd :
    (waiting [.command ⟨0x41000000, none⟩]).fault = none ∧ IllegalByR62 ⟨0x41000000, none⟩ ∧
    IllegalByR62 ⟨0x40000029, none⟩ ∧ IllegalByR62 ⟨0x3F000000, none⟩ ∧
    ¬ IllegalByR62 ⟨0x40000028, none⟩ ∧ ¬ IllegalByR62 ⟨0x25010000, none⟩ ∧
    ¬ IllegalByR62 ⟨0x0600FFFF, none⟩ ∧ ¬ IllegalByR62 ⟨0x3F000000, some recX0⟩ ∧
    (0x40000028 : Word).toNat / 2 ^ 24 ≠ 0x21 ∧
    ¬ (0x30 ≤ (0x40000028 : Word).toNat / 2 ^ 24 ∧ (0x40000028 : Word).toNat / 2 ^ 24 ≤ 0x3F) := by
  refine ⟨by decide, ?_, ?_, ?_, ?_, ?_, ?_, ?_, by decide, by decide⟩ <;> simp [IllegalByR62]

theorem witness_StepRunsDecodedCommand :
    (waiting [.command ⟨0x01000000, none⟩]).inputs = .command ⟨0x01000000, none⟩ :: [] ∧
    decode ⟨0x01000000, none⟩ = .ok .sqProduce := ⟨rfl, rfl⟩

/-- Each clause, with a liberty and an event outside the liberties at the boundary slot 4. -/
theorem witness_WaitingAndOutsideLiberties : State.reset.inputs = [] ∧
    adapterMay (waiting [.adapter (.cqeTrailer 4 0)]).cfg (.cqeTrailer 4 0) = false ∧
    adapterMay exCfg (.cqeTrailer 3 0) = true ∧ adapterMay exCfg (.setErr .cq 0) = false ∧
    hostMay (waiting [.host (.swWrite 4 recX0)]).cfg (.swWrite 4 recX0) = false ∧
    hostMay exCfg (.swWrite 3 recX0) = true ∧
    hostMay exCfg (.descWrite .rq 4 [0]) = false ∧
    (waiting [.adapterInside (.setErr .cq 7)]).inputs = .adapterInside (.setErr .cq 7) :: [] ∧
    adapterMay exCfg (.setErr .cq 7) = true := by decide

theorem witness_LatchedBlockAcceptsNoCommand : latched.fault ≠ none ∧
    (latched.later [.command ⟨0x01000000, none⟩]).inputs = .command ⟨0x01000000, none⟩ :: [] ∧
    nextIsReset (latched.later [.command ⟨0x01000000, none⟩]) = false ∧
    seen State.fault (step (latched.later [.command ⟨0x01000000, none⟩])) = some latched.fault := by decide

theorem witness_FaultingCommandChangesOnlyTheLatch : State.reset.fault = none ∧
    exec .sqConsume State.reset = .next latched ∧ latched.fault ≠ none := ⟨by decide, rfl, by decide⟩

/-- Both ways a command ends. -/
theorem witness_EveryCommandEndsInOneResponseOrAFault : State.reset.fault = none ∧
    seen (fun t => (t.fault, t.responses)) (exec .sqProduce State.reset) = some (none, okVal 0) ∧
    seen (fun t => (t.fault.isSome, t.responses)) (exec .sqConsume State.reset) = some (true, []) := by decide

theorem witness_CommandsKeepConfigAndOnlyAppend :
    seen (fun t => (t.history.length, t.responses.length)) (exec (.ringSqDb 1) State.reset) = some (2, 1) := by
  decide

/-- Some command changes each thing the clauses speak of. -/
theorem witness_OnlyListedWritersChangeState :
    seen (fun t => (t.sq, t.sq == State.reset.sq)) (exec .sqProduce State.reset) = some (⟨1, 1, 0⟩, false) ∧
    seen (fun t => t.rqMsn == 1) (exec .rqConsume { State.reset with rq := ⟨1, 1, 0⟩ }) = some false ∧
    seen (fun t => t.cqCidxInc == 4) (exec (.cqArm 0) { State.reset with cqCidxInc := 4 }) = some false ∧
    seen (fun t => (t.cqError, t.history.length)) (exec .cqNext (withSlot0 (recV 7))) = some (1, 1) ∧
    seen (fun t => t.readByte 0x1080D) (exec .wqDisableDb State.reset) = some 1 ∧
    seen State.fault (exec .sqConsume State.reset) = some latched.fault := by decide

/-- Each sentinel byte changed by a writer of its own, and bytes the Adapter wrote inside a command. -/
theorem witness_OnlyListedWritersChangeState_bytes : exCfg.wf = true ∧
    seen (fun t => (t.readByte exCfg.sqErr, t.readByte exCfg.rqErr)) (exec .wqSetError State.reset) =
      some (1, 1) ∧
    seen (fun t => t.readByte exCfg.rqDboff) (exec .wqDisableDb State.reset) = some 1 ∧
    seen (fun t => t.readByte exCfg.sqDboff) (exec .wqEnableDb { State.reset with mem := [(0x1080D, 1)] }) =
      some 0 ∧
    seen (fun t => t.readByte exCfg.cqErr) (exec .cqSetError State.reset) = some 1 ∧
    seen (fun t => t.readByte exCfg.cqErr) (exec .cqClearError { State.reset with mem := [(0x3008C, 1)] }) =
      some 0 ∧
    seen (fun t => (t.readByte exCfg.cqErr, t.readByte 0x30000))
      (exec .wqDisableDb (waiting [.adapterInside (.setErr .cq 9), .adapterInside (.cqe 0 recX0)])) =
      some (9, 0x12) := by decide

theorem witness_OnlyListedWritersChangeState_other :
    0x30000 ∉ [exCfg.sqErr, exCfg.rqErr, exCfg.cqErr, exCfg.sqDboff, exCfg.rqDboff] := by decide

theorem witness_OtherCommandsIgnoreMemory : accessesMemory (.ringSqDb 1) = false ∧
    accessesMemory .cqNext = true ∧ (seen State.mem (exec (.ringSqDb 1) State.reset)).isSome = true := by decide

/-! ## Witnesses: reset and invariants -/

theorem witness_ResetSetsEveryRegister : exCfg.wf = true ∧ ({ exCfg with nSq := 0 } : Cfg).wf = false := by
  decide

theorem witness_BadConfigAcceptsNoCommand : ({ exCfg with sentErrOff := 13 } : Cfg).wf = false := by decide

theorem witness_ResetEventPreparesMemory :
    (waiting [.host (.reset exCfg true)]).inputs = .host (.reset exCfg true) :: [] ∧
    (waiting [.host (.reset exCfg false)]).inputs = .host (.reset exCfg false) :: [] ∧
    exCfg.cqRegion.Has 0x3009F ∧ ¬ exCfg.cqRegion.Has 0x300A0 := by decide

theorem witness_ResetMeetsInvariant : Memory.wf [(5, 1), (2 ^ 64 - 1, 255)] := by decide

/-- A state a run reaches, with full rings that have wrapped. -/
def busy : State :=
  { State.reset with sq := ⟨7, 3, 4⟩, swq := ⟨4, 3, 3⟩, mem := [(0x1080C, 1)] }

theorem witness_StepKeepsInvariant : Inv (waiting [.command ⟨0x01000000, none⟩]) ∧
    Inv busy ∧
    seen State.sq (step (waiting [.command ⟨0x01000000, none⟩])) = some ⟨1, 1, 0⟩ := by
  refine ⟨⟨by decide, fun _ => by decide, fun h => absurd h (by decide)⟩,
    ⟨by decide, fun _ => by decide, fun h => absurd h (by decide)⟩, by decide⟩

theorem witness_StepKeepsDboffBytesEqual : exCfg.wf = true ∧
    DboffAgree (waiting [.command ⟨0x12000000, none⟩, .adapterInside (.setErr .sq 1)]) ∧
    nextIsReset (waiting [.command ⟨0x12000000, none⟩, .adapterInside (.setErr .sq 1)]) = false ∧
    seen (fun t => (t.readByte 0x1080D, t.readByte 0x2020D))
      (step (waiting [.command ⟨0x12000000, none⟩, .adapterInside (.setErr .sq 1)])) = some (1, 1) := by decide

/-- A state in which every flag of the statement is set, and a step from it. -/
theorem witness_ErrorFlagsStaySet :
    (fun s : State => s.cfg.wf = true ∧ nextIsReset s = false ∧ s.readByte s.cfg.sqErr ≠ 0 ∧
      s.readByte s.cfg.rqErr ≠ 0 ∧ s.readByte s.cfg.cqErr ≠ 0 ∧ s.cqError = 1 ∧ s.wqSwError = 1 ∧
      (seen State.cqError (step s)).isSome = true)
    { waiting [.command ⟨0x29000000, none⟩] with
      mem := [(0x1080C, 1), (0x2020C, 2), (0x3008C, 3)], cqError := 1, wqSwError := 1 } := by decide

theorem witness_ErrorFlagsStaySet_no_clear : ∀ r rest,
    (waiting [.command ⟨0x29000000, none⟩]).inputs ≠ .command ⟨0x2A000000, r⟩ :: rest := by
  intro r rest h
  simp [waiting, State.later] at h

theorem witness_BlockAccessesAreAligned : exCfg.wf = true ∧ 3 < exCfg.nCq ∧
    exCfg.slotCq 3 = exCfg.slotCq 3 ∧ exCfg.slotSw 0 = exCfg.slotSw 0 := by decide

/-! ## Witnesses: rings and doorbells, each clause at its boundary -/

/-- Full at 7, one below full, empty and one above empty. -/
theorem witness_SqProduceAddsOneOrFaults : State.reset.fault = none ∧ State.reset.cfg.nSq - 1 = 7 ∧
    (7 : Half).toNat = exCfg.nSq - 1 ∧ (6 : Half).toNat ≠ exCfg.nSq - 1 := by decide

theorem witness_SqConsumeTakesOneOrFaults : State.reset.fault = none ∧ State.reset.sq.inUse = 0 ∧
    ({ State.reset with sq := ⟨1, 0, 7⟩ } : State).sq.inUse ≠ 0 := by decide

theorem witness_RqProduceAddsOneOrFaults : State.reset.fault = none ∧
    ({ State.reset with rq := ⟨3, 3, 0⟩ } : State).rq.inUse.toNat = exCfg.nRq - 1 ∧
    ({ State.reset with rq := ⟨2, 3, 1⟩ } : State).rq.inUse.toNat ≠ exCfg.nRq - 1 := by decide

theorem witness_RqConsumeTakesOneAndCountsOrFaults : State.reset.fault = none ∧ State.reset.rq.inUse = 0 ∧
    ({ State.reset with rq := ⟨1, 0, 3⟩ } : State).rq.inUse ≠ 0 := by decide

theorem witness_SqQueriesAnswerOccupancy : State.reset.fault = none ∧
    ({ State.reset with sq := ⟨7, 7, 0⟩ } : State).sq.inUse.toNat ≤ exCfg.nSq - 1 ∧
    ({ State.reset with sq := ⟨0, 7, 7⟩ } : State).sq.inUse.toNat ≤ exCfg.nSq - 1 := by decide

theorem witness_RqQueriesAnswerOccupancy : State.reset.fault = none ∧
    ({ State.reset with rq := ⟨3, 3, 0⟩ } : State).rq.inUse.toNat ≤ exCfg.nRq - 1 ∧
    ({ State.reset with rq := ⟨0, 3, 3⟩ } : State).rq.inUse.toNat ≤ exCfg.nRq - 1 := by decide

/-- 4095 entries fit, 4096 do not. -/
theorem witness_RingSqDbFencesThenWritesOrFaults : State.reset.fault = none ∧
    2 ^ exCfg.pidxWidth ≤ (4096 : Half).toNat * exCfg.sqStride ∧
    (4095 : Half).toNat * exCfg.sqStride < 2 ^ exCfg.pidxWidth ∧
    (0 : Half).toNat * exCfg.sqStride < 2 ^ exCfg.pidxWidth := by decide

/-- 8191 entries fit, 8192 do not. -/
theorem witness_RingRqDbFencesThenWritesOrFaults : State.reset.fault = none ∧
    2 ^ exCfg.pidxWidth ≤ (8192 : Half).toNat * exCfg.rqStride ∧
    (8191 : Half).toNat * exCfg.rqStride < 2 ^ exCfg.pidxWidth := by decide

theorem witness_DoorbellWordHoldsBothFields : exCfg.wf = true ∧ 16383 < 2 ^ exCfg.pidxWidth := by decide

theorem witness_ArmWordHoldsItsFields : exCfg.wf = true ∧ (4095 : Word).toNat < 2 ^ exCfg.armCidxincWidth := by
  decide

theorem witness_RingRegistersCountProducesAndConsumes : exCfg.wf = true ∧
    seen (fun t => (t.fault, t.sq, t.rq, t.rqMsn))
      (execAll [.sqProduce, .sqProduce, .rqProduce, .sqConsume, .rqConsume] (State.resetWith exCfg [] [])) =
      some (none, ⟨1, 2, 1⟩, ⟨0, 1, 1⟩, 2) := by decide

/-- `POST_SQ #7` into an empty ring of 8, `POST_RQ #3` and `POST_RQ #0` into one of 4. -/
theorem witness_PseudoInstructionsStandForTheirCommands : State.reset.fault = none ∧ exCfg.wf = true ∧
    RegsOk State.reset ∧
    assembleLine "POST_SQ" (.number (7 : Half).toNat) = some (List.replicate 7 .sqProduce ++ [.ringSqDb 7]) ∧
    State.reset.sq.inUse.toNat + (7 : Half).toNat ≤ exCfg.nSq - 1 ∧
    (7 : Half).toNat * exCfg.sqStride < 2 ^ exCfg.pidxWidth ∧
    assembleLine "POST_RQ" (.number (3 : Half).toNat) = some (List.replicate 3 .rqProduce ++ [.ringRqDb 3]) ∧
    assembleLine "POST_RQ" (.number (0 : Half).toNat) = some [.ringRqDb 0] ∧
    State.reset.rq.inUse.toNat + (3 : Half).toNat ≤ exCfg.nRq - 1 ∧
    (3 : Half).toNat * exCfg.rqStride < 2 ^ exCfg.pidxWidth := by decide

/-! ## Witnesses: sentinels -/

theorem witness_WqSentinelCommandsWriteBothRings : State.reset.fault = none ∧
    ∀ e rest, State.reset.inputs ≠ .adapterInside e :: rest :=
  ⟨by decide, fun _ _ h => nomatch h⟩

/-- Two Adapter events inside, an ordinary one after them. -/
theorem witness_AdapterMayActBetweenTheTwoSentinelWrites :
    (waiting [.adapterInside (.setErr .sq 1), .adapterInside (.cqeTrailer 3 5),
      .adapter (.setErr .cq 1)]).fault = none ∧
    (waiting [.adapterInside (.setErr .sq 1), .adapterInside (.cqeTrailer 3 5),
      .adapter (.setErr .cq 1)]).inputs =
      [AdapterEvent.setErr .sq 1, .cqeTrailer 3 5].map .adapterInside ++ [.adapter (.setErr .cq 1)] ∧
    (∀ e ∈ [AdapterEvent.setErr .sq 1, .cqeTrailer 3 5], adapterMay exCfg e = true) := by decide

theorem witness_AdapterMayActBetweenTheTwoSentinelWrites_rest : ∀ e r,
    [Input.adapter (.setErr .cq 1)] ≠ .adapterInside e :: r := by
  intro e r h
  simp at h

/-! ## Witnesses: completion queue -/

theorem witness_CqHwConsumeAdvancesOrFaults : State.reset.fault = none ∧
    (0xFFFFFFFF : Word).toNat = 2 ^ 32 - 1 ∧ (0xFFFFFFFE : Word).toNat ≠ 2 ^ 32 - 1 ∧
    ({ State.reset with cqCidx := 3 } : State).cqCidx.toNat + 1 = exCfg.nCq ∧
    ({ State.reset with cqCidx := 2 } : State).cqCidx.toNat + 1 ≠ exCfg.nCq := by decide

/-- Nine consumes: two laps and one. -/
theorem witness_GenerationBitAlternatesEachLap : exCfg.wf = true ∧ State.reset.cqCidx = 0 ∧
    seen (fun t => (t.fault, t.cqCidx, t.cqGen)) (execAll (List.replicate 9 .cqHwConsume) State.reset) =
      some (none, 1, 1) := by decide

/-- The three clauses: a valid record, a later timestamp, an equal one. -/
theorem witness_CqNextHwReturnsOverflowsOrHasNoData : State.reset.fault = none ∧
    (recV 0x8000000000000005).trailer.toNat / 2 ^ 63 = State.reset.cqGen.toNat ∧
    hwRecord (withSlot0 (recV 0x8000000000000005)) = recV 0x8000000000000005 ∧
    (recV 6).trailer.toNat / 2 ^ 63 ≠ State.reset.cqGen.toNat ∧
    (5 : BitVec 60).toNat < (recV 6).trailer.toNat % 2 ^ 60 ∧
    (recV 5).trailer.toNat % 2 ^ 60 ≤ (5 : BitVec 60).toNat := by decide

theorem witness_CqNextSwReturnsHeadOrHasNoData : State.reset.fault = none ∧ State.reset.swq.inUse = 0 ∧
    ({ State.reset with swq := ⟨4, 0, 0⟩ } : State).swq.inUse ≠ 0 := by decide

theorem witness_CqNextPrefersErrorThenAuxiliaryThenHardware : State.reset.fault = none ∧
    ({ State.reset with cqError := 1 } : State).cqError = 1 ∧ State.reset.cqError ≠ 1 ∧
    State.reset.swq.inUse = 0 ∧ ({ State.reset with swq := ⟨1, 1, 0⟩ } : State).swq.inUse ≠ 0 := by decide

/-- An overflow, then an arm and a poll. -/
theorem witness_OverflowMakesEveryLaterPollNoData : (withSlot0 (recV 7)).fault = none ∧
    seen State.responses (exec .cqNextHw (withSlot0 (recV 7))) =
      some ((withSlot0 (recV 7)).responses ++ [⟨.overflow, 0, none, .none⟩]) ∧
    seen (fun t => (t.fault, t.cqError)) (execAll [.cqNextHw, .cqArm 0, .cqNextHw] (withSlot0 (recV 7))) =
      some (none, 1) := by decide

theorem witness_CqSwProduceAddsOneOrFaults : State.reset.fault = none ∧
    ({ State.reset with swq := ⟨4, 0, 0⟩ } : State).swq.inUse.toNat = exCfg.nCq ∧
    ({ State.reset with swq := ⟨3, 3, 0⟩ } : State).swq.inUse.toNat ≠ exCfg.nCq := by decide

theorem witness_CqSwConsumeTakesOneOrFaults : State.reset.fault = none ∧ State.reset.swq.inUse = 0 ∧
    ({ State.reset with swq := ⟨1, 0, 3⟩ } : State).swq.inUse ≠ 0 := by decide

/-- A full auxiliary ring that wraps. -/
theorem witness_AuxiliaryRecordsDrainInOrder :
    (fun s : State => s.fault = none ∧ s.cfg.wf = true ∧ RegsOk s ∧ s.cqError = 0 ∧ 4 ≤ s.swq.inUse.toNat)
    { State.reset with swq := ⟨4, 2, 2⟩ } := by decide

theorem witness_CqArmWritesAndClearsIncrementOrFaults : State.reset.fault = none ∧
    2 ^ exCfg.armCidxincWidth ≤ ({ State.reset with cqCidxInc := 4096 } : State).cqCidxInc.toNat ∧
    ({ State.reset with cqCidxInc := 4095 } : State).cqCidxInc.toNat < 2 ^ exCfg.armCidxincWidth := by decide

/-- The records of the protocol's witnesses: the timestamp is one more than the position, the generation bit
is 1 on the first lap of 4 and 0 on the second. -/
def written (k : Nat) : Cqe :=
  recV (BitVec.ofNat 64 ((if k / 4 % 2 = 0 then 2 ^ 63 else 0) + k + 1))

/-- The second lap has overwritten slot 0 before the Host consumed anything. -/
def lapped : State :=
  { State.reset with
    mem := [1, 2, 3, 4].foldl (fun m k => writeCqe exCfg m (exCfg.slotCq (k % 4)) (written k)) [] }

theorem written_rising (j k : Nat) (h : j < k) (hk : k < 5) :
    (Cqe.ts (written j)).toNat < (Cqe.ts (written k)).toNat := by
  interval_cases k <;> interval_cases j <;> decide

/-- `c < m`: one record written, none consumed. -/
theorem witness_GenerationProtocolIsSound : (withSlot0 (written 0)).fault = none ∧ exCfg.wf = true ∧
    AdapterWrote (withSlot0 (written 0)) written 1 ∧ HostConsumed (withSlot0 (written 0)) written 0 ∧
    0 < 1 ∧ 1 ≤ 0 + exCfg.nCq := by
  refine ⟨by decide, by decide, ⟨by decide, fun j k h hk => by omega, ?_, by decide⟩,
    ⟨by decide, by decide, fun _ => by decide, fun k h => by omega⟩, by decide, by decide⟩
  intro i hi _
  change i < 4 at hi
  interval_cases i <;> first | omega | decide

/-- The Adapter has filled the ring before the Host consumed anything. -/
def filled : State :=
  { State.reset with
    mem := [0, 1, 2, 3].foldl (fun m k => writeCqe exCfg m (exCfg.slotCq k) (written k)) [] }

/-- `m = c + N_CQ`: the last value of the first case. -/
theorem witness_GenerationProtocolIsSound_full : filled.fault = none ∧ AdapterWrote filled written 4 ∧
    HostConsumed filled written 0 ∧ 4 ≤ 0 + exCfg.nCq := by
  refine ⟨by decide, ⟨by decide, fun j k h hk => written_rising j k h (by omega), fun i hi h => ?_, ?_⟩,
    ⟨by decide, by decide, fun _ => by decide, fun k h => by omega⟩, by decide⟩
  · change i < 4 at hi; omega
  · intro k hk _
    interval_cases k <;> decide +kernel

/-- `c = m`: nothing written yet. -/
theorem witness_GenerationProtocolIsSound_nodata : AdapterWrote State.reset written 0 ∧
    HostConsumed State.reset written 0 := by
  refine ⟨⟨by decide, fun j k h hk => by omega, ?_, by decide⟩,
    ⟨by decide, by decide, fun _ => by decide, fun k h => by omega⟩⟩
  intro i hi _
  change i < 4 at hi
  interval_cases i <;> decide

/-- `c + N_CQ < m`: the Adapter has lapped the Host. -/
theorem witness_GenerationProtocolIsSound_overflow : lapped.fault = none ∧ AdapterWrote lapped written 5 ∧
    HostConsumed lapped written 0 ∧ 0 + exCfg.nCq < 5 ∧ 5 ≤ 0 + 2 * exCfg.nCq := by
  refine ⟨by decide, ⟨by decide, written_rising, fun i hi h => ?_, ?_⟩,
    ⟨by decide, by decide, fun _ => by decide, fun k h => by omega⟩, by decide, by decide⟩
  · change i < 4 at hi; omega
  · intro k hk h
    have h1 : 1 ≤ k := by change 5 ≤ k + 4 at h; omega
    interval_cases k <;> decide +kernel

/-- The Adapter writes record 0 inside a command and record 1 after it. -/
theorem witness_StepKeepsCompletionsInOrder :
    (fun s : State => CompletionsInOrder s written 0 0 0 ∧ AdapterInOrder s.cfg written s.inputs 0 ∧
      0 ≤ 0 + 2 * s.cfg.nCq ∧ nextIsReset s = false ∧
      seen (fun t => (slotRecord t 0, t.inputs.length)) (step s) = some (written 0, 1))
    (waiting [.command ⟨0x11000000, none⟩, .adapterInside (.cqe 0 (written 0)),
      .adapter (.cqe 1 (written 1))]) := by
  refine ⟨⟨⟨by decide, fun j k h hk => by omega, ?_, by decide⟩,
    ⟨by decide, by decide, fun _ => by decide, fun k h => by omega⟩, by decide, by decide, by decide⟩,
    ?_, by decide, by decide, by decide⟩
  · intro i hi _
    change i < 4 at hi
    interval_cases i <;> decide
  · refine ⟨by decide, rfl, by decide, fun j h => by omega, by decide, rfl, by decide, fun j h => ?_, trivial⟩
    exact written_rising j 1 h (by decide)

/-- A consume after a valid poll of record 0. -/
theorem witness_StepKeepsCompletionsInOrder_consume :
    (fun s : State => CompletionsInOrder s written 1 0 1 ∧ AdapterInOrder s.cfg written s.inputs 1 ∧
      s.inputs = .command ⟨0x20000000, none⟩ :: [] ∧
      seen State.cqCidx (step s) = some 1)
    ({ withSlot0 (written 0) with cqLastTs := 1 }.later [.command ⟨0x20000000, none⟩]) := by
  refine ⟨⟨⟨by decide, fun j k h hk => by omega, ?_, by decide⟩,
    ⟨by decide, by decide, fun h => by omega, fun k h => ?_⟩, by decide, by decide, by decide⟩,
    trivial, rfl, by decide⟩
  · intro i hi _
    change i < 4 at hi
    interval_cases i <;> first | omega | decide
  · obtain rfl : k = 0 := by omega
    decide

/-! ## Witnesses: the Adapter and the Host -/

theorem witness_AdapterSetErrWritesOneByte : (0x80 : Byte) ≠ 0 ∧
    (waiting [.adapter (.setErr .cq 0x80)]).inputs = .adapter (.setErr .cq 0x80) :: [] := by decide

/-- The last slot, the three events. -/
theorem witness_AdapterRecordReadsBackFromItsSlot : exCfg.wf = true ∧ 3 < exCfg.nCq ∧
    (waiting [.adapter (.cqe 3 recX0)]).inputs = .adapter (.cqe 3 recX0) :: [] ∧
    (waiting [.adapter (.cqeBody 3 1 2 3 4)]).inputs = .adapter (.cqeBody 3 1 2 3 4) :: [] ∧
    (waiting [.adapter (.cqeTrailer 3 9)]).inputs = .adapter (.cqeTrailer 3 9) :: [] := by decide

theorem witness_HostMovesWriteOnlyTheirPlace : exCfg.wf = true ∧
    (waiting [.host .setWqSwError]).inputs = .host .setWqSwError :: [] ∧ 3 < exCfg.nCq ∧
    (waiting [.host (.swWrite 3 recX0)]).inputs = .host (.swWrite 3 recX0) :: [] ∧ 7 < exCfg.nSq ∧
    256 ≤ exCfg.sqStride * exCfg.slotBytes ∧ 3 < exCfg.nRq ∧
    128 ≤ exCfg.rqStride * exCfg.slotBytes := by decide

end Sys2Proof.Machine
end

section
/-!
PROOF. The scope of a command (R8, R21, R26): the configuration and `wq.sw_error` stay, `H` and the responses
grow at their end. What a command does short of answering is read off `Effect`, one case per shape of effect.
-/
namespace Sys2Proof.Machine

/-- Before its response is added, a command has left `wq.sw_error` and the responses alone and has at most
appended to `H` (R21, R26). -/
theorem Effect.keeps_wqSwError_responses_and_extends_history {i : Instr} {s s' : State} (h : Effect i s s') :
    s'.wqSwError = s.wqSwError ∧ s'.responses = s.responses ∧ s.history <+: s'.history := by
  cases i <;> simp only [Effect] at h
  case sqProduce | sqConsume | rqProduce | rqConsume | cqSwProduce | cqSwConsume =>
    obtain ⟨-, rfl⟩ := h
    exact ⟨rfl, rfl, List.prefix_rfl⟩
  case ringSqDb | ringRqDb | cqArm =>
    obtain ⟨v, rfl⟩ := h
    simp
  case cqNextHw | cqNext =>
    obtain rfl | ⟨ts, rfl⟩ | rfl := h
    · exact ⟨rfl, rfl, List.prefix_rfl⟩
    · exact ⟨rfl, rfl, List.prefix_rfl⟩
    · simp
  all_goals
    subst h
    simp

/-- Settles O11: a latched Block changes nothing, a fault sets only the latch, and any other command has its
effect and then appends one response. -/
theorem commandsKeepConfigAndOnlyAppend : Obligations.CommandsKeepConfigAndOnlyAppend := by
  unfold Obligations.CommandsKeepConfigAndOnlyAppend
  intro i s t h
  refine ⟨exec_cfg i s t h, ?_⟩
  by_cases hf : s.fault = none
  · obtain ⟨reason, info, rfl⟩ | ⟨r, s', rfl, he⟩ := exec_cases i s t hf h
    · simp
    · obtain ⟨hsw, hresp, hhist⟩ := he.keeps_wqSwError_responses_and_extends_history
      exact ⟨hsw, hhist, by simp [hresp]⟩
  · rw [exec_of_latched i s hf] at h
    cases h
    exact ⟨rfl, List.prefix_rfl, List.prefix_rfl⟩

end Sys2Proof.Machine
end

section
/-!
PROOF. What an accepted command writes, register by register (R27's writers column), said once of every command.
The invariant (R30, R31), the two `.dboff` bytes (R32) and the writers column itself are read off it.
-/
namespace Sys2Proof.Machine

/-- The rows of R27 for command `i` taking `s` to `t`: each register stays, or `i` is a listed writer of it and
does to it what the command's pseudocode says. -/
structure WritesListed (i : Instr) (s t : State) : Prop where
  cfg : t.cfg = s.cfg
  wqSwError : t.wqSwError = s.wqSwError
  sq : t.sq = s.sq ∨
    (i = .sqProduce ∧ s.sq.inUse.toNat ≠ s.cfg.nSq - 1 ∧ t.sq = Ring.produce s.cfg.nSq s.sq) ∨
    (i = .sqConsume ∧ s.sq.inUse ≠ 0 ∧ t.sq = Ring.consume s.cfg.nSq s.sq)
  rq : t.rq = s.rq ∨
    (i = .rqProduce ∧ s.rq.inUse.toNat ≠ s.cfg.nRq - 1 ∧ t.rq = Ring.produce s.cfg.nRq s.rq) ∨
    (i = .rqConsume ∧ s.rq.inUse ≠ 0 ∧ t.rq = Ring.consume s.cfg.nRq s.rq)
  swq : t.swq = s.swq ∨
    (i = .cqSwProduce ∧ s.swq.inUse.toNat ≠ s.cfg.nCq ∧ t.swq = Ring.produce s.cfg.nCq s.swq) ∨
    (i = .cqSwConsume ∧ s.swq.inUse ≠ 0 ∧ t.swq = Ring.consume s.cfg.nCq s.swq)
  rqMsn : t.rqMsn = s.rqMsn ∨ i = .rqConsume
  cqCidx : t.cqCidx = s.cqCidx ∨ (i = .cqHwConsume ∧ t.cqCidx = incMod s.cqCidx s.cfg.nCq)
  cqGen : t.cqGen = s.cqGen ∨ i = .cqHwConsume
  cqCidxInc : t.cqCidxInc = s.cqCidxInc ∨ i = .cqHwConsume ∨ ∃ se, i = .cqArm se
  cqLastTs : t.cqLastTs = s.cqLastTs ∨ i = .cqNextHw ∨ i = .cqNext
  cqError : t.cqError = s.cqError ∨ (t.cqError = 1 ∧ (i = .cqNextHw ∨ i = .cqNext))
  history : t.history = s.history ∨
    (∃ n, i = .ringSqDb n ∨ i = .ringRqDb n) ∨ (∃ se, i = .cqArm se) ∨ i = .cqNextHw ∨ i = .cqNext
  mem : t.mem = s.mem ∨
    (i = .wqSetError ∧ t.mem = (writeBoth s.cfg.sqErr s.cfg.rqErr setByte s).mem) ∨
    (i = .wqDisableDb ∧ t.mem = (writeBoth s.cfg.sqDboff s.cfg.rqDboff setByte s).mem) ∨
    (i = .wqEnableDb ∧ t.mem = (writeBoth s.cfg.sqDboff s.cfg.rqDboff clearByte s).mem) ∨
    (i = .cqSetError ∧ t.mem = Memory.write s.mem s.cfg.cqErr setByte) ∨
    (i = .cqClearError ∧ t.mem = Memory.write s.mem s.cfg.cqErr clearByte)

/-- A command that changes nothing writes only what is listed. -/
theorem WritesListed.refl (i : Instr) (s : State) : WritesListed i s s := by
  constructor <;> simp

/-- What a command does short of answering is listed, and the latch stays. -/
theorem Effect.writesListed {i : Instr} {s s' : State} (h : Effect i s s') :
    WritesListed i s s' ∧ s'.fault = s.fault := by
  cases i <;> simp only [Effect] at h
  case sqProduce | rqProduce | cqSwProduce =>
    obtain ⟨hroom, rfl⟩ := h
    exact ⟨by constructor <;> simp [hroom], rfl⟩
  case sqConsume | rqConsume | cqSwConsume =>
    obtain ⟨hsome, rfl⟩ := h
    exact ⟨by constructor <;> simp [show _ ≠ 0#16 from hsome], rfl⟩
  case ringSqDb | ringRqDb | cqArm =>
    obtain ⟨v, rfl⟩ := h
    exact ⟨by constructor <;> simp, rfl⟩
  case cqNextHw | cqNext =>
    obtain rfl | ⟨ts, rfl⟩ | rfl := h
    · exact ⟨.refl _ _, rfl⟩
    · exact ⟨by constructor <;> simp, rfl⟩
    · exact ⟨by constructor <;> simp, rfl⟩
  case cqHwConsume =>
    subst h
    exact ⟨by constructor <;> simp [hwAdvance_cqCidx], by simp⟩
  case wqSetError | wqDisableDb | wqEnableDb | cqSetError | cqClearError =>
    subst h
    exact ⟨by constructor <;> simp, by simp⟩
  all_goals
    subst h
    exact ⟨.refl _ _, rfl⟩

/-- Every command writes only what is listed: one that is dropped or faults changes at most the latch, and the
responses are no row of R27. -/
theorem exec_writesListed {i : Instr} {s t : State} (h : exec i s = .next t) : WritesListed i s t := by
  by_cases hf : s.fault = none
  · obtain ⟨reason, info, rfl⟩ | ⟨r, s', rfl, he⟩ := exec_cases i s t hf h
    · exact { WritesListed.refl i s with }
    · exact { he.writesListed.1 with }
  · rw [exec_of_latched i s hf] at h
    cases h
    exact .refl i s

/-- The latch is set on an unlatched Block only, and by a command that gives no response (R128). -/
theorem exec_changes_fault {i : Instr} {s t : State} (h : exec i s = .next t) (hne : t.fault ≠ s.fault) :
    s.fault = none ∧ t.responses = s.responses := by
  by_cases hf : s.fault = none
  · obtain ⟨reason, info, rfl⟩ | ⟨r, s', rfl, he⟩ := exec_cases i s t hf h
    · exact ⟨hf, rfl⟩
    · exact absurd he.writesListed.2 hne
  · rw [exec_of_latched i s hf] at h
    cases h
    exact absurd rfl hne

end Sys2Proof.Machine
end

section
/-!
PROOF. The invariant `Inv` (R27, R30, R31, R129): it holds after a reset and every step keeps it.
-/
namespace Sys2Proof.Machine

/-! ## One ring -/

/-- The common form of R30 and R31: the registers of a ring of size `n` that may hold up to `limit` entries. -/
abbrev RingWithin (limit n : Nat) (r : Ring) : Prop :=
  r.inUse.toNat ≤ limit ∧ r.pidx.toNat < n ∧ r.cidx.toNat < n ∧
  r.pidx.toNat = (r.cidx.toNat + r.inUse.toNat) % n

/-- An index step stays below the ring's size. -/
theorem incMod_lt {x : Half} {n : Nat} (hx : x.toNat < n) (hn : n ≤ 65535) : (incMod x n).toNat < n := by
  rw [incMod_toNat x n hx hn]
  exact Nat.mod_lt _ (by omega)

/-- Below its limit a ring takes one entry more and stays legal. -/
theorem RingWithin.produce {limit n : Nat} {r : Ring} (h : RingWithin limit n r) (hl : limit ≤ n)
    (hn : n ≤ 65535) (hroom : r.inUse.toNat ≠ limit) : RingWithin limit n (Ring.produce n r) := by
  obtain ⟨huse, hp, hc, hpidx⟩ := h
  have huse' : (r.inUse + 1).toNat = r.inUse.toNat + 1 := by bv_omega
  refine ⟨by simp only [Ring.produce]; omega, incMod_lt hp hn, hc, ?_⟩
  simp only [Ring.produce, huse', incMod_toNat _ _ hp hn, hpidx, Nat.mod_add_mod, Nat.add_assoc]

/-- A ring that holds an entry gives one up and stays legal. -/
theorem RingWithin.consume {limit n : Nat} {r : Ring} (h : RingWithin limit n r) (hn : n ≤ 65535)
    (hsome : r.inUse ≠ 0) : RingWithin limit n (Ring.consume n r) := by
  obtain ⟨huse, hp, hc, hpidx⟩ := h
  have huse' : (r.inUse - 1).toNat + 1 = r.inUse.toNat := by bv_omega
  refine ⟨by simp only [Ring.consume]; omega, hp, incMod_lt hc hn, ?_⟩
  simp only [Ring.consume, incMod_toNat _ _ hc hn, hpidx, Nat.mod_add_mod, ← huse']
  congr 1
  omega

/-! ## Commands -/

/-- A command keeps the index and occupancy registers legal. -/
theorem WritesListed.regsOk {i : Instr} {s t : State} (h : WritesListed i s t) (hw : s.cfg.wf = true)
    (hr : RegsOk s) : RegsOk t := by
  obtain ⟨hsq1, hsq, hrq1, hrq, hcq1, hcq, -⟩ := Cfg.sizesOk hw
  obtain ⟨rsq, rrq, rswq, rcidx⟩ := hr
  unfold RegsOk
  rw [h.cfg]
  refine ⟨?_, ?_, ?_, ?_⟩
  · rcases h.sq with e | ⟨-, hroom, e⟩ | ⟨-, hsome, e⟩ <;> rw [e]
    · exact rsq
    · exact RingWithin.produce rsq (Nat.sub_le _ _) hsq hroom
    · exact RingWithin.consume rsq hsq hsome
  · rcases h.rq with e | ⟨-, hroom, e⟩ | ⟨-, hsome, e⟩ <;> rw [e]
    · exact rrq
    · exact RingWithin.produce rrq (Nat.sub_le _ _) hrq hroom
    · exact RingWithin.consume rrq hrq hsome
  · rcases h.swq with e | ⟨-, hroom, e⟩ | ⟨-, hsome, e⟩ <;> rw [e]
    · exact rswq
    · exact RingWithin.produce rswq le_rfl hcq hroom
    · exact RingWithin.consume rswq hcq hsome
  · rcases h.cqCidx with e | ⟨-, e⟩ <;> rw [e]
    · exact rcidx
    · exact incMod_lt rcidx hcq

/-- A command keeps memory in canonical form. -/
theorem WritesListed.mem_wf {i : Instr} {s t : State} (h : WritesListed i s t) (hm : Memory.wf s.mem) :
    Memory.wf t.mem := by
  rcases h.mem with e | ⟨-, e⟩ | ⟨-, e⟩ | ⟨-, e⟩ | ⟨-, e⟩ | ⟨-, e⟩ <;> rw [e]
  · exact hm
  · exact writeBoth_wf _ _ _ _ hm
  · exact writeBoth_wf _ _ _ _ hm
  · exact writeBoth_wf _ _ _ _ hm
  · exact Memory.write_wf _ _ _ hm
  · exact Memory.write_wf _ _ _ hm

/-- The invariant says nothing of the events still to happen. -/
theorem Inv.later {s : State} (h : Inv s) (rest : List Input) : Inv (s.later rest) := h

/-- A latched Block drops the command; on any other the configuration is well formed, so the registers and
memory are all there is to keep. -/
theorem exec_keeps_inv {i : Instr} {s t : State} (hi : Inv s) (h : exec i s = .next t) : Inv t := by
  by_cases hf : s.fault = none
  · obtain ⟨hm, hregs, hbad⟩ := hi
    have hwf : s.cfg.wf = true := by
      by_contra hw
      simp [hbad (by simpa using hw)] at hf
    have hl := exec_writesListed h
    exact ⟨hl.mem_wf hm, fun _ => hl.regsOk hwf (hregs hwf), fun hw => by simp [hl.cfg, hwf] at hw⟩
  · rw [exec_of_latched i s hf] at h
    cases h
    exact hi

/-- An illegal command keeps the invariant: it is dropped, or it sets the latch of a Block whose latch was
clear and whose configuration is therefore well formed. -/
theorem illegal_keeps_inv {w : Word} {s t : State} (hi : Inv s)
    (h : accepted s (raise .illegalCmd w none s) = .next t) : Inv t := by
  rcases accepted_cases _ _ _ h with ⟨-, rfl⟩ | ⟨hf, h⟩
  · exact hi
  · obtain ⟨hm, hregs, hbad⟩ := hi
    cases h
    exact ⟨hm, hregs, fun hw => by simp [hbad hw] at hf⟩

/-! ## Reset and the moves of the Host and the Adapter -/

/-- A reset over canonical memory meets the invariant, whatever configuration it brings (R129, R143). -/
theorem resetWith_inv (c : Cfg) {m : Memory} (ins : List Input) (hm : Memory.wf m) :
    Inv (State.resetWith c m ins) := by
  refine ⟨hm, fun hw => ?_, fun hw => ?_⟩
  · obtain ⟨hsq, -, hrq, -, hcq, -⟩ := Cfg.sizesOk hw
    simp only [State.resetWith_cfg] at hsq hrq hcq
    simp [RegsOk, RingOk, AuxOk]
    omega
  · simp only [State.resetWith_cfg] at hw
    simp [hw, badConfigLatch]

/-- A Host move keeps the invariant: a reset meets it anew, every other move touches memory or
`wq.sw_error` only. -/
theorem hostEvent_inv {s : State} (e : HostEvent) (hi : Inv s) : Inv (s.hostEvent e) := by
  have hm := hostEvent_wf e s hi.1
  cases e with
  | setWqSwError => exact ⟨hm, hi.2⟩
  | swWrite i r => exact ⟨hm, hi.2⟩
  | descWrite q i bytes => exact ⟨hm, hi.2⟩
  | reset c prepared => exact resetWith_inv c _ hm

/-- An Adapter move touches memory only. -/
theorem adapterEvent_inv {s : State} (e : AdapterEvent) (hi : Inv s) : Inv (s.adapterEvent e) :=
  ⟨adapterWrites_wf _ _ _ hi.1, hi.2⟩

/-- Settles O17: `resetWith_inv`, of which the machine's own reset state is the case of empty memory. -/
theorem resetMeetsInvariant : Obligations.ResetMeetsInvariant := by
  unfold Obligations.ResetMeetsInvariant
  exact ⟨resetWith_inv _ _ ⟨List.Pairwise.nil, by simp⟩, fun c _ ins hm => resetWith_inv c ins hm⟩

/-- Settles O18: each kind of event keeps the invariant. -/
theorem stepKeepsInvariant : Obligations.StepKeepsInvariant := by
  unfold Obligations.StepKeepsInvariant
  intro s t hi h
  rcases step_cases s t h with ⟨-, rfl⟩ | ⟨c, rest, -, ⟨i, -, h⟩ | ⟨e, -, h⟩⟩ | ⟨e, rest, -, -, rfl⟩ |
    ⟨e, rest, -, -, rfl⟩
  · exact hi
  · exact exec_keeps_inv (hi.later rest) h
  · exact illegal_keeps_inv (hi.later rest) h
  · exact hostEvent_inv e (hi.later rest)
  · exact adapterEvent_inv e (hi.later rest)

end Sys2Proof.Machine
end

section
/-!
PROOF. The sentinel bytes: which bytes of memory a command changes (R27, R54), and that the two `.dboff` bytes
stay equal (R32).
-/
namespace Sys2Proof.Machine

theorem readByte_of_mem {s t : State} (h : t.mem = s.mem) (b : Addr) : t.readByte b = s.readByte b :=
  congrArg (Memory.read · b) h

theorem readByte_of_mem_write {s t : State} {a : Addr} {v : Byte} (h : t.mem = Memory.write s.mem a v)
    (b : Addr) : t.readByte b = if a = b then v else s.readByte b := by
  rw [State.readByte, h, Memory.read_write, State.readByte]

/-! ## The window of R54 and the two writes around it -/

/-- In the window the Adapter changes no byte outside the CQ slots but the `.err` bytes. -/
theorem readByte_window_of_not_err {s : State} (hw : s.cfg.wf = true) {b : Addr} (hb : s.cfg.OutsideSlots b)
    (hne : ∀ x, b ≠ errAddr s.cfg x) : s.window.readByte b = s.readByte b := by
  obtain h | ⟨x, hx, -⟩ := read_runInside s.inputs s hw b hb.cq
  · exact h
  · exact absurd hx (hne x)

/-- The window leaves the three `.dboff` bytes alone. -/
theorem readByte_window_dboff {s : State} (hw : s.cfg.wf = true) :
    s.window.readByte s.cfg.sqDboff = s.readByte s.cfg.sqDboff ∧
    s.window.readByte s.cfg.rqDboff = s.readByte s.cfg.rqDboff ∧
    s.window.readByte s.cfg.cqDboff = s.readByte s.cfg.cqDboff := by
  obtain ⟨-, hsq, -, hrq, -, hcq⟩ := Cfg.sentinels_outside hw
  exact ⟨readByte_window_of_not_err hw hsq fun x => (dboff_ne_errAddr hw x).1,
    readByte_window_of_not_err hw hrq fun x => (dboff_ne_errAddr hw x).2.1,
    readByte_window_of_not_err hw hcq fun x => (dboff_ne_errAddr hw x).2.2⟩

/-- The byte written last holds the value written. -/
theorem readByte_writeBoth_snd (p q : Addr) (v : Byte) (s : State) : (writeBoth p q v s).readByte q = v :=
  Memory.read_write_same _ _ _

/-- The byte written first holds the value written, unless the Adapter writes it in the window. -/
theorem readByte_writeBoth_fst {p q : Addr} {v : Byte} {s : State} (hpq : q ≠ p)
    (hwin : (s.writeByte p v).window.readByte p = (s.writeByte p v).readByte p) :
    (writeBoth p q v s).readByte p = v := by
  have hfst : (writeBoth p q v s).readByte p = (s.writeByte p v).window.readByte p :=
    Memory.read_write_other _ _ _ _ hpq
  rw [hfst, hwin]
  exact Memory.read_write_same _ _ _

/-- A byte that a sentinel command does not write is as the window left it, or as before. -/
theorem readByte_writeBoth_other {p q b : Addr} {v : Byte} {s : State} (hp : b ≠ p) (hq : b ≠ q)
    (hwin : s.window.readByte b = s.readByte b) : (writeBoth p q v s).readByte b = s.readByte b := by
  obtain ⟨h | h, -⟩ | h | h := readByte_writeBoth s p q v b
  · exact absurd h hp
  · exact absurd h hq
  · rw [h, hwin]
  · exact h

/-- What a sentinel command does to a byte: write it, leave it, or leave what an Adapter event waiting inside
the command wrote. -/
theorem readByte_writeBoth_cases (s : State) (p q : Addr) (v : Byte) (b : Addr) :
    ((b = p ∨ b = q) ∧ (writeBoth p q v s).readByte b = v) ∨
    (writeBoth p q v s).readByte b = s.readByte b ∨
    ((∃ e rest, s.inputs = .adapterInside e :: rest) ∧
      (writeBoth p q v s).readByte b = s.window.readByte b) := by
  obtain h | h | h := readByte_writeBoth s p q v b
  · exact .inl h
  · by_cases hin : ∃ e rest, s.inputs = .adapterInside e :: rest
    · exact .inr (.inr ⟨hin, h⟩)
    · push Not at hin
      rw [State.window_eq_self s hin] at h
      exact .inr (.inl h)
  · exact .inr (.inl h)

/-! ## Which bytes a command changes -/

/-- Command `i` writes the sentinel byte `b` with the value `v` (R87 to R89, R101, R102). -/
def BlockWrites (c : Cfg) (i : Instr) (b : Addr) (v : Byte) : Prop :=
  (i = .wqSetError ∧ (b = c.sqErr ∨ b = c.rqErr) ∧ v = 1) ∨
  (i = .wqDisableDb ∧ (b = c.sqDboff ∨ b = c.rqDboff) ∧ v = 1) ∨
  (i = .wqEnableDb ∧ (b = c.sqDboff ∨ b = c.rqDboff) ∧ v = 0) ∨
  (i = .cqSetError ∧ b = c.cqErr ∧ v = 1) ∨
  (i = .cqClearError ∧ b = c.cqErr ∧ v = 0)

/-- Every byte a command writes is a sentinel byte with writers in R27. -/
theorem BlockWrites.mem_sentinels {c : Cfg} {i : Instr} {b : Addr} {v : Byte} (h : BlockWrites c i b v) :
    b ∈ [c.sqErr, c.rqErr, c.cqErr, c.sqDboff, c.rqDboff] := by
  obtain ⟨-, rfl | rfl, -⟩ | ⟨-, rfl | rfl, -⟩ | ⟨-, rfl | rfl, -⟩ | ⟨-, rfl, -⟩ | ⟨-, rfl, -⟩ := h <;> simp

/-- A byte a command changed is one the command writes, or one the Adapter wrote inside it. -/
theorem WritesListed.readByte_cases {i : Instr} {s t : State} (h : WritesListed i s t) (b : Addr) :
    t.readByte b = s.readByte b ∨ BlockWrites s.cfg i b (t.readByte b) ∨ InsideAdapterWrote i s t b := by
  by_cases hsame : t.readByte b = s.readByte b
  · exact .inl hsame
  right
  have both : ∀ p q v, WritesBothSentinels i → t.mem = (writeBoth p q v s).mem →
      ((b = p ∨ b = q) ∧ t.readByte b = v) ∨ InsideAdapterWrote i s t b := by
    intro p q v hi hm
    have e := readByte_of_mem hm b
    obtain ⟨hb, hv⟩ | hs | ⟨hin, hwin⟩ := readByte_writeBoth_cases s p q v b
    · exact .inl ⟨hb, e.trans hv⟩
    · exact absurd (e.trans hs) hsame
    · exact .inr ⟨hi, hin, e.trans hwin⟩
  have cq : ∀ v, t.mem = Memory.write s.mem s.cfg.cqErr v → b = s.cfg.cqErr ∧ t.readByte b = v := by
    intro v hm
    have e := readByte_of_mem_write hm b
    split at e
    · exact ⟨Eq.symm ‹_›, e⟩
    · exact absurd e hsame
  rcases h.mem with e | ⟨hi, e⟩ | ⟨hi, e⟩ | ⟨hi, e⟩ | ⟨hi, e⟩ | ⟨hi, e⟩
  · exact absurd (readByte_of_mem e b) hsame
  · exact (both _ _ _ (.inl hi) e).imp_left fun hb => .inl ⟨hi, hb⟩
  · exact (both _ _ _ (.inr (.inl hi)) e).imp_left fun hb => .inr (.inl ⟨hi, hb⟩)
  · exact (both _ _ _ (.inr (.inr hi)) e).imp_left fun hb => .inr (.inr (.inl ⟨hi, hb⟩))
  · exact .inl (.inr (.inr (.inr (.inl ⟨hi, cq _ e⟩))))
  · exact .inl (.inr (.inr (.inr (.inr ⟨hi, cq _ e⟩))))

/-- Under a well-formed configuration each `.err` byte has its own writers, and `CQ_SENT.dboff` has none. -/
theorem blockWrites_iff {c : Cfg} (hw : c.wf = true) (i : Instr) (v : Byte) :
    (BlockWrites c i c.sqErr v ↔ i = .wqSetError ∧ v = 1) ∧
    (BlockWrites c i c.rqErr v ↔ i = .wqSetError ∧ v = 1) ∧
    (BlockWrites c i c.cqErr v ↔ (i = .cqSetError ∧ v = 1) ∨ (i = .cqClearError ∧ v = 0)) ∧
    ¬ BlockWrites c i c.cqDboff v := by
  have hnd := Cfg.sentinels_nodup hw
  simp only [List.nodup_cons, List.mem_cons, List.not_mem_nil, not_or, or_false, not_false_eq_true,
    List.nodup_nil, and_true] at hnd
  simp [BlockWrites, hnd, Ne.symm]

/-- What a command does to the two `.dboff` bytes: both stay, or both take the value written. -/
theorem WritesListed.readByte_dboff {i : Instr} {s t : State} (h : WritesListed i s t)
    (hw : s.cfg.wf = true) :
    (t.readByte s.cfg.sqDboff = s.readByte s.cfg.sqDboff ∧ t.readByte s.cfg.rqDboff = s.readByte s.cfg.rqDboff) ∨
    ∃ v, t.readByte s.cfg.sqDboff = v ∧ t.readByte s.cfg.rqDboff = v ∧
      ((i = .wqDisableDb ∧ v = 1) ∨ (i = .wqEnableDb ∧ v = 0)) := by
  obtain ⟨winSq, winRq, -⟩ := readByte_window_dboff hw
  obtain ⟨sq_ne_sqErr, rq_ne_sqErr, -⟩ := dboff_ne_errAddr hw .sq
  obtain ⟨sq_ne_rqErr, rq_ne_rqErr, -⟩ := dboff_ne_errAddr hw .rq
  obtain ⟨sq_ne_cqErr, rq_ne_cqErr, -⟩ := dboff_ne_errAddr hw .cq
  have sq_ne_rq : s.cfg.rqDboff ≠ s.cfg.sqDboff := by
    have hnd := Cfg.sentinels_nodup hw
    simp only [List.nodup_cons, List.mem_cons, not_or] at hnd
    obtain ⟨-, ⟨-, hne, -⟩, -⟩ := hnd
    exact Ne.symm hne
  have both : ∀ v, t.mem = (writeBoth s.cfg.sqDboff s.cfg.rqDboff v s).mem →
      t.readByte s.cfg.sqDboff = v ∧ t.readByte s.cfg.rqDboff = v := fun v e =>
    ⟨(readByte_of_mem e _).trans (readByte_writeBoth_fst sq_ne_rq
        (readByte_window_dboff (s := s.writeByte s.cfg.sqDboff v) hw).1),
      (readByte_of_mem e _).trans (readByte_writeBoth_snd _ _ _ _)⟩
  have cq : ∀ v, t.mem = Memory.write s.mem s.cfg.cqErr v →
      t.readByte s.cfg.sqDboff = s.readByte s.cfg.sqDboff ∧
      t.readByte s.cfg.rqDboff = s.readByte s.cfg.rqDboff := fun v e =>
    ⟨(readByte_of_mem_write e _).trans (if_neg sq_ne_cqErr.symm),
      (readByte_of_mem_write e _).trans (if_neg rq_ne_cqErr.symm)⟩
  rcases h.mem with e | ⟨hi, e⟩ | ⟨hi, e⟩ | ⟨hi, e⟩ | ⟨hi, e⟩ | ⟨hi, e⟩
  · exact .inl ⟨readByte_of_mem e _, readByte_of_mem e _⟩
  · exact .inl ⟨(readByte_of_mem e _).trans (readByte_writeBoth_other sq_ne_sqErr sq_ne_rqErr winSq),
      (readByte_of_mem e _).trans (readByte_writeBoth_other rq_ne_sqErr rq_ne_rqErr winRq)⟩
  · exact .inr ⟨_, (both _ e).1, (both _ e).2, .inl ⟨hi, rfl⟩⟩
  · exact .inr ⟨_, (both _ e).1, (both _ e).2, .inr ⟨hi, rfl⟩⟩
  · exact .inl (cq _ e)
  · exact .inl (cq _ e)

/-- A ring's three registers each have the writers that its two moves leave them. -/
theorem ring_writers {n : Nat} {r r' : Ring} {produced room consumed holds : Prop}
    (h : r' = r ∨ (produced ∧ room ∧ r' = Ring.produce n r) ∨ (consumed ∧ holds ∧ r' = Ring.consume n r)) :
    (r'.inUse ≠ r.inUse → produced ∨ consumed) ∧ (r'.pidx ≠ r.pidx → produced) ∧
    (r'.cidx ≠ r.cidx → consumed) := by
  obtain rfl | ⟨hp, -, rfl⟩ | ⟨hc, -, rfl⟩ := h
  · exact ⟨absurd rfl, absurd rfl, absurd rfl⟩
  · exact ⟨fun _ => .inl hp, fun _ => hp, absurd rfl⟩
  · exact ⟨fun _ => .inr hc, absurd rfl, fun _ => hc⟩

/-- A byte with no writer in R27 changes only where the Adapter wrote it inside the command. -/
theorem WritesListed.unlisted_byte {i : Instr} {s t : State} (h : WritesListed i s t) {a : Addr}
    (ha : a ∉ [s.cfg.sqErr, s.cfg.rqErr, s.cfg.cqErr, s.cfg.sqDboff, s.cfg.rqDboff])
    (hne : t.readByte a ≠ s.readByte a) : InsideAdapterWrote i s t a :=
  ((h.readByte_cases a).resolve_left hne).resolve_left fun hb => ha hb.mem_sentinels

/-- `CQ_SENT.dboff` never changes (R24): no command writes it, and neither does the Adapter. -/
theorem WritesListed.readByte_cqDboff {i : Instr} {s t : State} (h : WritesListed i s t)
    (hw : s.cfg.wf = true) : t.readByte s.cfg.cqDboff = s.readByte s.cfg.cqDboff := by
  obtain e | hb | ⟨-, -, hwin⟩ := h.readByte_cases s.cfg.cqDboff
  · exact e
  · exact absurd hb (blockWrites_iff hw i _).2.2.2
  · exact hwin.trans (readByte_window_dboff hw).2.2

/-- Settles O12: the rows of `WritesListed`, and for memory what it says of one byte. -/
theorem onlyListedWritersChangeState : Obligations.OnlyListedWritersChangeState := by
  unfold Obligations.OnlyListedWritersChangeState
  intro i s t h
  have hl := exec_writesListed h
  obtain ⟨sqUse, sqPidx, sqCidx⟩ := ring_writers hl.sq
  obtain ⟨rqUse, rqPidx, rqCidx⟩ := ring_writers hl.rq
  obtain ⟨swUse, swPidx, swCidx⟩ := ring_writers hl.swq
  refine ⟨hl.cfg, hl.wqSwError, sqUse, sqPidx, sqCidx, rqUse, rqPidx, rqCidx, hl.rqMsn.resolve_left,
    fun hne => (hl.cqCidx.resolve_left hne).1, hl.cqGen.resolve_left, hl.cqCidxInc.resolve_left,
    hl.cqLastTs.resolve_left, hl.cqError.resolve_left, swUse, swPidx, swCidx, exec_changes_fault h,
    hl.history.resolve_left, fun hw => ?_⟩
  refine ⟨fun hne => ?_, fun hne => ?_, fun hne => ?_, fun hne => ?_, fun hne => ?_,
    hl.readByte_cqDboff hw, fun a ha hne => hl.unlisted_byte ha hne⟩
  · obtain ⟨hiff, -⟩ := blockWrites_iff hw i (t.readByte s.cfg.sqErr)
    exact ((hl.readByte_cases _).resolve_left hne).imp_left hiff.1
  · obtain ⟨-, hiff, -⟩ := blockWrites_iff hw i (t.readByte s.cfg.rqErr)
    exact ((hl.readByte_cases _).resolve_left hne).imp_left hiff.1
  · obtain ⟨-, -, hiff, -⟩ := blockWrites_iff hw i (t.readByte s.cfg.cqErr)
    exact or_assoc.1 (((hl.readByte_cases _).resolve_left hne).imp_left hiff.1)
  · obtain ⟨hsq, -⟩ | ⟨v, rfl, -, hv⟩ := hl.readByte_dboff hw
    · exact absurd hsq hne
    · exact hv
  · obtain ⟨-, hrq⟩ | ⟨v, -, rfl, hv⟩ := hl.readByte_dboff hw
    · exact absurd hrq hne
    · exact hv

/-! ## The two `.dboff` bytes stay equal -/

/-- The bytes agree after anything that left them and the configuration alone. -/
theorem DboffAgree.of_unchanged {s t : State} (h : DboffAgree s) (hc : t.cfg = s.cfg)
    (hsq : t.readByte s.cfg.sqDboff = s.readByte s.cfg.sqDboff)
    (hrq : t.readByte s.cfg.rqDboff = s.readByte s.cfg.rqDboff) : DboffAgree t := by
  unfold DboffAgree
  rw [hc, hsq, hrq]
  exact h

theorem exec_keeps_dboffAgree {i : Instr} {s t : State} (hw : s.cfg.wf = true) (ha : DboffAgree s)
    (h : exec i s = .next t) : DboffAgree t := by
  have hl := exec_writesListed h
  obtain ⟨hsq, hrq⟩ | ⟨v, hsq, hrq, -⟩ := hl.readByte_dboff hw
  · exact ha.of_unchanged hl.cfg hsq hrq
  · unfold DboffAgree
    rw [hl.cfg, hsq, hrq]

theorem illegal_keeps_dboffAgree {w : Word} {s t : State} (ha : DboffAgree s)
    (h : accepted s (raise .illegalCmd w none s) = .next t) : DboffAgree t := by
  obtain ⟨-, rfl⟩ | ⟨-, h⟩ := accepted_cases _ _ _ h
  · exact ha
  · cases h
    exact ha

theorem hostEvent_keeps_dboffAgree {s : State} {e : HostEvent} (hw : s.cfg.wf = true)
    (hm : hostMay s.cfg e = true) (hr : ∀ c p, e ≠ .reset c p) (ha : DboffAgree s) :
    DboffAgree (s.hostEvent e) := by
  have hc : (s.hostEvent e).cfg = s.cfg := by
    cases e with
    | reset c p => exact absurd rfl (hr c p)
    | _ => rfl
  obtain ⟨-, hsq, -, hrq, -⟩ := Cfg.sentinels_outside hw
  exact ha.of_unchanged hc (read_hostEvent s hw e hm hr _ hsq.sq hsq.rq hsq.swq)
    (read_hostEvent s hw e hm hr _ hrq.sq hrq.rq hrq.swq)

theorem adapterEvent_keeps_dboffAgree {s : State} {e : AdapterEvent} (hw : s.cfg.wf = true)
    (hm : adapterMay s.cfg e = true) (ha : DboffAgree s) : DboffAgree (s.adapterEvent e) := by
  obtain ⟨-, hsq, -, hrq, -⟩ := Cfg.sentinels_outside hw
  refine ha.of_unchanged rfl ?_ ?_
  · exact (read_adapterWrites hw s.mem e hm _ hsq.cq).resolve_right
      fun ⟨x, hx, _⟩ => (dboff_ne_errAddr hw x).1 hx
  · exact (read_adapterWrites hw s.mem e hm _ hrq.cq).resolve_right
      fun ⟨x, hx, _⟩ => (dboff_ne_errAddr hw x).2.1 hx

/-- Settles O19: a command writes both bytes or neither, and neither the Host nor the Adapter writes one. -/
theorem stepKeepsDboffBytesEqual : Obligations.StepKeepsDboffBytesEqual := by
  unfold Obligations.StepKeepsDboffBytesEqual
  intro s t hw ha hr h
  rcases step_cases s t h with ⟨-, rfl⟩ | ⟨c, rest, -, ⟨i, -, h⟩ | ⟨e, -, h⟩⟩ | ⟨e, rest, hin, hm, rfl⟩ |
    ⟨e, rest, -, hm, rfl⟩
  · exact ha
  · exact exec_keeps_dboffAgree (s := s.later rest) hw ha h
  · exact illegal_keeps_dboffAgree (s := s.later rest) ha h
  · refine hostEvent_keeps_dboffAgree (s := s.later rest) hw hm ?_ ha
    rintro c p rfl
    simp [nextIsReset, hin] at hr
  · exact adapterEvent_keeps_dboffAgree (s := s.later rest) hw hm ha

end Sys2Proof.Machine
end

section
/-!
PROOF. The generation bit over laps (R33), and the soundness of the generation-bit protocol for one hardware poll
(R93, R140, R145, R151).
-/
namespace Sys2Proof.Machine

/-! ## Laps -/

/-- A one-bit counter that counts one more is the other bit. -/
theorem ofNat_one_succ (n : Nat) : BitVec.ofNat 1 (n + 1) = BitVec.ofNat 1 n ^^^ 1 := by
  rw [BitVec.ofNat_add]
  exact (by decide : ∀ b : BitVec 1, b + 1 = b ^^^ 1) _

/-- The next index is on the next lap exactly when the ring wraps. -/
theorem succ_div_eq_ite_wrap {k n : Nat} (hn : 0 < n) :
    (k + 1) / n = if k % n + 1 = n then k / n + 1 else k / n := by
  simp only [Nat.succ_div, Nat.dvd_iff_mod_eq_zero, ← Nat.mod_add_mod k n 1]
  have hlt := Nat.mod_lt k hn
  rcases eq_or_ne (k % n + 1) n with hwrap | hnowrap
  · simp [hwrap]
  · simp [hnowrap, Nat.mod_eq_of_lt (by omega : k % n + 1 < n)]

/-- A lap later the expected generation bit is the other one. -/
theorem lapGen_add_lap {c : Cfg} (hn : 0 < c.nCq) (k : Nat) : lapGen c (k + c.nCq) ≠ lapGen c k := by
  unfold lapGen
  rw [Nat.add_div_right _ hn, ← Nat.add_assoc, ofNat_one_succ]
  exact (by decide : ∀ b : BitVec 1, b ^^^ 1 ≠ b) _

/-! ## Hardware consumes in a row -/

/-- A hardware consume that does not fault moves the index on and turns the bit where the ring wraps. -/
theorem cqHwConsume_regs {s t : State} (h : exec .cqHwConsume s = .next t) (ht : t.fault = none) :
    t.cfg = s.cfg ∧ t.cqCidx = incMod s.cqCidx s.cfg.nCq ∧
    t.cqGen = if s.cqCidx.toNat + 1 = s.cfg.nCq then s.cqGen ^^^ 1 else s.cqGen := by
  have hf : s.fault = none := fault_of_execAll [.cqHwConsume] s t ((execAll_cons _ _ _ _).2 ⟨t, h, rfl⟩) ht
  obtain ⟨reason, info, rfl⟩ | ⟨r, s', rfl, rfl⟩ := exec_cases _ s t hf h
  · simp at ht
  · simp [hwAdvance_cqCidx, hwAdvance_cqGen]

/-- The registers after `k` hardware consumes, counted from index 0. -/
theorem cqHwConsume_replicate {s : State} (hw : s.cfg.wf = true) (h0 : s.cqCidx = 0) (k : Nat) (t : State)
    (h : execAll (List.replicate k .cqHwConsume) s = .next t) (ht : t.fault = none) :
    t.cfg = s.cfg ∧ t.cqCidx.toNat = k % s.cfg.nCq ∧ t.cqGen = s.cqGen ^^^ BitVec.ofNat 1 (k / s.cfg.nCq) := by
  obtain ⟨-, -, -, -, hpos, hmax, -⟩ := Cfg.sizesOk hw
  induction k generalizing t with
  | zero =>
    cases h
    simp [h0]
  | succ k ih =>
    rw [List.replicate_succ', execAll_append] at h
    obtain ⟨u, hu, hut⟩ := h
    obtain ⟨hcfg, hcidx, hgen⟩ := ih u hu (fault_of_execAll _ _ _ hut ht)
    obtain ⟨v, hv, hvt⟩ := (execAll_cons _ _ _ _).1 hut
    cases hvt
    obtain ⟨tcfg, tcidx, tgen⟩ := cqHwConsume_regs hv ht
    have hlt : u.cqCidx.toNat < s.cfg.nCq := hcidx ▸ Nat.mod_lt _ hpos
    refine ⟨tcfg.trans hcfg, ?_, ?_⟩
    · rw [tcidx, hcfg, incMod_toNat _ _ hlt hmax, hcidx, Nat.mod_add_mod]
    · rw [tgen, hcfg, hcidx, hgen, succ_div_eq_ite_wrap hpos]
      split
      · rw [ofNat_one_succ, BitVec.xor_assoc]
      · rfl

/-- Settles O40, by induction on the number of consumes. -/
theorem generationBitAlternatesEachLap : Obligations.GenerationBitAlternatesEachLap := by
  unfold Obligations.GenerationBitAlternatesEachLap
  intro s t k hw h0 h ht
  obtain ⟨-, hcidx, hgen⟩ := cqHwConsume_replicate hw h0 k t h ht
  refine ⟨hcidx, hgen.trans ?_⟩
  congr 1
  exact BitVec.eq_of_toNat_eq (by simp)

/-! ## One hardware poll -/

theorem exec_cqNextHw_of_valid {s : State} (hf : s.fault = none) (hg : Cqe.gen (hwRecord s) = s.cqGen) :
    exec .cqNextHw s = .next (({ s with cqLastTs := Cqe.ts (hwRecord s) } : State).answer
      ⟨.ok, s.cqCidx.setWidth 64, some (hwRecord s), .hw⟩) := by
  have hv : isValid (hwRecord s) s = true := by simpa [isValid] using hg
  exact (accepted_of_clear _ _ hf).trans (by simp only [pollHw, hv, if_true, respond_eq])

theorem exec_cqNextHw_of_beyond {s : State} (hf : s.fault = none) (hg : Cqe.gen (hwRecord s) ≠ s.cqGen)
    (hts : s.cqLastTs.toNat < (Cqe.ts (hwRecord s)).toNat) :
    exec .cqNextHw s = .next ((({ s with cqError := 1 } : State).emit (.diag .overflow s.cfg.qidCq)).answer
      ⟨.overflow, 0, none, .none⟩) := by
  have hv : isValid (hwRecord s) s = false := by simpa [isValid] using hg
  have hb : isBeyond (hwRecord s) s = true := by simpa [isBeyond] using hts
  exact (accepted_of_clear _ _ hf).trans (by simp [pollHw, hv, hb, respond_eq])

theorem exec_cqNextHw_of_old {s : State} (hf : s.fault = none) (hg : Cqe.gen (hwRecord s) ≠ s.cqGen)
    (hts : (Cqe.ts (hwRecord s)).toNat ≤ s.cqLastTs.toNat) :
    exec .cqNextHw s = .next (s.answer ⟨.nodata, 0, none, .none⟩) := by
  have hv : isValid (hwRecord s) s = false := by simpa [isValid] using hg
  have hb : isBeyond (hwRecord s) s = false := by simpa [isBeyond] using hts
  exact (accepted_of_clear _ _ hf).trans (by simp [pollHw, hv, hb, respond_eq])

/-! ## The protocol -/

section Protocol

variable {s : State} {w : Nat → Cqe} {m c : Nat}

/-- The Host polls the slot of record `c`. -/
theorem HostPolled.hwRecord_eq {p : Nat} (hp : HostPolled s w c p) :
    hwRecord s = slotRecord s (c % s.cfg.nCq) := by
  rw [hwRecord, slotRecord, hp.1]

/-- A poll finds record `c` once it is written and until it is overwritten. -/
theorem hwRecord_written (ha : AdapterWrote s w m) (hc : HostConsumed s w c) (hcm : c < m)
    (hmn : m ≤ c + s.cfg.nCq) : hwRecord s = w c ∧ Cqe.gen (hwRecord s) = s.cqGen := by
  obtain ⟨hgen, -, -, hslot⟩ := ha
  have hr : hwRecord s = w c := hc.hwRecord_eq.trans (hslot c hcm hmn)
  exact ⟨hr, by rw [hr, hgen c hcm, hc.2.1]⟩

/-- Until record `c` is written a poll finds the record of the lap before or the prepared slot: the wrong
generation bit, and no timestamp beyond the last one returned. -/
theorem hwRecord_unwritten (hn : 0 < s.cfg.nCq) (ha : AdapterWrote s w c) (hc : HostConsumed s w c) :
    Cqe.gen (hwRecord s) ≠ s.cqGen ∧ (Cqe.ts (hwRecord s)).toNat ≤ s.cqLastTs.toNat := by
  obtain ⟨hgen, hts, hprep, hslot⟩ := ha
  obtain ⟨-, hg, -, hlast⟩ := id hc
  rw [hc.hwRecord_eq, hg]
  rcases Nat.lt_or_ge c s.cfg.nCq with hlt | hge
  · obtain ⟨pgen, pts⟩ := hprep c hlt le_rfl
    rw [Nat.mod_eq_of_lt hlt, pgen, pts]
    refine ⟨?_, Nat.zero_le _⟩
    have := lapGen_add_lap hn 0
    simpa [lapGen, Nat.div_eq_of_lt hlt] using this
  · obtain ⟨j, rfl⟩ : ∃ j, c = j + s.cfg.nCq := ⟨c - s.cfg.nCq, by omega⟩
    rw [Nat.add_mod_right, hslot j (by omega) le_rfl, hgen j (by omega),
      hlast (j + s.cfg.nCq - 1) (by omega)]
    refine ⟨(lapGen_add_lap hn j).symm, ?_⟩
    rcases Nat.eq_or_lt_of_le (by omega : j ≤ j + s.cfg.nCq - 1) with he | hlt
    · rw [← he]
    · exact (hts j _ hlt (by omega)).le

/-- Where the Adapter is more than a lap ahead, and at most two, a poll finds the record a lap after `c`: the
wrong generation bit, and a timestamp beyond the last one returned. -/
theorem hwRecord_overwritten (hn : 0 < s.cfg.nCq) (ha : AdapterWrote s w m) (hc : HostConsumed s w c)
    (hcm : c + s.cfg.nCq < m) (hmn : m ≤ c + 2 * s.cfg.nCq) :
    Cqe.gen (hwRecord s) ≠ s.cqGen ∧ s.cqLastTs.toNat < (Cqe.ts (hwRecord s)).toNat := by
  obtain ⟨hgen, hts, -, hslot⟩ := ha
  obtain ⟨-, hg, hzero, hlast⟩ := id hc
  have hr : hwRecord s = w (c + s.cfg.nCq) := by
    rw [hc.hwRecord_eq, ← Nat.add_mod_right, hslot _ hcm (by omega)]
  rw [hr, hg, hgen _ hcm]
  refine ⟨lapGen_add_lap hn c, ?_⟩
  cases c with
  | zero =>
    rw [hzero rfl]
    exact Nat.zero_lt_of_lt (hts 0 _ (by omega) hcm)
  | succ k =>
    rw [hlast k rfl]
    exact hts k _ (by omega) hcm

end Protocol

/-- Settles O51: what a poll finds in each of the three ranges of `m`, and what `CQ_NEXT_HW` answers to it. -/
theorem generationProtocolIsSound : Obligations.GenerationProtocolIsSound := by
  unfold Obligations.GenerationProtocolIsSound
  intro s w m c hf hw ha hc hcm
  obtain ⟨-, -, -, -, hn, -⟩ := Cfg.sizesOk hw
  obtain ⟨t, ht⟩ := exec_next .cqNextHw s
  refine ⟨t, ht, fun hlt hle => ?_, fun heq => ?_, fun hlt hle => ?_⟩
  · obtain ⟨hr, hg⟩ := hwRecord_written ha hc hlt hle
    rw [exec_cqNextHw_of_valid hf hg, hr] at ht
    cases ht
    have hval : s.cqCidx.setWidth 64 = BitVec.ofNat 64 (c % s.cfg.nCq) :=
      BitVec.eq_of_toNat_eq (by simp [hc.1])
    exact ⟨by simp [hval], rfl⟩
  · subst heq
    obtain ⟨hg, hts⟩ := hwRecord_unwritten hn ha hc
    rw [exec_cqNextHw_of_old hf hg hts] at ht
    cases ht
    rfl
  · obtain ⟨hg, hts⟩ := hwRecord_overwritten hn ha hc hlt hle
    rw [exec_cqNextHw_of_beyond hf hg hts] at ht
    cases ht
    exact ⟨rfl, rfl⟩

end Sys2Proof.Machine
end

section
/-!
PROOF. Memory as the Block and the Adapter use it: records are big-endian and aligned (R39 to R43), a command that
R45 does not list ignores memory, and what an Adapter event writes (R51, R53, R54, R141).
-/
namespace Sys2Proof.Machine

/-! ## One step, by its event -/

theorem step_command {s : State} {c : Command} {rest : List Input} (h : s.inputs = .command c :: rest) :
    step s = present c (s.later rest) := by
  simp only [step, h, perform]

theorem present_of_decode {c : Command} {i : Instr} (h : decode c = .ok i) (s : State) :
    present c s = exec i s := by
  simp only [present, h]

/-- An Adapter liberty writes memory, and nothing else happens. -/
theorem step_adapter {s : State} {e : AdapterEvent} {rest : List Input} (h : s.inputs = .adapter e :: rest)
    (hm : adapterMay s.cfg e = true) :
    step s = .next { s with mem := adapterWrites s.cfg s.mem e, inputs := rest } := by
  simp only [step, h, perform, adapterMove, State.later_cfg, hm, if_true]
  rfl

/-- Settles O5: the step presents the command, and a command that decodes is executed. -/
theorem stepRunsDecodedCommand : Obligations.StepRunsDecodedCommand := by
  unfold Obligations.StepRunsDecodedCommand
  intro s c rest i hin hd
  rw [step_command hin, present_of_decode hd]

/-- Settles O58: the event is a liberty, and it is one byte write. -/
theorem adapterSetErrWritesOneByte : Obligations.AdapterSetErrWritesOneByte := by
  unfold Obligations.AdapterSetErrWritesOneByte
  intro s x v rest hv hin
  refine ⟨_, step_adapter hin (by simpa [adapterMay] using hv), fun a => ?_⟩
  have hread : Memory.read (adapterWrites s.cfg s.mem (.setErr x v)) a =
      if a = errAddr s.cfg x then v else s.readByte a := by
    rw [adapterWrites, Memory.read_write, State.readByte]
    simp only [eq_comm]
  cases x <;> exact hread

/-! ## Alignment -/

/-- The wrap at 2^64 does not disturb alignment. -/
theorem addr_add_aligned {a : Addr} {n : Nat} (ha : a.toNat % 8 = 0) (hn : n % 8 = 0) :
    (a + BitVec.ofNat 64 n).toNat % 8 = 0 := by
  rw [BitVec.toNat_add, BitVec.toNat_ofNat]
  omega

/-- Settles O21: a slot is a multiple of 8 bytes from an aligned base. -/
theorem blockAccessesAreAligned : Obligations.BlockAccessesAreAligned := by
  unfold Obligations.BlockAccessesAreAligned
  intro c i a hw _ ha
  obtain ⟨-, hrec, ⟨-, -, hcq, hswq, hregs⟩, -⟩ := c.wf_iff.1 hw
  obtain ⟨-, -, -, hoff, hbytes, -⟩ := hrec
  have hi : i * c.cqeBytes % 8 = 0 := by rw [Nat.mul_mod, hbytes, Nat.mul_zero, Nat.zero_mod]
  have h8 : a.toNat % 8 = 0 := by
    obtain rfl | rfl := ha
    · exact addr_add_aligned hcq hi
    · exact addr_add_aligned hswq hi
  refine ⟨h8, ?_, ?_, ?_, addr_add_aligned h8 hoff, hregs⟩ <;> bv_omega

/-! ## Records are big-endian -/

@[simp] theorem Memory.readBytes_length (m : Memory) (a : Addr) (n : Nat) :
    (Memory.readBytes m a n).length = n := by
  induction n generalizing a with
  | zero => rfl
  | succ n ih => simp [Memory.readBytes, ih]

theorem be_append (xs ys : List Byte) : be (xs ++ ys) = be xs * 256 ^ ys.length + be ys := by
  induction ys using List.reverseRecOn with
  | nil => simp [be]
  | append_singleton ys y ih =>
    simp only [be, ← List.append_assoc, List.foldl_append, List.foldl_cons, List.foldl_nil,
      List.length_append, List.length_singleton] at ih ⊢
    rw [ih]
    ring

theorem be_lt (bs : List Byte) : be bs < 256 ^ bs.length := by
  induction bs using List.reverseRecOn with
  | nil => decide
  | append_singleton bs b ih =>
    have hb : be [b] < 256 := by simpa [be] using b.isLt
    rw [be_append, List.length_append, List.length_singleton, Nat.pow_succ]
    omega

/-- The byte at an offset from an address, as a number. -/
def byteAt (m : Memory) (a : Addr) (k : Nat) : Nat := (Memory.read m (a + BitVec.ofNat 64 k)).toNat

/-- The four bytes from an offset on, the first one most significant (R12). -/
def wordAt (m : Memory) (a : Addr) (k : Nat) : Nat :=
  byteAt m a k * 2 ^ 24 + byteAt m a (k + 1) * 2 ^ 16 + byteAt m a (k + 2) * 2 ^ 8 + byteAt m a (k + 3)

theorem be_readBytes_four (m : Memory) (a : Addr) (k : Nat) :
    be (Memory.readBytes m (a + BitVec.ofNat 64 k) 4) = wordAt m a k := by
  have next : ∀ n, a + BitVec.ofNat 64 n + 1 = a + BitVec.ofNat 64 (n + 1) := fun n => by
    rw [BitVec.ofNat_add, ← BitVec.add_assoc]
    rfl
  simp only [Memory.readBytes, next, be, List.foldl_cons, List.foldl_nil, wordAt, byteAt]
  ring

theorem be_readBytes_eight (m : Memory) (a : Addr) (k : Nat) :
    be (Memory.readBytes m (a + BitVec.ofNat 64 k) 8) = wordAt m a k * 2 ^ 32 + wordAt m a (k + 4) := by
  rw [Memory.readBytes_append m _ 4 4, be_append, Memory.readBytes_length, BitVec.add_assoc,
    ← BitVec.ofNat_add, be_readBytes_four, be_readBytes_four]
  norm_num

/-- Bytes read fit the word of their size. -/
theorem ofNat_be_readBytes_toNat (m : Memory) (a : Addr) {n w : Nat} (h : 256 ^ n = 2 ^ w) :
    (BitVec.ofNat w (be (Memory.readBytes m a n))).toNat = be (Memory.readBytes m a n) := by
  rw [BitVec.toNat_ofNat]
  apply Nat.mod_eq_of_lt
  simpa [h] using be_lt (Memory.readBytes m a n)

/-- A word of the body at offset `k`. -/
theorem body_word_toNat (m : Memory) (a : Addr) (k : Nat) :
    (BitVec.ofNat 32 (be (Memory.readBytes m (a + BitVec.ofNat 64 k) 4))).toNat = wordAt m a k := by
  rw [ofNat_be_readBytes_toNat _ _ rfl, be_readBytes_four]

/-- Settles O22: each value is the big-endian number of its bytes, which fits its width. -/
theorem recordsAreReadBigEndian : Obligations.RecordsAreReadBigEndian := by
  unfold Obligations.RecordsAreReadBigEndian
  intro c m a
  refine ⟨?_, body_word_toNat m a 4, body_word_toNat m a 8, body_word_toNat m a 12, ?_⟩
  · have h0 := body_word_toNat m a 0
    rwa [BitVec.add_zero] at h0
  · exact (ofNat_be_readBytes_toNat _ _ rfl).trans (be_readBytes_eight m a c.cqeTrailerOff)

/-! ## Commands that ignore memory -/

/-- The state over another memory. -/
def State.withMem (m : Memory) (s : State) : State := { s with mem := m }

/-- The same answer, over another memory. -/
def overMemory (m : Memory) : Result → Result
  | .next t => .next (t.withMem m)
  | .fault r => .fault r
  | .refused r => .refused r

theorem overMemory_ite (m : Memory) (p : Prop) [Decidable p] (x y : Result) :
    overMemory m (if p then x else y) = if p then overMemory m x else overMemory m y :=
  apply_ite _ _ _ _

/-- A command ignores memory if what follows its acceptance does. -/
theorem accepted_withMem {m : Memory} {s : State} {b b' : Result} (h : b' = overMemory m b) :
    accepted (s.withMem m) b' = overMemory m (accepted s b) := by
  rw [h, accepted, accepted, overMemory_ite]
  rfl

theorem produceOn_withMem {m : Memory} {s : State} (reason : FaultReason) (i : Instr) (limit size : Nat)
    (r : Ring) {put put' : Ring → State} (h : ∀ r, put' r = (put r).withMem m) :
    produceOn reason i limit size r put' (s.withMem m) =
      overMemory m (produceOn reason i limit size r put s) := by
  rw [produceOn, produceOn, overMemory_ite, h]
  rfl

theorem consumeOn_withMem {m : Memory} {s : State} (reason : FaultReason) (i : Instr) (size : Nat)
    (r : Ring) {put put' : Ring → State} (h : ∀ r, put' r = (put r).withMem m) :
    consumeOn reason i size r put' (s.withMem m) = overMemory m (consumeOn reason i size r put s) := by
  rw [consumeOn, consumeOn, overMemory_ite, h]
  rfl

theorem ringDoorbell_withMem {m : Memory} {s : State} (i : Instr) (inc : Half) (stride : Nat) (qid : Word)
    (addr : Addr) :
    ringDoorbell i inc stride qid addr (s.withMem m) =
      overMemory m (ringDoorbell i inc stride qid addr s) := by
  unfold ringDoorbell
  rw [overMemory_ite]
  rfl

theorem hwAdvance_withMem (m : Memory) (s : State) : hwAdvance (s.withMem m) = (hwAdvance s).withMem m := by
  rw [hwAdvance, hwAdvance, apply_ite (State.withMem m)]
  rfl

/-- A command that R45 does not list does the same over another memory. -/
theorem exec_withMem {i : Instr} (hi : accessesMemory i = false) (m : Memory) (s : State) :
    exec i (s.withMem m) = overMemory m (exec i s) := by
  cases i
  case wqInError | wqSetError | wqDisableDb | wqEnableDb | wqDbEnabled | cqNextHw | cqNextSw | cqNext |
      cqInError | cqSetError | cqClearError =>
    cases hi
  all_goals apply accepted_withMem
  case sqProduce | rqProduce | cqSwProduce => exact produceOn_withMem _ _ _ _ _ fun _ => rfl
  case sqConsume | rqConsume | cqSwConsume => exact consumeOn_withMem _ _ _ _ fun _ => rfl
  case ringSqDb | ringRqDb => exact ringDoorbell_withMem _ _ _ _ _
  case cqHwConsume =>
    rw [overMemory_ite]
    exact if_congr Iff.rfl rfl (congrArg (respondOk 0)
      (hwAdvance_withMem m { s with cqCidxInc := s.cqCidxInc + 1 }))
  case cqArm =>
    rw [overMemory_ite]
    rfl
  case rdState r =>
    cases Reg.ofNumber? r with
    | none => rfl
    | some g => cases g <;> rfl
  all_goals rfl

/-- A command that R45 does not list is no writer of memory. -/
theorem WritesListed.mem_eq {i : Instr} {s t : State} (h : WritesListed i s t)
    (hi : accessesMemory i = false) : t.mem = s.mem := by
  obtain e | ⟨rfl, -⟩ | ⟨rfl, -⟩ | ⟨rfl, -⟩ | ⟨rfl, -⟩ | ⟨rfl, -⟩ := h.mem
  · exact e
  all_goals cases hi

/-- Settles O13: memory stays by the writers column, and `exec_withMem` is the rest. -/
theorem otherCommandsIgnoreMemory : Obligations.OtherCommandsIgnoreMemory := by
  unfold Obligations.OtherCommandsIgnoreMemory
  intro i s t m hi h
  exact ⟨(exec_writesListed h).mem_eq hi, (exec_withMem hi m s).trans (congrArg (overMemory m) h)⟩

/-! ## What the Adapter writes -/

/-- The window ends at the first event that is not inside the command. -/
theorem State.runInside_of_not_inside (s : State) {rest : List Input}
    (h : ∀ e r, rest ≠ .adapterInside e :: r) : s.runInside rest = s.later rest := by
  rw [State.runInside]
  exact h

/-- The window performs the liberties at its head, in order. -/
theorem State.runInside_liberties (s : State) {es : List AdapterEvent} {rest : List Input}
    (hm : ∀ e ∈ es, adapterMay s.cfg e = true) (h : ∀ e r, rest ≠ .adapterInside e :: r) :
    s.runInside (es.map .adapterInside ++ rest) =
      { s with mem := es.foldl (adapterWrites s.cfg) s.mem, inputs := rest } := by
  induction es generalizing s with
  | nil => exact s.runInside_of_not_inside h
  | cons e es ih =>
    obtain ⟨he, hes⟩ := List.forall_mem_cons.1 hm
    rw [List.map_cons, List.cons_append, State.runInside, if_pos he, ih (s.adapterEvent e) hes]
    rfl

/-- The two writes of a sentinel command with the Adapter's liberties in between. -/
theorem writeBoth_of_liberties {s : State} {es : List AdapterEvent} {rest : List Input}
    (hin : s.inputs = es.map .adapterInside ++ rest) (hm : ∀ e ∈ es, adapterMay s.cfg e = true)
    (h : ∀ e r, rest ≠ .adapterInside e :: r) (p q : Addr) (v : Byte) :
    writeBoth p q v s =
      { s with
        inputs := rest
        mem := Memory.write (es.foldl (adapterWrites s.cfg) (Memory.write s.mem p v)) q v } := by
  rw [writeBoth, State.window, State.writeByte_inputs, hin, State.runInside_liberties (s.writeByte p v) hm h]
  rfl

/-- Settles O37: each of the three commands is its two writes and an answer. -/
theorem adapterMayActBetweenTheTwoSentinelWrites : Obligations.AdapterMayActBetweenTheTwoSentinelWrites := by
  unfold Obligations.AdapterMayActBetweenTheTwoSentinelWrites
  intro s es rest hf hin hrest hm
  simp only [List.forall_mem_cons]
  simp only [← writeBoth_of_liberties hin hm hrest]
  exact ⟨accepted_of_clear _ _ hf, accepted_of_clear _ _ hf, accepted_of_clear _ _ hf, List.forall_mem_nil _⟩

/-- Settles O59: the record laws of Laws/Layout.lean at a slot, which lies below 2^64. -/
theorem adapterRecordReadsBackFromItsSlot : Obligations.AdapterRecordReadsBackFromItsSlot := by
  unfold Obligations.AdapterRecordReadsBackFromItsSlot
  intro s i r e rest hw hi hin he
  obtain ⟨-, -, h16, -, -, h8, -⟩ := Cfg.recordsOk hw
  have hbelow : (s.cfg.slotCq i).toNat + s.cfg.cqeBytes ≤ 2 ^ 64 := by
    have hslot := (Cfg.slotCq_toNat hw hi).2
    have hsent := (Cfg.sentCq_toNat hw).2.2
    omega
  have hmay : adapterMay s.cfg e = true := by
    obtain rfl | rfl | rfl := he <;> exact decide_eq_true hi
  refine ⟨_, step_adapter hin hmay, ?_, fun a ha => ?_⟩
  · obtain rfl | rfl | rfl := he
    · exact readCqe_writeCqe _ _ _ _ h16 h8 hbelow
    · exact readCqe_writeCqeBody _ _ _ _ _ _ _ h16 h8 hbelow
    · exact readCqe_writeCqeTrailer _ _ _ _ h16 h8 hbelow
  · have hout : a.toNat < (s.cfg.slotCq i).toNat ∨ (s.cfg.slotCq i).toNat + s.cfg.cqeBytes ≤ a.toNat := by
      simp only [Region.Has] at ha
      omega
    obtain rfl | rfl | rfl := he
    · exact read_writeCqe_outside _ _ _ _ _ h16 h8 hbelow hout
    · exact read_writeCqeBody_outside _ _ _ _ _ _ _ (by omega) (by omega)
    · exact read_writeCqeTrailer_outside _ _ _ _ _ h8 hbelow hout

end Sys2Proof.Machine
end

section
/-!
PROOF. Decoding and encoding (R58, R61, R62): they are inverse, and exactly the commands R62 lists do not decode.
Which command word has which operand form is read off the decoder once, as `DecodeRow`.
-/
namespace Sys2Proof.Machine

/-! ## The fields of a command word -/

theorem cwOp_toNat (w : Word) : (cwOp w).toNat = w.toNat / 2 ^ 24 := by
  have := w.isLt
  rw [cwOp, BitVec.extractLsb'_toNat, Nat.shiftRight_eq_div_pow]
  omega

theorem cwRsv_toNat (w : Word) : (cwRsv w).toNat = w.toNat / 2 ^ 17 % 2 ^ 7 := by
  rw [cwRsv, BitVec.extractLsb'_toNat, Nat.shiftRight_eq_div_pow]

theorem cwS_toNat (w : Word) : (cwS w).toNat = w.toNat / 2 ^ 16 % 2 := by
  rw [cwS, BitVec.extractLsb'_toNat, Nat.shiftRight_eq_div_pow, pow_one]

theorem cwImm_toNat (w : Word) : (cwImm w).toNat = w.toNat % 2 ^ 16 := by
  rw [cwImm, BitVec.extractLsb'_toNat, Nat.shiftRight_zero]

/-- A word whose reserved bits are 0 is the word of its other three fields. -/
theorem commandWord_eq {w : Word} {op : BitVec 8} {s : BitVec 1} {imm : Half} (hr : cwRsv w = 0)
    (hop : cwOp w = op) (hs : cwS w = s) (hi : cwImm w = imm) : commandWord op s imm = w := by
  subst hop hs hi
  exact commandWord_fields w hr

/-- The RD numbers of R27. -/
theorem Reg.ofNumber?_isSome_iff (r : Half) : (Reg.ofNumber? r).isSome = true ↔
    r.toNat ∈ [0x00, 0x01, 0x02, 0x03, 0x08, 0x09, 0x0A, 0x0B, 0x0C, 0x10,
      0x20, 0x21, 0x22, 0x23, 0x24, 0x25, 0x26, 0x27, 0x28] := by
  unfold Reg.ofNumber?
  split <;> simp_all

/-! ## When each operand form decodes -/

@[simp] theorem noOperand_eq_ok_iff {w : Word} {i j : Instr} :
    noOperand w i = .ok j ↔ cwRsv w = 0 ∧ cwS w = 0 ∧ cwImm w = 0 ∧ i = j := by
  simp [noOperand, ite_eq_iff]

@[simp] theorem withImm_eq_ok_iff {w : Word} {f : Half → Instr} {j : Instr} :
    withImm w f = .ok j ↔ cwRsv w = 0 ∧ cwS w = 0 ∧ f (cwImm w) = j := by
  simp [withImm, ite_eq_iff]

@[simp] theorem withSolicited_eq_ok_iff {w : Word} {f : BitVec 1 → Instr} {j : Instr} :
    withSolicited w f = .ok j ↔ cwRsv w = 0 ∧ cwImm w = 0 ∧ f (cwS w) = j := by
  simp [withSolicited, ite_eq_iff]

@[simp] theorem withRegister_eq_ok_iff {w : Word} {f : Half → Instr} {j : Instr} :
    withRegister w f = .ok j ↔
      cwRsv w = 0 ∧ cwS w = 0 ∧ (Reg.ofNumber? (cwImm w)).isSome = true ∧ f (cwImm w) = j := by
  simp [withRegister, ite_eq_iff, Option.isSome_iff_ne_none]

@[simp] theorem withRecord_eq_ok_iff {c : Command} {f : Cqe → Instr} {j : Instr} :
    withRecord c f = .ok j ↔
      cwRsv c.cw = 0 ∧ cwS c.cw = 0 ∧ cwImm c.cw = 0 ∧ ∃ r, c.record = some r ∧ f r = j := by
  cases hr : c.record <;> simp [withRecord, hr, ite_eq_iff]

/-! ## Decoding an encoded command -/

/-- On the command an instruction is encoded as, the decoder takes the row of that instruction, whose checks
the encoder's word passes. -/
theorem decode_encode {i : Instr} (h : i.wellFormed = true) : decode (encode i) = .ok i := by
  generalize hc : encode i = c
  unfold decode
  generalize hop : cwOp c.cw = op
  cases i <;> subst hc <;> obtain rfl := (cwOp_commandWord _ _ _).symm.trans hop
  case ringSqDb | ringRqDb =>
    exact withImm_eq_ok_iff.2 ⟨cwRsv_commandWord _ _ _, cwS_commandWord _ _ _,
      congrArg _ (cwImm_commandWord _ _ _)⟩
  case cqArm =>
    exact withSolicited_eq_ok_iff.2 ⟨cwRsv_commandWord _ _ _, cwImm_commandWord _ _ _,
      congrArg _ (cwS_commandWord _ _ _)⟩
  case rdState r =>
    have hr : cwImm (commandWord 0x40 0 r) = r := cwImm_commandWord _ _ _
    exact withRegister_eq_ok_iff.2 ⟨cwRsv_commandWord _ _ _, cwS_commandWord _ _ _,
      hr.symm ▸ h, congrArg _ hr⟩
  case cqIsValid | cqeQpid | cqeSwcqe | cqeStatus | cqeType | cqeOpcode | cqeSendOpcode | cqeLen
      | cqeWridStag | cqeWridMsn | cqeWridSqIdx | cqeWridHi | cqeWridLow | cqeGenbit | cqeOvfbit
      | cqeIqtype | cqeTs =>
    exact withRecord_eq_ok_iff.2 ⟨cwRsv_commandWord _ _ _, cwS_commandWord _ _ _,
      cwImm_commandWord _ _ _, _, rfl, rfl⟩
  all_goals
    exact noOperand_eq_ok_iff.2 ⟨cwRsv_commandWord _ _ _, cwS_commandWord _ _ _,
      cwImm_commandWord _ _ _, rfl⟩

/-- Settles O2: `decode_encode`. -/
theorem decodeOfEncodeIsIdentity : Obligations.DecodeOfEncodeIsIdentity := by
  unfold Obligations.DecodeOfEncodeIsIdentity
  exact fun i => decode_encode

/-! ## Decoding, by row of the command map -/

/-- R62 by the fields of R58, for a command whose operation code is the number `op`. -/
theorem illegalByR62_iff {c : Command} {op : Nat} (hop : (cwOp c.cw).toNat = op) : IllegalByR62 c ↔
    op = 0x00 ∨ op = 0x07 ∨ op = 0x08 ∨ (0x15 ≤ op ∧ op ≤ 0x1F) ∨ (0x2B ≤ op ∧ op ≤ 0x2F) ∨ 0x41 ≤ op ∨
    cwRsv c.cw ≠ 0 ∨ (cwS c.cw ≠ 0 ∧ op ≠ 0x25) ∨
    (cwImm c.cw ≠ 0 ∧ op ≠ 0x06 ∧ op ≠ 0x0E ∧ op ≠ 0x40) ∨
    (op = 0x40 ∧ ¬ (Reg.ofNumber? (cwImm c.cw)).isSome = true) ∨
    ((op = 0x21 ∨ (0x30 ≤ op ∧ op ≤ 0x3F)) ∧ c.record = none) := by
  unfold IllegalByR62
  dsimp only
  rw [← cwOp_toNat, ← cwRsv_toNat, ← cwS_toNat, ← cwImm_toNat, hop, Reg.ofNumber?_isSome_iff]
  simp only [ne_eq, BitVec.toNat_eq, BitVec.ofNat_eq_ofNat, BitVec.toNat_ofNat, Nat.zero_mod]

/-- What the command map of R61 makes of `c`: one of the five operand forms, with the instruction (or the
instructions, by operand) of the row, the commands these are encoded as, and what R62 asks of `c` there; or no
row at all. -/
inductive DecodeRow (c : Command) : Except Illegal Instr → Prop
  | noOperand (i : Instr) (hcw : encode i = ⟨commandWord (cwOp c.cw) 0 0, none⟩) (hwf : i.wellFormed = true)
      (hlegal : ¬ IllegalByR62 c ↔ cwRsv c.cw = 0 ∧ cwS c.cw = 0 ∧ cwImm c.cw = 0) :
      DecodeRow c (noOperand c.cw i)
  | withImm (f : Half → Instr) (hcw : ∀ n, encode (f n) = ⟨commandWord (cwOp c.cw) 0 n, none⟩)
      (hwf : ∀ n, (f n).wellFormed = true)
      (hlegal : ¬ IllegalByR62 c ↔ cwRsv c.cw = 0 ∧ cwS c.cw = 0) : DecodeRow c (withImm c.cw f)
  | withSolicited (f : BitVec 1 → Instr) (hcw : ∀ s, encode (f s) = ⟨commandWord (cwOp c.cw) s 0, none⟩)
      (hwf : ∀ s, (f s).wellFormed = true)
      (hlegal : ¬ IllegalByR62 c ↔ cwRsv c.cw = 0 ∧ cwImm c.cw = 0) : DecodeRow c (withSolicited c.cw f)
  | withRegister (f : Half → Instr) (hcw : ∀ r, encode (f r) = ⟨commandWord (cwOp c.cw) 0 r, none⟩)
      (hwf : ∀ r, (f r).wellFormed = (Reg.ofNumber? r).isSome)
      (hlegal : ¬ IllegalByR62 c ↔
        cwRsv c.cw = 0 ∧ cwS c.cw = 0 ∧ (Reg.ofNumber? (cwImm c.cw)).isSome = true) :
      DecodeRow c (withRegister c.cw f)
  | withRecord (f : Cqe → Instr) (hcw : ∀ r, encode (f r) = ⟨commandWord (cwOp c.cw) 0 0, some r⟩)
      (hwf : ∀ r, (f r).wellFormed = true)
      (hlegal : ¬ IllegalByR62 c ↔
        cwRsv c.cw = 0 ∧ cwS c.cw = 0 ∧ cwImm c.cw = 0 ∧ c.record ≠ none) :
      DecodeRow c (withRecord c f)
  | unmapped (hill : IllegalByR62 c) : DecodeRow c (.error .unmappedOp)

/-- Row by row of the decoder; in its last case `OP` is none of the mapped numbers, so R62 lists it. -/
theorem decodeRow (c : Command) : DecodeRow c (decode c) := by
  unfold decode
  split
  case h_47 =>
    have hunmapped : IllegalByR62 c := (illegalByR62_iff rfl).2 (by grind)
    exact .unmapped hunmapped
  all_goals
    rename_i hop
    constructor <;> [
      (rw [(BitVec.toNat_eq_nat.1 hop).2]; intros; rfl);
      (intros; rfl);
      simp [illegalByR62_iff hop, Option.isSome_iff_ne_none]]

/-- A decoded command is the encoding of what it decodes to, up to a record that its row ignores. -/
theorem encode_of_decode {c : Command} {i : Instr} (h : decode c = .ok i) :
    i.wellFormed = true ∧ (encode i = c ∨ encode i = ⟨c.cw, none⟩) := by
  have row := decodeRow c
  generalize decode c = o at h row
  cases row with
  | noOperand j hcw hwf _ =>
    obtain ⟨hr, hs, hi, rfl⟩ := noOperand_eq_ok_iff.1 h
    exact ⟨hwf, .inr (by rw [hcw, commandWord_eq hr rfl hs hi])⟩
  | withImm f hcw hwf _ =>
    obtain ⟨hr, hs, rfl⟩ := withImm_eq_ok_iff.1 h
    exact ⟨hwf _, .inr (by rw [hcw, commandWord_eq hr rfl hs rfl])⟩
  | withSolicited f hcw hwf _ =>
    obtain ⟨hr, hi, rfl⟩ := withSolicited_eq_ok_iff.1 h
    exact ⟨hwf _, .inr (by rw [hcw, commandWord_eq hr rfl rfl hi])⟩
  | withRegister f hcw hwf _ =>
    obtain ⟨hr, hs, hreg, rfl⟩ := withRegister_eq_ok_iff.1 h
    exact ⟨(hwf _).trans hreg, .inr (by rw [hcw, commandWord_eq hr rfl hs rfl])⟩
  | withRecord f hcw hwf _ =>
    obtain ⟨hr, hs, hi, r, hrec, rfl⟩ := withRecord_eq_ok_iff.1 h
    exact ⟨hwf _, .inl (by rw [hcw, commandWord_eq hr rfl hs hi, ← hrec])⟩
  | unmapped _ => cases h

/-- The encoding carries a record exactly for the operation codes marked *rec* (R61). -/
theorem takesRecord_encode (i : Instr) : takesRecord (cwOp (encode i).cw) = (encode i).record.isSome := by
  cases i <;> exact (Laws.CommandFields.fields _ _ _ _ rfl).2

/-- Settles O3: `encode_of_decode`, and a command marked rec cannot be encoded without its record. -/
theorem encodeOfDecodeIsIdentity : Obligations.EncodeOfDecodeIsIdentity := by
  unfold Obligations.EncodeOfDecodeIsIdentity
  intro c i h
  obtain ⟨hwf, henc | henc⟩ := encode_of_decode h
  · simp [hwf, henc]
  · have hrec := takesRecord_encode i
    simp only [henc, Option.isSome_none] at hrec
    simp [hwf, henc, hrec]

/-! ## Illegal commands -/

/-- Exactly the commands that R62 does not list decode. -/
theorem decode_eq_ok_iff_legal (c : Command) : (∃ i, decode c = .ok i) ↔ ¬ IllegalByR62 c := by
  have row := decodeRow c
  generalize decode c = o at row
  cases row with
  | noOperand j _ _ hlegal => simp [hlegal]
  | withImm f _ _ hlegal => simp [hlegal]
  | withSolicited f _ _ hlegal => simp [hlegal]
  | withRegister f _ _ hlegal => simp [hlegal]
  | withRecord f _ _ hlegal => simp [hlegal, Option.ne_none_iff_exists']
  | unmapped hill => simp [hill]

/-- The rows that are not marked *rec* do not look at the record (R62). -/
theorem decode_ignores_record {w : Word} (h21 : (cwOp w).toNat ≠ 0x21)
    (h30 : ¬ (0x30 ≤ (cwOp w).toNat ∧ (cwOp w).toNat ≤ 0x3F)) (r : Option Cqe) :
    decode ⟨w, r⟩ = decode ⟨w, none⟩ := by
  unfold decode
  dsimp only
  split <;> first | rfl | omega

/-- An illegal command on an unlatched Block (R62, R127). -/
theorem present_of_illegal {c : Command} (h : IllegalByR62 c) {s : State} (hf : s.fault = none) :
    present c s = .next (s.latch ⟨.illegalCmd, some c.cw, none⟩) := by
  cases hd : decode c with
  | ok i => exact absurd h ((decode_eq_ok_iff_legal c).1 ⟨i, hd⟩)
  | error e => simp only [present, hd, accepted_of_clear _ _ hf, raise_eq]

/-- Settles O4: a command decodes exactly when R62 does not list it, and the step presents it. -/
theorem exactlyIllegalCommandsRaiseIllegalCmd : Obligations.ExactlyIllegalCommandsRaiseIllegalCmd := by
  unfold Obligations.ExactlyIllegalCommandsRaiseIllegalCmd
  intro s c rest hf hin
  refine ⟨fun hill => ?_, fun hlegal => ?_, fun h21 h30 => ?_⟩
  · rw [step_command hin, present_of_illegal (s := s.later rest) hill hf]
  · obtain ⟨i, hd⟩ := (decode_eq_ok_iff_legal c).2 hlegal
    exact ⟨i, hd, (encode_of_decode hd).1, by rw [step_command hin, present_of_decode hd]⟩
  · rw [← cwOp_toNat] at h21 h30
    exact decode_ignores_record h21 h30 c.record

/-- Settles O1: the legal words are the encoder's, and each of the two illegal ones fails one check. -/
theorem specWordsDecode : Obligations.SpecWordsDecode :=
  ⟨decode_encode (i := .sqProduce) rfl, decode_encode (i := .ringSqDb 7) rfl,
    decode_encode (i := .ringRqDb 3) rfl, decode_encode (i := .wqEnableDb) rfl,
    decode_encode (i := .cqArm 1) rfl, decode_encode (i := .cqeTs _) rfl,
    decode_encode (i := .rdState 0x22) rfl, rfl, rfl⟩

/-! ## How a command ends -/

/-- Settles O10: a fault sets the latch and answers nothing; any other command has its effect, which leaves the
latch and the responses alone, and answers once. -/
theorem everyCommandEndsInOneResponseOrAFault : Obligations.EveryCommandEndsInOneResponseOrAFault := by
  unfold Obligations.EveryCommandEndsInOneResponseOrAFault
  intro i s hf
  obtain ⟨t, ht⟩ := exec_next i s
  refine ⟨t, ht, ?_⟩
  obtain ⟨reason, info, rfl⟩ | ⟨r, s', rfl, he⟩ := exec_cases i s t hf ht
  · exact .inr ⟨by simp, rfl⟩
  · obtain ⟨-, hresp, -⟩ := he.keeps_wqSwError_responses_and_extends_history
    exact .inl ⟨he.writesListed.2.trans hf, r, by simp [hresp]⟩

end Sys2Proof.Machine
end

section
/-!
PROOF. The two device-register words (R68, R69): R9 gives each field a mask of its own, so the fields or-ed together
stay below 2^32, have no bit in common and can be read back.
-/
namespace Sys2Proof.Machine

/-! ## Values inside a mask -/

/-- Every bit of `x` is a bit of `mask`. -/
abbrev Within (x mask : Nat) : Prop := x &&& mask = x

theorem Within.disjoint {x y m n : Nat} (hx : Within x m) (hy : Within y n) (h : m &&& n = 0) :
    x &&& y = 0 := by
  rw [← hx, ← hy, Nat.and_assoc, ← Nat.and_assoc m, Nat.and_comm m y, Nat.and_assoc y, h]
  simp

theorem Within.lt {x m n : Nat} (hx : Within x m) (hm : m < n) : x < n := by
  rw [← hx]
  exact Nat.and_le_right.trans_lt hm

theorem Within.shiftLeft {x m : Nat} (hx : Within x m) (k : Nat) : Within (x <<< k) (m <<< k) := by
  rw [Within, ← Nat.shiftLeft_and_distrib, hx]

theorem within_of_lt {x w : Nat} (hx : x < 2 ^ w) : Within x (2 ^ w - 1) := by
  rw [Within, Nat.and_two_pow_sub_one_eq_mod, Nat.mod_eq_of_lt hx]

theorem within_toNat_and (q m : Word) : Within (q &&& m).toNat m.toNat := by
  rw [Within, BitVec.toNat_and, Nat.and_assoc, Nat.and_self]

/-- The mask of a field of `w` bits from bit `k` on, where the field lies in the word. -/
theorem fieldMask_lt {k w : Nat} (h : k + w ≤ 32) : (2 ^ w - 1) <<< k < 2 ^ 32 := by
  calc (2 ^ w - 1) <<< k = (2 ^ w - 1) * 2 ^ k := Nat.shiftLeft_eq _ _
    _ < 2 ^ w * 2 ^ k := Nat.mul_lt_mul_of_pos_right (Nat.sub_lt (by positivity) Nat.one_pos) (by positivity)
    _ = 2 ^ (k + w) := by rw [Nat.pow_add, Nat.mul_comm]
    _ ≤ 2 ^ 32 := Nat.pow_le_pow_right (by decide) h

/-! ## Reading a field -/

/-- The field of `w` bits from bit `k` on. -/
abbrev bitField (k w word : Nat) : Nat := word >>> k % 2 ^ w

theorem bitField_or (k w x y : Nat) : bitField k w (x ||| y) = bitField k w x ||| bitField k w y := by
  rw [bitField, Nat.shiftRight_or_distrib, Nat.or_mod_two_pow]

theorem bitField_shiftLeft {k w x : Nat} (hx : x < 2 ^ w) : bitField k w (x <<< k) = x := by
  rw [bitField, Nat.shiftLeft_shiftRight, Nat.mod_eq_of_lt hx]

/-- Bits outside a field's mask do not show in it. -/
theorem Within.bitField_eq_zero {x m k w : Nat} (hx : Within x m) (h : m &&& ((2 ^ w - 1) <<< k) = 0) :
    bitField k w x = 0 := by
  have hshift := Nat.shiftRight_and_distrib (a := x) (b := (2 ^ w - 1) <<< k) (i := k)
  rw [hx.disjoint (Nat.and_self _) h, Nat.zero_shiftRight, Nat.shiftLeft_shiftRight] at hshift
  rw [bitField, ← Nat.and_two_pow_sub_one_eq_mod, ← hshift]

/-! ## The two words -/

/-- Settles O31: the masked queue id lies within `DBQ` and the increment within `DBP` (R9). -/
theorem doorbellWordHoldsBothFields : Obligations.DoorbellWordHoldsBothFields := by
  unfold Obligations.DoorbellWordHoldsBothFields
  intro c qid scaled hw hs
  obtain ⟨-, hp, hq, hdisj⟩ := Cfg.doorbellOk hw
  have hqid : Within ((qid &&& c.qidMaskWq).toNat <<< c.qidShift) c.dbq :=
    (within_toNat_and qid c.qidMaskWq).shiftLeft _
  have hinc : Within (scaled <<< c.pidxShift) c.dbp := (within_of_lt hs).shiftLeft _
  have hword : (dbWord c qid scaled).toNat =
      (((qid &&& c.qidMaskWq).toNat <<< c.qidShift) ||| (scaled <<< c.pidxShift)) := by
    rw [dbWord, BitVec.toNat_ofNat]
    exact Nat.mod_eq_of_lt (Nat.or_lt_two_pow (hqid.lt hq) (hinc.lt (fieldMask_lt hp)))
  refine ⟨hword, hqid.disjoint hinc hdisj, ?_⟩
  rw [hword]
  change bitField _ _ _ = _
  rw [bitField_or, hqid.bitField_eq_zero hdisj, bitField_shiftLeft hs, Nat.zero_or]

/-- Settles O32: the flag lies within `AS`, the increment within `AC`, the timer selector within `AT` and the
masked queue id within `AQ` (R9). -/
theorem armWordHoldsItsFields : Obligations.ArmWordHoldsItsFields := by
  unfold Obligations.ArmWordHoldsItsFields
  intro c se inc hw hi
  obtain ⟨hs32, -, hc32, ht32, hq32, hsc, hst, hsq, hct, hcq, htq, htimer⟩ := Cfg.armOk hw
  have hflag : se.toNat < 2 ^ 1 := se.isLt
  have hse : Within (se.toNat <<< c.armSeShift) c.armS := (within_of_lt hflag).shiftLeft _
  have hinc : Within (inc.toNat <<< c.armCidxincShift) c.armC := (within_of_lt hi).shiftLeft _
  have htim : Within (c.armTimerSel <<< c.armTimerShift) c.armT := (within_of_lt htimer).shiftLeft _
  have hqid : Within ((c.qidCq &&& c.qidMaskCq).toNat <<< c.armQidShift) c.armQ :=
    (within_toNat_and c.qidCq c.qidMaskCq).shiftLeft _
  have hword : (armWord c se inc).toNat =
      ((se.toNat <<< c.armSeShift) ||| (inc.toNat <<< c.armCidxincShift) |||
        (c.armTimerSel <<< c.armTimerShift) ||| ((c.qidCq &&& c.qidMaskCq).toNat <<< c.armQidShift)) := by
    rw [armWord, BitVec.toNat_ofNat]
    exact Nat.mod_eq_of_lt (Nat.or_lt_two_pow (Nat.or_lt_two_pow (Nat.or_lt_two_pow
      (hse.lt (fieldMask_lt (w := 1) hs32)) (hinc.lt (fieldMask_lt hc32))) (htim.lt (fieldMask_lt ht32)))
      (hqid.lt hq32))
  have hcs := (Nat.and_comm _ _).trans hsc
  have hts := (Nat.and_comm _ _).trans hst
  have hqs := (Nat.and_comm _ _).trans hsq
  have htc := (Nat.and_comm _ _).trans hct
  have hqc := (Nat.and_comm _ _).trans hcq
  have hqt := (Nat.and_comm _ _).trans htq
  refine ⟨hword, ?_, ?_, ?_⟩ <;> rw [hword]
  · change bitField _ 1 _ = _
    rw [bitField_or, bitField_or, bitField_or, bitField_shiftLeft hflag, hinc.bitField_eq_zero hcs,
      htim.bitField_eq_zero hts, hqid.bitField_eq_zero hqs, Nat.or_zero, Nat.or_zero, Nat.or_zero]
  · change bitField _ _ _ = _
    rw [bitField_or, bitField_or, bitField_or, hse.bitField_eq_zero hsc, bitField_shiftLeft hi,
      htim.bitField_eq_zero htc, hqid.bitField_eq_zero hqc, Nat.zero_or, Nat.or_zero, Nat.or_zero]
  · change bitField _ _ _ = _
    rw [bitField_or, bitField_or, bitField_or, hse.bitField_eq_zero hst, hinc.bitField_eq_zero hct,
      bitField_shiftLeft htimer, hqid.bitField_eq_zero hqt, Nat.zero_or, Nat.zero_or, Nat.or_zero]

end Sys2Proof.Machine
end

section
/-!
PROOF. Written lines (R70, R71): a command's own line stands for it, and `RD_STATE` takes the names and numbers of R27
and no others.
-/
namespace Sys2Proof.Machine

/-! ## Operands -/

@[simp] theorem AsmOperand.without_absent (i : Instr) : AsmOperand.absent.without i = some i := rfl

@[simp] theorem AsmOperand.record?_record (r : Cqe) : (AsmOperand.record r).record? = some r := rfl

/-- A number written from a value of the operand's width is in range. -/
theorem AsmOperand.below_toNat {w : Nat} (v : BitVec w) :
    (AsmOperand.number v.toNat).below (2 ^ w) = some v.toNat := if_pos v.isLt

theorem AsmOperand.registerNumber_toNat {r : Half} (h : (Reg.ofNumber? r).isSome = true) :
    (AsmOperand.number r.toNat).registerNumber = some r := by
  simp only [registerNumber, BitVec.ofNat_toNat, BitVec.setWidth_eq]
  exact if_pos ⟨r.isLt, h⟩

theorem AsmOperand.registerNumber_eq_none {n : Nat}
    (h : n ∉ Reg.all.map fun g => (Reg.number g).toNat) : (AsmOperand.number n).registerNumber = none := by
  refine if_neg fun ⟨hlt, hreg⟩ => h ?_
  rw [Reg.ofNumber?_isSome_iff, BitVec.toNat_ofNat, Nat.mod_eq_of_lt hlt] at hreg
  exact hreg

/-! ## Registers by name and number -/

theorem Reg.ofNumber?_number (g : Reg) : Reg.ofNumber? (Reg.number g) = some g := by
  cases g <;> rfl

theorem Reg.ofName?_name (g : Reg) : Reg.ofName? (Reg.name g) = some g := by
  cases g <;> decide

theorem Reg.ofName?_eq_none {n : String} (h : n ∉ Reg.all.map Reg.name) : Reg.ofName? n = none := by
  rw [Reg.ofName?, List.find?_eq_none]
  intro g hg
  simp only [beq_iff_eq]
  rintro rfl
  exact h (List.mem_map_of_mem hg)

/-! ## Lines -/

/-- A command's mnemonic with its operand, by the form of the operand. -/
theorem assemble_mnemonic {i : Instr} (h : i.wellFormed = true) :
    assemble (mnemonic i) (asmOperand i) = some i := by
  cases i
  case ringSqDb n | ringRqDb n =>
    change ((AsmOperand.number n.toNat).below (2 ^ 16)).map _ = _
    rw [AsmOperand.below_toNat]
    simp
  case cqArm se =>
    change ((AsmOperand.number se.toNat).below (2 ^ 1)).map _ = _
    rw [AsmOperand.below_toNat]
    simp
  case rdState r =>
    change (AsmOperand.number r.toNat).registerNumber.map _ = _
    rw [AsmOperand.registerNumber_toNat h]
    rfl
  all_goals simp [assemble, mnemonic, asmOperand, encode]

/-- No command's line is a pseudo-instruction's. -/
theorem assembleLine_mnemonic (i : Instr) :
    assembleLine (mnemonic i) (asmOperand i) = (assemble (mnemonic i) (asmOperand i)).map fun j => [j] := by
  cases i <;> simp [assembleLine, mnemonic, asmOperand, encode]

theorem assembleLine_rdState (o : AsmOperand) :
    assembleLine "RD_STATE" o = o.registerNumber.map fun r => [.rdState r] := by
  simp [assembleLine, assemble, Function.comp_def]

/-- Settles O7: the names and numbers written out are those of `Reg.all`. -/
theorem assembledLineIsItsCommand : Obligations.AssembledLineIsItsCommand := by
  unfold Obligations.AssembledLineIsItsCommand
  intro names
  have hnames : names = Reg.all.map fun g => (Reg.name g, Reg.number g) := rfl
  simp only [hnames, List.map_map, List.forall_mem_map, assembleLine_rdState]
  refine ⟨fun i h => ?_, fun g _ => ⟨?_, ?_⟩, fun n hn => ?_, fun n hn => ?_⟩
  · rw [assembleLine_mnemonic, assemble_mnemonic h]
    rfl
  · simp [AsmOperand.registerNumber, Reg.ofName?_name]
  · simp [AsmOperand.registerNumber_toNat, Reg.ofNumber?_number]
  · simp [AsmOperand.registerNumber, Reg.ofName?_eq_none hn]
  · rw [AsmOperand.registerNumber_eq_none hn]
    rfl

end Sys2Proof.Machine
end

section
/-!
PROOF. Posting (R71): a run of produces and the one doorbell after it, for a ring of either side.
-/
namespace Sys2Proof.Machine

/-! ## The lines -/

theorem assembleLine_postSq {n : Half} (h : n ≠ 0) : assembleLine "POST_SQ" (.number n.toNat) =
    some (List.replicate n.toNat .sqProduce ++ [.ringSqDb n]) := by
  change ((AsmOperand.number n.toNat).below (2 ^ 16)).bind _ = _
  rw [AsmOperand.below_toNat]
  simp only [Option.bind_some, BitVec.ofNat_toNat, BitVec.setWidth_eq, Pseudo.expand, if_neg h]

theorem assembleLine_postRq (n : Half) : assembleLine "POST_RQ" (.number n.toNat) =
    some (List.replicate n.toNat .rqProduce ++ [.ringRqDb n]) := by
  change ((AsmOperand.number n.toNat).below (2 ^ 16)).bind _ = _
  rw [AsmOperand.below_toNat]
  simp only [Option.bind_some, BitVec.ofNat_toNat, BitVec.setWidth_eq, Pseudo.expand]

/-! ## The run of their commands -/

/-- From `s` to `t` the ring, of size `n`, took `k` entries more, `H` got the events `es`, and the latch, the
configuration and `rq.msn` stayed. -/
structure Posted (ring : State → Ring) (n k : Nat) (es : List Event) (s t : State) : Prop where
  fault : t.fault = s.fault
  cfg : t.cfg = s.cfg
  inUse : (ring t).inUse.toNat = (ring s).inUse.toNat + k
  pidx : (ring t).pidx.toNat = ((ring s).pidx.toNat + k) % n
  cidx : (ring t).cidx = (ring s).cidx
  rqMsn : t.rqMsn = s.rqMsn
  history : t.history = s.history ++ es

section
variable {ring : State → Ring} {n : Nat} {s t : State}

theorem Posted.of_ring_eq {es : List Event} (hring : ring t = ring s) (hp : (ring s).pidx.toNat < n)
    (hf : t.fault = s.fault) (hc : t.cfg = s.cfg) (hm : t.rqMsn = s.rqMsn) (hh : t.history = s.history ++ es) :
    Posted ring n 0 es s t :=
  ⟨hf, hc, by rw [hring]; rfl, by rw [hring, Nat.add_zero, Nat.mod_eq_of_lt hp], by rw [hring], hm, hh⟩

theorem Posted.trans {k j : Nat} {es fs : List Event} {u : State} (h : Posted ring n k es s t)
    (g : Posted ring n j fs t u) : Posted ring n (k + j) (es ++ fs) s u where
  fault := g.fault.trans h.fault
  cfg := g.cfg.trans h.cfg
  inUse := by rw [g.inUse, h.inUse, Nat.add_assoc]
  pidx := by rw [g.pidx, h.pidx, Nat.mod_add_mod, Nat.add_assoc]
  cidx := g.cidx.trans h.cidx
  rqMsn := g.rqMsn.trans h.rqMsn
  history := by rw [g.history, h.history, List.append_assoc]

/-- One entry more in a ring with room for it (R12, R72, R78). -/
theorem Ring.produce_toNat {r : Ring} (hn : n ≤ 65535) (hroom : r.inUse.toNat < n - 1) (hp : r.pidx.toNat < n) :
    (Ring.produce n r).inUse.toNat = r.inUse.toNat + 1 ∧
    (Ring.produce n r).pidx.toNat = (r.pidx.toNat + 1) % n := by
  refine ⟨?_, incMod_toNat _ _ hp hn⟩
  change (r.inUse + 1).toNat = _
  bv_omega

/-- `SQ_PRODUCE` posts one entry (R72). -/
theorem exec_sqProduce_posts (hf : s.fault = none) (hw : s.cfg.wf = true)
    (hroom : s.sq.inUse.toNat < s.cfg.nSq - 1) (hp : s.sq.pidx.toNat < s.cfg.nSq) :
    ∃ t, exec .sqProduce s = .next t ∧ Posted State.sq s.cfg.nSq 1 [] s t := by
  obtain ⟨-, hn, -⟩ := Cfg.sizesOk hw
  obtain ⟨huse, hpidx⟩ := Ring.produce_toNat hn hroom hp
  exact ⟨_, (accepted_of_clear _ _ hf).trans (if_neg hroom.ne),
    ⟨rfl, rfl, huse, hpidx, rfl, rfl, (List.append_nil _).symm⟩⟩

/-- `RQ_PRODUCE` posts one entry (R78). -/
theorem exec_rqProduce_posts (hf : s.fault = none) (hw : s.cfg.wf = true)
    (hroom : s.rq.inUse.toNat < s.cfg.nRq - 1) (hp : s.rq.pidx.toNat < s.cfg.nRq) :
    ∃ t, exec .rqProduce s = .next t ∧ Posted State.rq s.cfg.nRq 1 [] s t := by
  obtain ⟨-, -, -, hn, -⟩ := Cfg.sizesOk hw
  obtain ⟨huse, hpidx⟩ := Ring.produce_toNat hn hroom hp
  exact ⟨_, (accepted_of_clear _ _ hf).trans (if_neg hroom.ne),
    ⟨rfl, rfl, huse, hpidx, rfl, rfl, (List.append_nil _).symm⟩⟩

/-- A command that posts one entry where there is room posts `k` of them when it is given `k` times. -/
theorem execAll_replicate_posts {i : Instr} {size : Cfg → Nat}
    (hstep : ∀ u : State, u.fault = none → u.cfg.wf = true → (ring u).inUse.toNat < size u.cfg - 1 →
      (ring u).pidx.toNat < size u.cfg → ∃ t, exec i u = .next t ∧ Posted ring (size u.cfg) 1 [] u t)
    (k : Nat) (hf : s.fault = none) (hw : s.cfg.wf = true) (hroom : (ring s).inUse.toNat + k ≤ size s.cfg - 1)
    (hp : (ring s).pidx.toNat < size s.cfg) :
    ∃ t, execAll (List.replicate k i) s = .next t ∧ Posted ring (size s.cfg) k [] s t := by
  induction k generalizing s with
  | zero => exact ⟨s, rfl, .of_ring_eq rfl hp rfl rfl rfl (List.append_nil _).symm⟩
  | succ k ih =>
    obtain ⟨u, hu, hpost⟩ := hstep s hf hw (by omega) hp
    have hpu : (ring u).pidx.toNat < size s.cfg := hpost.pidx ▸ Nat.mod_lt _ (by omega)
    have hroomu : (ring u).inUse.toNat + k ≤ size s.cfg - 1 := by rw [hpost.inUse]; omega
    rw [← hpost.cfg] at hpu hroomu
    obtain ⟨t, ht, hposts⟩ := ih (hpost.fault.trans hf) (hpost.cfg ▸ hw) hroomu hpu
    rw [hpost.cfg] at hposts
    refine ⟨t, (execAll_cons _ _ _ _).2 ⟨u, hu, ht⟩, ?_⟩
    rw [Nat.add_comm]
    exact hpost.trans hposts

/-- A doorbell whose scaled increment fits is a barrier and one device-register write (R77, R83). -/
theorem ringDoorbell_of_fits {i : Instr} {inc : Half} {stride : Nat} {qid : Word} {addr : Addr}
    (hfits : inc.toNat * stride < 2 ^ s.cfg.pidxWidth) : ringDoorbell i inc stride qid addr s =
      .next (((s.emit .fenceSs).emit (.mmioWrite32 addr (dbWord s.cfg qid (inc.toNat * stride)))).answer
        ⟨.ok, 0, none, .none⟩) :=
  if_neg (Nat.not_le.2 hfits)

/-- After the entries are posted the doorbell `db`, whose write is `e`, is rung once. -/
theorem execAll_post {is : List Instr} {db : Instr} {k : Nat} {e : Event} {r : Response} (hn : 0 < n)
    (hf : s.fault = none) (hrun : ∃ u, execAll is s = .next u ∧ Posted ring n k [] s u)
    (hbell : ∀ u : State, u.fault = none → u.cfg = s.cfg →
      exec db u = .next (((u.emit .fenceSs).emit e).answer r))
    (hring : ∀ u : State, ring (((u.emit .fenceSs).emit e).answer r) = ring u) :
    ∃ t, execAll (is ++ [db]) s = .next t ∧ Posted ring n k [.fenceSs, e] s t := by
  obtain ⟨u, hu, hpost⟩ := hrun
  have hp : (ring u).pidx.toNat < n := hpost.pidx ▸ Nat.mod_lt _ hn
  have hdb := hbell u (hpost.fault.trans hf) hpost.cfg
  refine ⟨_, (execAll_append _ _ _ _).2 ⟨u, hu, (execAll_cons _ _ _ _).2 ⟨_, hdb, rfl⟩⟩, ?_⟩
  exact hpost.trans (.of_ring_eq (hring u) hp rfl rfl rfl (by simp))

/-- `POST_SQ #n` (R71). -/
theorem execAll_postSq {n : Half} (hf : s.fault = none) (hw : s.cfg.wf = true)
    (hp : s.sq.pidx.toNat < s.cfg.nSq) (hroom : s.sq.inUse.toNat + n.toNat ≤ s.cfg.nSq - 1)
    (hfits : n.toNat * s.cfg.sqStride < 2 ^ s.cfg.pidxWidth) :
    ∃ t, execAll (List.replicate n.toNat .sqProduce ++ [.ringSqDb n]) s = .next t ∧
      Posted State.sq s.cfg.nSq n.toNat [.fenceSs, .mmioWrite32 s.cfg.sqDb
        (dbWord s.cfg s.cfg.qidSq (n.toNat * s.cfg.sqStride))] s t :=
  execAll_post (Nat.zero_lt_of_lt hp) hf
    (execAll_replicate_posts (size := Cfg.nSq) (fun _ => exec_sqProduce_posts) n.toNat hf hw hroom hp)
    (fun u hu hc => by
      rw [← hc] at hfits ⊢
      exact (accepted_of_clear _ _ hu).trans (ringDoorbell_of_fits hfits))
    (fun _ => rfl)

/-- `POST_RQ #n` (R71). -/
theorem execAll_postRq {n : Half} (hf : s.fault = none) (hw : s.cfg.wf = true)
    (hp : s.rq.pidx.toNat < s.cfg.nRq) (hroom : s.rq.inUse.toNat + n.toNat ≤ s.cfg.nRq - 1)
    (hfits : n.toNat * s.cfg.rqStride < 2 ^ s.cfg.pidxWidth) :
    ∃ t, execAll (List.replicate n.toNat .rqProduce ++ [.ringRqDb n]) s = .next t ∧
      Posted State.rq s.cfg.nRq n.toNat [.fenceSs, .mmioWrite32 s.cfg.rqDb
        (dbWord s.cfg s.cfg.qidRq (n.toNat * s.cfg.rqStride))] s t :=
  execAll_post (Nat.zero_lt_of_lt hp) hf
    (execAll_replicate_posts (size := Cfg.nRq) (fun _ => exec_rqProduce_posts) n.toNat hf hw hroom hp)
    (fun u hu hc => by
      rw [← hc] at hfits ⊢
      exact (accepted_of_clear _ _ hu).trans (ringDoorbell_of_fits hfits))
    (fun _ => rfl)

end

/-- Settles O34: the lines, and each post as its run of produces followed by its doorbell. -/
theorem pseudoInstructionsStandForTheirCommands : Obligations.PseudoInstructionsStandForTheirCommands := by
  unfold Obligations.PseudoInstructionsStandForTheirCommands
  refine ⟨fun n => assembleLine_postSq, assembleLine_postRq, rfl, rfl, fun s n is hf hw hregs => ?_⟩
  obtain ⟨⟨-, hsq, -⟩, ⟨-, hrq, -⟩, -⟩ := hregs
  refine ⟨fun hline hroom hfits => ?_, fun hline hroom hfits => ?_⟩
  · have hn : n ≠ 0 := by
      rintro rfl
      cases hline
    rw [assembleLine_postSq hn, Option.some.injEq] at hline
    obtain ⟨t, ht, hpost⟩ := execAll_postSq hf hw hsq hroom hfits
    exact ⟨t, hline ▸ ht, hpost.fault.trans hf, hpost.inUse, hpost.pidx, hpost.cidx, hpost.history⟩
  · rw [assembleLine_postRq, Option.some.injEq] at hline
    obtain ⟨t, ht, hpost⟩ := execAll_postRq hf hw hrq hroom hfits
    exact ⟨t, hline ▸ ht, hpost.fault.trans hf, hpost.inUse, hpost.pidx, hpost.cidx, hpost.rqMsn,
      hpost.history⟩

end Sys2Proof.Machine
end

section
/-!
PROOF. The work-queue ring commands (R72 to R84): what a produce, a consume and a doorbell do on either side of
their one test, what the queries answer, and from these each command of either ring.
-/
namespace Sys2Proof.Machine

/-! ## The shared operations, by the side of their test -/

section
variable {s : State} {i : Instr}

theorem produceOn_of_full {reason : FaultReason} {limit size : Nat} {r : Ring} {put : Ring → State}
    (h : r.inUse.toNat = limit) : produceOn reason i limit size r put s =
      .next (s.latch ⟨reason, some (encode i).cw, some (r.inUse.setWidth 32)⟩) :=
  if_pos h

theorem produceOn_of_room {reason : FaultReason} {limit size : Nat} {r : Ring} {put : Ring → State}
    (h : r.inUse.toNat ≠ limit) : produceOn reason i limit size r put s =
      .next ((put (Ring.produce size r)).answer ⟨.ok, 0, none, .none⟩) :=
  if_neg h

theorem Ring.empty_iff (r : Ring) : Ring.empty r = true ↔ r.inUse = 0 := beq_iff_eq

theorem Ring.full_iff (n : Nat) (r : Ring) : Ring.full n r = true ↔ r.inUse.toNat = n - 1 := beq_iff_eq

theorem consumeOn_of_empty {reason : FaultReason} {size : Nat} {r : Ring} {put : Ring → State}
    (h : r.inUse = 0) : consumeOn reason i size r put s =
      .next (s.latch ⟨reason, some (encode i).cw, some 0⟩) :=
  if_pos (r.empty_iff.2 h)

theorem consumeOn_of_nonempty {reason : FaultReason} {size : Nat} {r : Ring} {put : Ring → State}
    (h : r.inUse ≠ 0) : consumeOn reason i size r put s =
      .next ((put (Ring.consume size r)).answer ⟨.ok, 0, none, .none⟩) :=
  if_neg (r.empty_iff.not.2 h)

/-- A doorbell whose scaled increment does not fit faults (R77, R83). -/
theorem ringDoorbell_of_wide {inc : Half} {stride : Nat} {qid : Word} {addr : Addr}
    (hwide : 2 ^ s.cfg.pidxWidth ≤ inc.toNat * stride) : ringDoorbell i inc stride qid addr s =
      .next (s.latch ⟨.dbIncRange, some (encode i).cw, some (BitVec.ofNat 32 (inc.toNat * stride))⟩) :=
  if_pos hwide

end

/-- A command word without `S`: the operation code in the top byte, the operand below (R58). -/
theorem commandWord_eq_ofNat (op : BitVec 8) (imm : Half) :
    commandWord op 0 imm = BitVec.ofNat 32 (op.toNat * 2 ^ 24 + imm.toNat) := by
  apply BitVec.eq_of_toNat_eq
  rw [commandWord_toNat, BitVec.toNat_ofNat, Nat.mod_eq_of_lt (by omega)]
  simp

/-! ## Produces and consumes -/

/-- Settles O23: a produce on the SQ's ring, of which `N_SQ - 1` entries are full. -/
theorem sqProduceAddsOneOrFaults : Obligations.SqProduceAddsOneOrFaults := by
  unfold Obligations.SqProduceAddsOneOrFaults
  intro s hf
  exact ⟨fun hfull => (accepted_of_clear _ _ hf).trans (produceOn_of_full hfull),
    fun hroom => (accepted_of_clear _ _ hf).trans (produceOn_of_room hroom)⟩

/-- Settles O24: a consume on the SQ's ring. -/
theorem sqConsumeTakesOneOrFaults : Obligations.SqConsumeTakesOneOrFaults := by
  unfold Obligations.SqConsumeTakesOneOrFaults
  intro s hf
  exact ⟨fun hempty => (accepted_of_clear _ _ hf).trans (consumeOn_of_empty hempty),
    fun hsome => (accepted_of_clear _ _ hf).trans (consumeOn_of_nonempty hsome)⟩

/-- Settles O25: a produce on the RQ's ring, which leaves `rq.msn` alone. -/
theorem rqProduceAddsOneOrFaults : Obligations.RqProduceAddsOneOrFaults := by
  unfold Obligations.RqProduceAddsOneOrFaults
  intro s hf
  exact ⟨fun hfull => (accepted_of_clear _ _ hf).trans (produceOn_of_full hfull),
    fun hroom => (accepted_of_clear _ _ hf).trans (produceOn_of_room hroom)⟩

/-- Settles O26: a consume on the RQ's ring, whose message count is a sum of 32-bit words and so wraps. -/
theorem rqConsumeTakesOneAndCountsOrFaults : Obligations.RqConsumeTakesOneAndCountsOrFaults := by
  unfold Obligations.RqConsumeTakesOneAndCountsOrFaults
  intro s hf
  refine ⟨fun hempty => (accepted_of_clear _ _ hf).trans (consumeOn_of_empty hempty), fun hsome => ?_⟩
  have hmsn : BitVec.ofNat 32 ((s.rqMsn.toNat + 1) % 2 ^ 32) = s.rqMsn + 1 := by
    apply BitVec.eq_of_toNat_eq
    simp
  rw [hmsn]
  exact (accepted_of_clear _ _ hf).trans (consumeOn_of_nonempty hsome)

/-! ## Queries -/

theorem boolVal_eq_ite {b : Bool} {p : Prop} [Decidable p] (h : b = true ↔ p) :
    boolVal b = if p then 1 else 0 :=
  if_congr h rfl rfl

section
variable {s : State} (hf : s.fault = none)
include hf

theorem exec_sqEmpty :
    exec .sqEmpty s = .next (s.answer ⟨.ok, if s.sq.inUse = 0 then 1 else 0, none, .none⟩) := by
  rw [← boolVal_eq_ite (Ring.empty_iff _)]
  exact accepted_of_clear _ _ hf

theorem exec_sqFull : exec .sqFull s =
    .next (s.answer ⟨.ok, if s.sq.inUse.toNat = s.cfg.nSq - 1 then 1 else 0, none, .none⟩) := by
  rw [← boolVal_eq_ite (Ring.full_iff _ _)]
  exact accepted_of_clear _ _ hf

theorem exec_sqAvail : exec .sqAvail s =
    .next (s.answer ⟨.ok, BitVec.ofNat 64 (s.cfg.nSq - 1 - s.sq.inUse.toNat), none, .none⟩) :=
  accepted_of_clear _ _ hf

theorem exec_rqEmpty :
    exec .rqEmpty s = .next (s.answer ⟨.ok, if s.rq.inUse = 0 then 1 else 0, none, .none⟩) := by
  rw [← boolVal_eq_ite (Ring.empty_iff _)]
  exact accepted_of_clear _ _ hf

theorem exec_rqFull : exec .rqFull s =
    .next (s.answer ⟨.ok, if s.rq.inUse.toNat = s.cfg.nRq - 1 then 1 else 0, none, .none⟩) := by
  rw [← boolVal_eq_ite (Ring.full_iff _ _)]
  exact accepted_of_clear _ _ hf

theorem exec_rqAvail : exec .rqAvail s =
    .next (s.answer ⟨.ok, BitVec.ofNat 64 (s.cfg.nRq - 1 - s.rq.inUse.toNat), none, .none⟩) :=
  accepted_of_clear _ _ hf

theorem exec_rqesPosted :
    exec .rqesPosted s = .next (s.answer ⟨.ok, BitVec.ofNat 64 s.rq.inUse.toNat, none, .none⟩) := by
  rw [BitVec.ofNat_toNat]
  exact accepted_of_clear _ _ hf

end

/-- Settles O27: the three encodings and the three answers. -/
theorem sqQueriesAnswerOccupancy : Obligations.SqQueriesAnswerOccupancy := by
  unfold Obligations.SqQueriesAnswerOccupancy
  exact ⟨rfl, rfl, rfl, fun s hf => ⟨exec_sqEmpty hf, exec_sqFull hf, fun _ => exec_sqAvail hf⟩⟩

/-- Settles O28: the four encodings and the four answers. -/
theorem rqQueriesAnswerOccupancy : Obligations.RqQueriesAnswerOccupancy := by
  unfold Obligations.RqQueriesAnswerOccupancy
  exact ⟨rfl, rfl, rfl, rfl, fun s hf =>
    ⟨exec_rqEmpty hf, exec_rqFull hf, fun _ => exec_rqAvail hf, exec_rqesPosted hf⟩⟩

/-! ## Doorbells -/

/-- Settles O29: the doorbell with the SQ's stride, id and register. -/
theorem ringSqDbFencesThenWritesOrFaults : Obligations.RingSqDbFencesThenWritesOrFaults := by
  unfold Obligations.RingSqDbFencesThenWritesOrFaults
  intro s inc hf
  refine ⟨fun hwide => ?_, fun hfits => (accepted_of_clear _ _ hf).trans (ringDoorbell_of_fits hfits)⟩
  have hcw : (encode (.ringSqDb inc)).cw = BitVec.ofNat 32 (0x06000000 + inc.toNat) :=
    commandWord_eq_ofNat 0x06 inc
  rw [← hcw]
  exact (accepted_of_clear _ _ hf).trans (ringDoorbell_of_wide hwide)

/-- Settles O30: the doorbell with the RQ's stride, id and register. -/
theorem ringRqDbFencesThenWritesOrFaults : Obligations.RingRqDbFencesThenWritesOrFaults := by
  unfold Obligations.RingRqDbFencesThenWritesOrFaults
  intro s inc hf
  refine ⟨fun hwide => ?_, fun hfits => (accepted_of_clear _ _ hf).trans (ringDoorbell_of_fits hfits)⟩
  have hcw : (encode (.ringRqDb inc)).cw = BitVec.ofNat 32 (0x0E000000 + inc.toNat) :=
    commandWord_eq_ofNat 0x0E inc
  rw [← hcw]
  exact (accepted_of_clear _ _ hf).trans (ringDoorbell_of_wide hwide)

end Sys2Proof.Machine
end

section
/-!
PROOF. The conservation law of the work-queue rings (R85): along an unfaulted run the registers of a ring are the
numbers of its produces and consumes so far.
-/
namespace Sys2Proof.Machine

/-! ## One ring -/

/-- The registers of a ring of size `n` that took `p` entries and gave up `c` of them. -/
structure RingCounts (n p c : Nat) (r : Ring) : Prop where
  inUse : r.inUse.toNat + c = p
  inUse_le : r.inUse.toNat ≤ n - 1
  pidx : r.pidx.toNat = p % n
  cidx : r.cidx.toNat = c % n

/-- What command `i` does to a ring of size `n` whose produce and consume are `P` and `C`. -/
structure RingMoves (n : Nat) (P C i : Instr) (r r' : Ring) : Prop where
  produce : i = P → r.inUse.toNat ≠ n - 1 ∧ r' = Ring.produce n r
  consume : i = C → r.inUse ≠ 0 ∧ r' = Ring.consume n r
  other : i ≠ P → i ≠ C → r' = r

section
variable {n p c : Nat} {r : Ring}

/-- One entry less in a ring that holds one (R12, R73, R79). -/
theorem Ring.consume_toNat (hn : n ≤ 65535) (hsome : r.inUse ≠ 0) (hc : r.cidx.toNat < n) :
    (Ring.consume n r).inUse.toNat + 1 = r.inUse.toNat ∧
    (Ring.consume n r).cidx.toNat = (r.cidx.toNat + 1) % n := by
  refine ⟨?_, incMod_toNat _ _ hc hn⟩
  change (r.inUse - 1).toNat + 1 = _
  bv_omega

theorem RingCounts.produce (h : RingCounts n p c r) (hpos : 1 ≤ n) (hn : n ≤ 65535)
    (hroom : r.inUse.toNat ≠ n - 1) : RingCounts n (p + 1) c (Ring.produce n r) := by
  have hlt : r.inUse.toNat < n - 1 := h.inUse_le.lt_of_ne hroom
  obtain ⟨huse, hpidx⟩ := Ring.produce_toNat hn hlt (h.pidx ▸ Nat.mod_lt _ hpos)
  exact ⟨by rw [huse, ← h.inUse]; omega, by omega, by rw [hpidx, h.pidx, Nat.mod_add_mod], h.cidx⟩

theorem RingCounts.consume (h : RingCounts n p c r) (hpos : 1 ≤ n) (hn : n ≤ 65535)
    (hsome : r.inUse ≠ 0) : RingCounts n p (c + 1) (Ring.consume n r) := by
  obtain ⟨huse, hcidx⟩ := Ring.consume_toNat hn hsome (h.cidx ▸ Nat.mod_lt _ hpos)
  have hin := h.inUse
  have hle := h.inUse_le
  exact ⟨by omega, by omega, h.pidx, by rw [hcidx, h.cidx, Nat.mod_add_mod]⟩

/-- One command more counts as what it does to the ring. -/
theorem RingCounts.step {P C i : Instr} {is : List Instr} {r' : Ring}
    (h : RingCounts n (is.count P) (is.count C) r) (hm : RingMoves n P C i r r') (hPC : P ≠ C)
    (hpos : 1 ≤ n) (hn : n ≤ 65535) : RingCounts n ((is ++ [i]).count P) ((is ++ [i]).count C) r' := by
  simp only [List.count_append, List.count_singleton, beq_iff_eq]
  by_cases hP : i = P
  · obtain ⟨hroom, rfl⟩ := hm.produce hP
    simpa [hP, hPC] using h.produce hpos hn hroom
  by_cases hC : i = C
  · obtain ⟨hsome, rfl⟩ := hm.consume hC
    simpa [hC, hPC.symm] using h.consume hpos hn hsome
  · simpa [hP, hC, hm.other hP hC] using h

end

/-! ## One command -/

/-- The SQ's ring moves by its own produce and consume only (R27, R72, R73). -/
theorem Effect.sq_moves {i : Instr} {s s' : State} (h : Effect i s s') :
    RingMoves s.cfg.nSq .sqProduce .sqConsume i s.sq s'.sq where
  produce := by
    rintro rfl
    obtain ⟨hroom, rfl⟩ := h
    exact ⟨hroom, rfl⟩
  consume := by
    rintro rfl
    obtain ⟨hsome, rfl⟩ := h
    exact ⟨hsome, rfl⟩
  other hP hC := by simpa [hP, hC] using h.writesListed.1.sq

/-- The RQ's ring moves by its own produce and consume only (R27, R78, R79). -/
theorem Effect.rq_moves {i : Instr} {s s' : State} (h : Effect i s s') :
    RingMoves s.cfg.nRq .rqProduce .rqConsume i s.rq s'.rq where
  produce := by
    rintro rfl
    obtain ⟨hroom, rfl⟩ := h
    exact ⟨hroom, rfl⟩
  consume := by
    rintro rfl
    obtain ⟨hsome, rfl⟩ := h
    exact ⟨hsome, rfl⟩
  other hP hC := by simpa [hP, hC] using h.writesListed.1.rq

/-- `rq.msn` counts the RQ's consumes and nothing else (R79). -/
theorem Effect.rqMsn_eq {i : Instr} {s s' : State} (h : Effect i s s') :
    s'.rqMsn = s.rqMsn + BitVec.ofNat 32 ([i].count .rqConsume) := by
  by_cases hC : i = .rqConsume
  · subst hC
    obtain ⟨-, rfl⟩ := h
    rfl
  · have hmsn : s'.rqMsn = s.rqMsn := by simpa [hC] using h.writesListed.1.rqMsn
    simp [hmsn, hC]

/-! ## Runs -/

/-- What holds at the start of a run and is kept by the effect and the answer of every command holds at the end
of the run, if it did not fault. -/
theorem execAll_induction {Q : List Instr → State → Prop}
    (hstep : ∀ is i u v r, Q is u → Effect i u v → Q (is ++ [i]) (v.answer r)) {s : State} (h0 : Q [] s)
    (is : List Instr) (t : State) (h : execAll is s = .next t) (ht : t.fault = none) : Q is t := by
  induction is using List.reverseRecOn generalizing t with
  | nil =>
    cases h
    exact h0
  | append_singleton is i ih =>
    obtain ⟨u, hu, hut⟩ := (execAll_append _ _ _ _).1 h
    have hf : u.fault = none := fault_of_execAll _ _ _ hut ht
    obtain ⟨v, hv, hvt⟩ := (execAll_cons _ _ _ _).1 hut
    cases hvt
    obtain ⟨reason, info, rfl⟩ | ⟨r, s', rfl, he⟩ := exec_cases i u t hf hv
    · cases ht
    · exact hstep is i u s' r (ih u hu hf) he

/-- The work-queue registers under configuration `c` are what the commands `is` since reset make them (R85). -/
structure WqCounts (c : Cfg) (is : List Instr) (s : State) : Prop where
  cfg : s.cfg = c
  sq : RingCounts c.nSq (is.count .sqProduce) (is.count .sqConsume) s.sq
  rq : RingCounts c.nRq (is.count .rqProduce) (is.count .rqConsume) s.rq
  rqMsn : s.rqMsn = BitVec.ofNat 32 (c.msnInit + is.count .rqConsume)

theorem WqCounts.reset (c : Cfg) (m : Memory) (ins : List Input) : WqCounts c [] (State.resetWith c m ins) where
  cfg := rfl
  sq := ⟨rfl, Nat.zero_le _, (Nat.zero_mod _).symm, (Nat.zero_mod _).symm⟩
  rq := ⟨rfl, Nat.zero_le _, (Nat.zero_mod _).symm, (Nat.zero_mod _).symm⟩
  rqMsn := rfl

theorem WqCounts.step {c : Cfg} (hw : c.wf = true) {is : List Instr} {i : Instr} {u v : State}
    (h : WqCounts c is u) (he : Effect i u v) (r : Response) : WqCounts c (is ++ [i]) (v.answer r) := by
  obtain ⟨hsq1, hsq, hrq1, hrq, -⟩ := Cfg.sizesOk hw
  obtain ⟨rfl, hsqc, hrqc, hmsn⟩ := h
  refine ⟨he.writesListed.1.cfg, hsqc.step he.sq_moves (by decide) hsq1 hsq,
    hrqc.step he.rq_moves (by decide) hrq1 hrq, ?_⟩
  rw [State.answer_rqMsn, he.rqMsn_eq, hmsn, List.count_append, ← Nat.add_assoc, ← BitVec.ofNat_add]

/-! ## What the queries answer -/

theorem State.answer_inj {s : State} {r r' : Response} : s.answer r = s.answer r' ↔ r = r' := by
  refine ⟨fun h => ?_, fun h => h ▸ rfl⟩
  simpa using congrArg State.responses h

/-- A query that answers 1 or 0 by a condition answers 1 exactly when it holds. -/
theorem answers_one_iff {q : Instr} {s : State} {p : Prop} [Decidable p]
    (h : exec q s = .next (s.answer ⟨.ok, if p then 1 else 0, none, .none⟩)) :
    exec q s = .next (s.answer ⟨.ok, 1, none, .none⟩) ↔ p := by
  rw [h, Host.Outcome.next.injEq, State.answer_inj]
  by_cases hp : p <;> simp [hp]

/-- A query that answers `k - use` answers what `use` lacks to `k`. -/
theorem answers_rest {q : Instr} {s : State} {k use : Nat} (hle : use ≤ k) (hk : k < 2 ^ 64)
    (h : exec q s = .next (s.answer ⟨.ok, BitVec.ofNat 64 (k - use), none, .none⟩)) :
    ∃ v : DWord, exec q s = .next (s.answer ⟨.ok, v, none, .none⟩) ∧ v.toNat + use = k := by
  refine ⟨_, h, ?_⟩
  rw [BitVec.toNat_ofNat, Nat.mod_eq_of_lt (by omega), Nat.sub_add_cancel hle]

/-- Settles O33: the counts hold at reset and every command keeps them; the queries answer by them. -/
theorem ringRegistersCountProducesAndConsumes : Obligations.RingRegistersCountProducesAndConsumes := by
  unfold Obligations.RingRegistersCountProducesAndConsumes
  intro c m ins is t hw h ht
  have hcounts : WqCounts c is t :=
    execAll_induction (fun _ _ _ _ r hu he => hu.step hw he r) (.reset c m ins) is t h ht
  obtain ⟨-, hsq, -, hrq, -⟩ := Cfg.sizesOk hw
  obtain ⟨rfl, hsqc, hrqc, hmsn⟩ := hcounts
  exact ⟨⟨hsqc.inUse, hsqc.inUse_le, hsqc.pidx, hsqc.cidx, answers_one_iff (exec_sqFull ht),
      answers_rest hsqc.inUse_le (by omega) (exec_sqAvail ht)⟩,
    ⟨hrqc.inUse, hrqc.inUse_le, hrqc.pidx, hrqc.cidx, answers_one_iff (exec_rqFull ht),
      answers_rest hrqc.inUse_le (by omega) (exec_rqAvail ht)⟩,
    by rw [hmsn, BitVec.toNat_ofNat]⟩

end Sys2Proof.Machine
end

section
/-!
PROOF. The work-queue sentinel commands (R86 to R90): what the two queries read, and what the three commands that
write both sentinels leave in memory when the Adapter does not act inside them (R54).
-/
namespace Sys2Proof.Machine

/-- A sentinel byte reads as set when it is non-zero (R14). -/
theorem flagSet_iff (b : Byte) : flagSet b = true ↔ b ≠ 0 := bne_iff_ne

/-- Settles O35: the three operands of the disjunction, each by what its test means. -/
theorem wqInErrorOrsFlagAndBothSentinels : Obligations.WqInErrorOrsFlagAndBothSentinels := by
  unfold Obligations.WqInErrorOrsFlagAndBothSentinels
  refine ⟨rfl, fun s hf => ?_⟩
  have htest : (s.wqSwError == 1 || flagSet (s.readByte s.cfg.sqErr) ||
      flagSet (s.readByte s.cfg.rqErr)) = true ↔
      s.wqSwError = 1 ∨ s.readByte s.cfg.sqErr ≠ 0 ∨ s.readByte s.cfg.rqErr ≠ 0 := by
    rw [Bool.or_eq_true, Bool.or_eq_true, beq_iff_eq, flagSet_iff, flagSet_iff, or_assoc]
  rw [← boolVal_eq_ite htest]
  exact accepted_of_clear _ _ hf

/-- Settles O38: the answer is the negation of the SQ's `.dboff` flag. -/
theorem wqDbEnabledReadsSqDboff : Obligations.WqDbEnabledReadsSqDboff := by
  unfold Obligations.WqDbEnabledReadsSqDboff
  refine ⟨rfl, fun s hf => ?_⟩
  have htest : (!flagSet (s.readByte s.cfg.sqDboff)) = true ↔ s.readByte s.cfg.sqDboff = 0 := by
    rw [Bool.not_eq_true', ← Bool.not_eq_true, flagSet_iff, not_not]
  rw [← boolVal_eq_ite htest]
  exact accepted_of_clear _ _ hf

/-- Two writes of one value leave it at both addresses and every other byte alone. -/
theorem Memory.read_write_write (m : Memory) (p q a : Addr) (v : Byte) :
    Memory.read (Memory.write (Memory.write m p v) q v) a = if a = p ∨ a = q then v else Memory.read m a := by
  rw [Memory.read_write, Memory.read_write, ← ite_or]
  exact if_congr (or_comm.trans (or_congr eq_comm eq_comm)) rfl rfl

/-- With no Adapter event inside, a command that writes both sentinels changes memory alone, and of memory the
two bytes it writes. -/
theorem writeBoth_of_not_inside {s : State} (h : ∀ e rest, s.inputs ≠ .adapterInside e :: rest)
    (p q : Addr) (v : Byte) : ∃ m, writeBoth p q v s = { s with mem := m } ∧
      ∀ a, Memory.read m a = if a = p ∨ a = q then v else s.readByte a := by
  refine ⟨_, ?_, fun a => Memory.read_write_write s.mem p q a v⟩
  rw [writeBoth, State.window_eq_self (s.writeByte p v) h]
  rfl

/-- A command whose meaning is to write both sentinels and answer OK does so when the latch is clear and no
Adapter event is inside. -/
theorem exec_of_writeBoth {i : Instr} {s : State} {p q : Addr} {v : Byte} (hf : s.fault = none)
    (hin : ∀ e rest, s.inputs ≠ .adapterInside e :: rest)
    (hi : exec i s = accepted s (respondOk 0 (writeBoth p q v s))) :
    ∃ m, exec i s = .next (({ s with mem := m } : State).answer ⟨.ok, 0, none, .none⟩) ∧
      ∀ a, Memory.read m a = if a = p ∨ a = q then v else s.readByte a := by
  obtain ⟨m, hm, hread⟩ := writeBoth_of_not_inside hin p q v
  exact ⟨m, by rw [hi, accepted_of_clear s _ hf, hm, respondOk_eq], hread⟩

/-- Settles O36: the three commands are one operation at two addresses with one value. -/
theorem wqSentinelCommandsWriteBothRings : Obligations.WqSentinelCommandsWriteBothRings := by
  unfold Obligations.WqSentinelCommandsWriteBothRings
  exact ⟨rfl, rfl, rfl, fun s hf hin =>
    ⟨exec_of_writeBoth hf hin rfl, exec_of_writeBoth hf hin rfl, exec_of_writeBoth hf hin rfl⟩⟩

end Sys2Proof.Machine
end

section
/-!
PROOF. The completion-queue engine, one command at a time (R91 to R102): what each command does on either side of its
tests. The trailer's two fields are read off its number once, for the commands that look at a record.
-/
namespace Sys2Proof.Machine

/-! ## The trailer -/

/-- The generation bit is the trailer's top bit, as a number (R65). -/
theorem Cqe.gen_eq_iff (r : Cqe) (g : BitVec 1) : Cqe.gen r = g ↔ r.trailer.toNat / 2 ^ 63 = g.toNat := by
  have htop : r.trailer.toNat / 2 ^ 63 < 2 ^ 1 := by omega
  rw [← BitVec.toNat_inj, Cqe.gen, BitVec.extractLsb'_toNat, Nat.shiftRight_eq_div_pow, Nat.mod_eq_of_lt htop]

/-- The timestamp is the trailer's lower 60 bits, as a number (R65). -/
theorem Cqe.ts_toNat (r : Cqe) : (Cqe.ts r).toNat = r.trailer.toNat % 2 ^ 60 := by
  rw [Cqe.ts, BitVec.extractLsb'_toNat, Nat.shiftRight_zero]

/-! ## The hardware ring -/

section
variable {s : State} (hf : s.fault = none)
include hf

theorem exec_cqHwConsume_of_increments (hinc : s.cqCidxInc.toNat ≠ 2 ^ 32 - 1) : exec .cqHwConsume s =
    .next ((hwAdvance { s with cqCidxInc := s.cqCidxInc + 1 }).answer ⟨.ok, 0, none, .none⟩) :=
  (accepted_of_clear _ _ hf).trans (if_neg hinc)

theorem exec_cqArm_of_wide (se : BitVec 1) (hwide : 2 ^ s.cfg.armCidxincWidth ≤ s.cqCidxInc.toNat) :
    exec (.cqArm se) s = .next (s.latch ⟨.armIncRange, some (encode (.cqArm se)).cw, some s.cqCidxInc⟩) :=
  (accepted_of_clear _ _ hf).trans (if_pos hwide)

theorem exec_cqArm_of_fits (se : BitVec 1) (hfits : s.cqCidxInc.toNat < 2 ^ s.cfg.armCidxincWidth) :
    exec (.cqArm se) s = .next ((({ s with cqCidxInc := 0 } : State).emit
      (.mmioWrite32 s.cfg.cqArm (armWord s.cfg se s.cqCidxInc))).answer ⟨.ok, 0, none, .none⟩) :=
  (accepted_of_clear _ _ hf).trans (if_neg (Nat.not_le.2 hfits))

end

/-- Settles O39: the three cases are the two tests of R91. -/
theorem cqHwConsumeAdvancesOrFaults : Obligations.CqHwConsumeAdvancesOrFaults := by
  unfold Obligations.CqHwConsumeAdvancesOrFaults
  intro s hf
  refine ⟨fun hmax => (accepted_of_clear _ _ hf).trans (if_pos hmax), fun hinc hend => ?_, fun hinc hend => ?_⟩
  · rw [exec_cqHwConsume_of_increments hf hinc, hwAdvance, if_pos hend]
  · rw [exec_cqHwConsume_of_increments hf hinc, hwAdvance, if_neg hend]

/-- Settles O41: the validity check compares the trailer's top bit. -/
theorem cqIsValidComparesGeneration : Obligations.CqIsValidComparesGeneration := by
  unfold Obligations.CqIsValidComparesGeneration
  refine fun s r hf => ⟨rfl, ?_⟩
  have htest : isValid r s = true ↔ r.trailer.toNat / 2 ^ 63 = s.cqGen.toNat :=
    beq_iff_eq.trans (Cqe.gen_eq_iff r s.cqGen)
  rw [← boolVal_eq_ite htest]
  exact accepted_of_clear _ _ hf

/-- Settles O42: the three outcomes of a poll, its record's two fields read as numbers. -/
theorem cqNextHwReturnsOverflowsOrHasNoData : Obligations.CqNextHwReturnsOverflowsOrHasNoData := by
  unfold Obligations.CqNextHwReturnsOverflowsOrHasNoData
  refine ⟨rfl, fun s hf => ?_⟩
  have hgen := Cqe.gen_eq_iff (hwRecord s) s.cqGen
  have hts := Cqe.ts_toNat (hwRecord s)
  refine ⟨fun hvalid => ?_, fun hold hbeyond => ?_, fun hold hbefore => ?_⟩
  · rw [← Cqe.ts_toNat, BitVec.ofNat_toNat, BitVec.ofNat_toNat, BitVec.setWidth_eq]
    exact exec_cqNextHw_of_valid hf (hgen.2 hvalid)
  · exact exec_cqNextHw_of_beyond hf (hgen.not.2 hold) (hbeyond.trans_eq hts.symm)
  · exact exec_cqNextHw_of_old hf (hgen.not.2 hold) (hts.trans_le hbefore)

/-- Settles O49: the range check, then the one write; `S` is bit 16 of the word (R58). -/
theorem cqArmWritesAndClearsIncrementOrFaults : Obligations.CqArmWritesAndClearsIncrementOrFaults := by
  unfold Obligations.CqArmWritesAndClearsIncrementOrFaults
  refine fun s se hf => ⟨fun hwide => ?_, exec_cqArm_of_fits hf se⟩
  have hcw : (encode (.cqArm se)).cw = BitVec.ofNat 32 (0x25000000 + se.toNat * 2 ^ 16) := by
    apply BitVec.eq_of_toNat_eq
    rw [encode, commandWord_toNat, BitVec.toNat_ofNat, Nat.mod_eq_of_lt (by omega)]
    simp
  rw [← hcw]
  exact exec_cqArm_of_wide hf se hwide

/-! ## The auxiliary ring, and the choice between the two -/

section
variable {s : State} (hf : s.fault = none)
include hf

theorem exec_cqNext_of_error (he : s.cqError = 1) :
    exec .cqNext s = .next (s.answer ⟨.nodata, 0, none, .none⟩) :=
  (accepted_of_clear _ _ hf).trans (if_pos he)

theorem exec_cqNext_of_aux (he : s.cqError ≠ 1) (hsome : s.swq.inUse ≠ 0) : exec .cqNext s =
    .next (s.answer ⟨.ok, BitVec.ofNat 64 s.swq.cidx.toNat, some (swRecord s), .sw⟩) := by
  have hpos : 0 < s.swq.inUse.toNat := by bv_omega
  rw [BitVec.ofNat_toNat, ← pollSw_eq]
  exact (accepted_of_clear _ _ hf).trans ((if_neg he).trans (if_pos hpos))

theorem exec_cqNext_of_empty (he : s.cqError ≠ 1) (hempty : s.swq.inUse = 0) :
    exec .cqNext s = exec .cqNextHw s := by
  have hzero : ¬ 0 < s.swq.inUse.toNat := by simp [hempty]
  exact (accepted_of_clear _ _ hf).trans
    (((if_neg he).trans (if_neg hzero)).trans (accepted_of_clear _ _ hf).symm)

theorem exec_cqSwConsume_of_nonempty (hsome : s.swq.inUse ≠ 0) : exec .cqSwConsume s =
    .next (({ s with swq := Ring.consume s.cfg.nCq s.swq } : State).answer ⟨.ok, 0, none, .none⟩) :=
  (accepted_of_clear _ _ hf).trans (consumeOn_of_nonempty hsome)

end

/-- Settles O43: the two sides of the test for an empty ring. -/
theorem cqNextSwReturnsHeadOrHasNoData : Obligations.CqNextSwReturnsHeadOrHasNoData := by
  unfold Obligations.CqNextSwReturnsHeadOrHasNoData
  refine ⟨rfl, fun s hf => ⟨fun hempty => ?_, fun hsome => ?_⟩⟩
  · exact (accepted_of_clear _ _ hf).trans (if_pos (s.swq.empty_iff.2 hempty))
  · rw [BitVec.ofNat_toNat]
    exact (accepted_of_clear _ _ hf).trans (if_neg (s.swq.empty_iff.not.2 hsome))

/-- Settles O44: the two tests in their order; what `CQ_NEXT_HW` does ends in a next state. -/
theorem cqNextPrefersErrorThenAuxiliaryThenHardware :
    Obligations.CqNextPrefersErrorThenAuxiliaryThenHardware := by
  unfold Obligations.CqNextPrefersErrorThenAuxiliaryThenHardware
  exact ⟨rfl, fun s hf => ⟨exec_cqNext_of_error hf, exec_cqNext_of_aux hf,
    fun he hempty => ⟨exec_cqNext_of_empty hf he hempty, exec_next _ s⟩⟩⟩

/-- Settles O46: a produce on the auxiliary ring, of which all `N_CQ` entries are full. -/
theorem cqSwProduceAddsOneOrFaults : Obligations.CqSwProduceAddsOneOrFaults := by
  unfold Obligations.CqSwProduceAddsOneOrFaults
  intro s hf
  exact ⟨fun hfull => (accepted_of_clear _ _ hf).trans (produceOn_of_full hfull),
    fun hroom => (accepted_of_clear _ _ hf).trans (produceOn_of_room hroom)⟩

/-- Settles O47: a consume on the auxiliary ring. -/
theorem cqSwConsumeTakesOneOrFaults : Obligations.CqSwConsumeTakesOneOrFaults := by
  unfold Obligations.CqSwConsumeTakesOneOrFaults
  intro s hf
  exact ⟨fun hempty => (accepted_of_clear _ _ hf).trans (consumeOn_of_empty hempty),
    exec_cqSwConsume_of_nonempty hf⟩

/-! ## The sentinel -/

/-- A command whose meaning is to write one byte and answer OK changes memory alone, and of memory that byte. -/
theorem exec_of_writeByte {i : Instr} {s : State} {p : Addr} {v : Byte} (hf : s.fault = none)
    (hi : exec i s = accepted s (respondOk 0 (s.writeByte p v))) :
    ∃ m, exec i s = .next (({ s with mem := m } : State).answer ⟨.ok, 0, none, .none⟩) ∧
      ∀ a, Memory.read m a = if a = p then v else s.readByte a :=
  ⟨Memory.write s.mem p v, hi.trans (accepted_of_clear _ _ hf),
    fun a => (Memory.read_write s.mem p a v).trans (if_congr eq_comm rfl rfl)⟩

/-- Settles O50: one byte read as a flag (R14), and one byte written with either value. -/
theorem cqSentinelCommandsUseOnlyCqErr : Obligations.CqSentinelCommandsUseOnlyCqErr := by
  unfold Obligations.CqSentinelCommandsUseOnlyCqErr
  refine ⟨rfl, rfl, rfl, fun s hf => ⟨?_, exec_of_writeByte hf rfl, exec_of_writeByte hf rfl⟩⟩
  rw [← boolVal_eq_ite (flagSet_iff _)]
  exact accepted_of_clear _ _ hf

end Sys2Proof.Machine
end

section
/-!
PROOF. Runs of completion-queue commands (R103): the sticky error silences every later poll, and the auxiliary ring
drains in the order of its slots.
-/
namespace Sys2Proof.Machine

/-! ## The sticky error -/

/-- `cq.error` once set stays set (R22): the only write a command makes to it is a 1. -/
theorem exec_keeps_cqError {i : Instr} {s t : State} (h : exec i s = .next t) (he : s.cqError = 1) :
    t.cqError = 1 := by
  rcases (exec_writesListed h).cqError with hsame | ⟨hset, -⟩
  · exact hsame.trans he
  · exact hset

theorem execAll_keeps_cqError (is : List Instr) {s t : State} (h : execAll is s = .next t)
    (he : s.cqError = 1) : t.cqError = 1 := by
  induction is generalizing s with
  | nil =>
    cases h
    exact he
  | cons i is ih =>
    obtain ⟨u, hu, hut⟩ := (execAll_cons _ _ _ _).1 h
    exact ih hut (exec_keeps_cqError hu he)

/-- Of the three outcomes of a poll only the overflow answers OVERFLOW, and it sets `cq.error` (R93). -/
theorem cqError_of_overflow {s t : State} (hf : s.fault = none) (h : exec .cqNextHw s = .next t)
    (hr : t.responses = s.responses ++ [⟨.overflow, 0, none, .none⟩]) : t.cqError = 1 := by
  have hpoll : pollHw s = .next t := (accepted_of_clear _ _ hf).symm.trans h
  obtain ⟨-, rfl⟩ | ⟨-, -, rfl⟩ | ⟨-, -, rfl⟩ := pollHw_cases s t hpoll
  · simp at hr
  · rfl
  · simp at hr

/-- Settles O45: the overflow sets `cq.error`, every command keeps it, and `CQ_NEXT` tests it first. -/
theorem overflowMakesEveryLaterPollNoData : Obligations.OverflowMakesEveryLaterPollNoData := by
  unfold Obligations.OverflowMakesEveryLaterPollNoData
  intro s t u is hf h hr hrun
  have he : u.cqError = 1 := execAll_keeps_cqError is hrun (cqError_of_overflow hf h hr)
  exact ⟨he, fun hu => exec_cqNext_of_error hu he⟩

/-! ## Draining the auxiliary ring -/

/-- The two answers of the round, counted from 0, that polls and retires record `j` of the auxiliary ring. -/
def roundAnswers (s : State) (j : Nat) : List Response :=
  [⟨.ok, BitVec.ofNat 64 ((s.swq.cidx.toNat + j) % s.cfg.nCq),
    some (readCqe s.cfg s.mem (s.cfg.slotSw ((s.swq.cidx.toNat + j) % s.cfg.nCq))), .sw⟩,
   ⟨.ok, 0, none, .none⟩]

/-- From `s` to `t` the first `k` records of the auxiliary ring were polled and retired, and what a further round
looks at stayed. -/
structure Drained (s : State) (k : Nat) (t : State) : Prop where
  fault : t.fault = none
  cfg : t.cfg = s.cfg
  mem : t.mem = s.mem
  cqError : t.cqError = s.cqError
  cqLastTs : t.cqLastTs = s.cqLastTs
  inUse : t.swq.inUse.toNat + k = s.swq.inUse.toNat
  cidx : t.swq.cidx.toNat = (s.swq.cidx.toNat + k) % s.cfg.nCq
  responses : t.responses = s.responses ++ ((List.range k).map (roundAnswers s)).flatten

theorem Drained.zero {s : State} (hf : s.fault = none) (hc : s.swq.cidx.toNat < s.cfg.nCq) :
    Drained s 0 s :=
  ⟨hf, rfl, rfl, rfl, rfl, rfl, (Nat.mod_eq_of_lt hc).symm, (List.append_nil _).symm⟩

/-- Where a record is left, one round more retires it and returns it from the slot that follows (R96, R98). -/
theorem Drained.round {s u : State} {k : Nat} (h : Drained s k u) (hw : s.cfg.wf = true)
    (he : s.cqError = 0) (hk : k < s.swq.inUse.toNat) :
    ∃ t, execAll [.cqNext, .cqSwConsume] u = .next t ∧ Drained s (k + 1) t := by
  obtain ⟨hf, hcfg, hmem, herr, hts, huse, hcidx, hresp⟩ := h
  obtain ⟨-, -, -, -, hpos, hmax, -⟩ := Cfg.sizesOk hw
  have hsome : u.swq.inUse ≠ 0 := by bv_omega
  have hnoerr : u.cqError ≠ 1 := by simp [herr, he]
  have hlt : u.swq.cidx.toNat < u.cfg.nCq := by
    rw [hcfg, hcidx]
    exact Nat.mod_lt _ hpos
  obtain ⟨cuse, ccidx⟩ := Ring.consume_toNat (hcfg ▸ hmax) hsome hlt
  have hpoll := exec_cqNext_of_aux hf hnoerr hsome
  refine ⟨_, (execAll_cons _ _ _ _).2 ⟨_, hpoll, (execAll_cons _ _ _ _).2
    ⟨_, exec_cqSwConsume_of_nonempty hf hsome, rfl⟩⟩, hf, hcfg, hmem, herr, hts, ?_, ?_, ?_⟩
  · change (Ring.consume u.cfg.nCq u.swq).inUse.toNat + (k + 1) = _
    omega
  · change (Ring.consume u.cfg.nCq u.swq).cidx.toNat = _
    rw [ccidx, hcfg, hcidx, Nat.mod_add_mod, Nat.add_assoc]
  · simp [hresp, List.range_succ, roundAnswers, swRecord, hcfg, hmem, hcidx]

/-- By induction on the number of rounds, the last one apart. -/
theorem execAll_rounds_drain {s : State} (hf : s.fault = none) (hw : s.cfg.wf = true)
    (hc : s.swq.cidx.toNat < s.cfg.nCq) (he : s.cqError = 0) (k : Nat) (hk : k ≤ s.swq.inUse.toNat) :
    ∃ t, execAll (List.replicate k [Instr.cqNext, Instr.cqSwConsume]).flatten s = .next t ∧
      Drained s k t := by
  induction k with
  | zero => exact ⟨s, rfl, .zero hf hc⟩
  | succ k ih =>
    obtain ⟨u, hu, hdrained⟩ := ih (by omega)
    obtain ⟨t, ht, hround⟩ := hdrained.round hw he hk
    refine ⟨t, ?_, hround⟩
    rw [List.replicate_succ', List.flatten_concat]
    exact (execAll_append _ _ _ _).2 ⟨u, hu, ht⟩

/-- Settles O48: the drained state after `k` rounds. -/
theorem auxiliaryRecordsDrainInOrder : Obligations.AuxiliaryRecordsDrainInOrder := by
  unfold Obligations.AuxiliaryRecordsDrainInOrder
  intro s k hf hw hregs he hk
  obtain ⟨-, -, ⟨-, -, hc, -⟩, -⟩ := hregs
  obtain ⟨t, ht, hdrained⟩ := execAll_rounds_drain hf hw hc he k hk
  exact ⟨t, ht, hdrained.fault, hdrained.cqLastTs, hdrained.inUse, hdrained.responses⟩

end Sys2Proof.Machine
end

section
/-!
PROOF. The fields of a completion record (R64 to R66): the decoders answer them (R106 to R121), and a header and a
trailer are their fields one after the other, so that the fields and the word determine each other (R122).
-/
namespace Sys2Proof.Machine

/-! ## Each field as a number -/

theorem Cqe.qpid_toNat (r : Cqe) : (Cqe.qpid r).toNat = r.header.toNat / 2 ^ 12 := by
  have htop : r.header.toNat / 2 ^ 12 < 2 ^ 20 := by omega
  rw [Cqe.qpid, BitVec.extractLsb'_toNat, Nat.shiftRight_eq_div_pow, Nat.mod_eq_of_lt htop]

theorem Cqe.swcqe_toNat (r : Cqe) : (Cqe.swcqe r).toNat = r.header.toNat / 2 ^ 11 % 2 := by
  rw [Cqe.swcqe, BitVec.extractLsb'_toNat, Nat.shiftRight_eq_div_pow, pow_one]

theorem Cqe.status_toNat (r : Cqe) : (Cqe.status r).toNat = r.header.toNat / 2 ^ 5 % 2 ^ 6 := by
  rw [Cqe.status, BitVec.extractLsb'_toNat, Nat.shiftRight_eq_div_pow]

theorem Cqe.entryType_toNat (r : Cqe) : (Cqe.entryType r).toNat = r.header.toNat / 2 ^ 4 % 2 := by
  rw [Cqe.entryType, BitVec.extractLsb'_toNat, Nat.shiftRight_eq_div_pow, pow_one]

theorem Cqe.opcode_toNat (r : Cqe) : (Cqe.opcode r).toNat = r.header.toNat % 2 ^ 4 := by
  rw [Cqe.opcode, BitVec.extractLsb'_toNat, Nat.shiftRight_zero]

theorem Cqe.sendFamily_iff (c : Cfg) (r : Cqe) :
    Cqe.sendFamily c r = true ↔ r.header.toNat % 2 ^ 4 ∈ c.sendOpcodes := by
  rw [Cqe.sendFamily, List.contains_iff_mem, Cqe.opcode_toNat]

theorem Cqe.sqIdx_toNat (r : Cqe) : (Cqe.sqIdx r).toNat = r.payLo.toNat % 2 ^ 16 := by
  rw [Cqe.sqIdx, BitVec.extractLsb'_toNat, Nat.shiftRight_zero]

theorem Cqe.gen_toNat (r : Cqe) : (Cqe.gen r).toNat = r.trailer.toNat / 2 ^ 63 :=
  ((Cqe.gen_eq_iff r _).1 rfl).symm

theorem Cqe.ovfl_toNat (r : Cqe) : (Cqe.ovfl r).toNat = r.trailer.toNat / 2 ^ 62 % 2 := by
  rw [Cqe.ovfl, BitVec.extractLsb'_toNat, Nat.shiftRight_eq_div_pow, pow_one]

theorem Cqe.iqtype_toNat (r : Cqe) : (Cqe.iqtype r).toNat = r.trailer.toNat / 2 ^ 60 % 2 ^ 2 := by
  rw [Cqe.iqtype, BitVec.extractLsb'_toNat, Nat.shiftRight_eq_div_pow]

/-! ## What the decoders answer -/

/-- A command whose meaning is to answer a field, zero-extended, answers the field's number and changes nothing
else (R105). -/
theorem exec_of_field {i : Instr} {s : State} {w n : Nat} {v : BitVec w} (hf : s.fault = none)
    (hi : exec i s = accepted s (respondOk (v.setWidth 64) s)) (hv : v.toNat = n) :
    exec i s = .next (s.answer ⟨.ok, BitVec.ofNat 64 n, none, .none⟩) := by
  rw [← hv, BitVec.ofNat_toNat, hi]
  exact accepted_of_clear _ _ hf

/-- Settles O53: five fields of the header, and the test of the last one. -/
theorem headerDecodersExtractTheirBits : Obligations.HeaderDecodersExtractTheirBits := by
  unfold Obligations.HeaderDecodersExtractTheirBits
  refine fun s r hf => ⟨rfl, rfl, rfl, rfl, rfl, rfl, exec_of_field hf rfl (Cqe.qpid_toNat r),
    exec_of_field hf rfl (Cqe.swcqe_toNat r), exec_of_field hf rfl (Cqe.status_toNat r),
    exec_of_field hf rfl (Cqe.entryType_toNat r), exec_of_field hf rfl (Cqe.opcode_toNat r), ?_⟩
  rw [← boolVal_eq_ite (Cqe.sendFamily_iff s.cfg r)]
  exact accepted_of_clear _ _ hf

/-- Settles O54: whole words of the record, but for the lower half of `pay_lo`. -/
theorem payloadDecodersReturnTheirWords : Obligations.PayloadDecodersReturnTheirWords := by
  unfold Obligations.PayloadDecodersReturnTheirWords
  exact fun s r hf => ⟨rfl, rfl, rfl, rfl, rfl, rfl, exec_of_field hf rfl rfl, exec_of_field hf rfl rfl,
    exec_of_field hf rfl rfl, exec_of_field hf rfl (Cqe.sqIdx_toNat r), exec_of_field hf rfl rfl,
    exec_of_field hf rfl rfl⟩

/-- Settles O55: the four fields of the trailer. -/
theorem trailerDecodersExtractTheirBits : Obligations.TrailerDecodersExtractTheirBits := by
  unfold Obligations.TrailerDecodersExtractTheirBits
  exact fun s r hf => ⟨rfl, rfl, rfl, rfl, exec_of_field hf rfl (Cqe.gen_toNat r),
    exec_of_field hf rfl (Cqe.ovfl_toNat r), exec_of_field hf rfl (Cqe.iqtype_toNat r),
    exec_of_field hf rfl (Cqe.ts_toNat r)⟩

/-! ## A word and its fields -/

/-- The header of five fields, the highest bits first (R64). -/
def headerOf (q : BitVec 20) (w : BitVec 1) (st : BitVec 6) (t : BitVec 1) (o : BitVec 4) : Word :=
  q ++ (w ++ (st ++ (t ++ o)))

/-- The trailer of four fields, the highest bits first (R65). -/
def trailerOf (g o : BitVec 1) (iq : BitVec 2) (ts : BitVec 60) : DWord := g ++ (o ++ (iq ++ ts))

theorem ofNat_shifted_eq_headerOf (q : BitVec 20) (w : BitVec 1) (st : BitVec 6) (t : BitVec 1)
    (o : BitVec 4) :
    BitVec.ofNat 32
      ((q.toNat <<< 12) ||| (w.toNat <<< 11) ||| (st.toNat <<< 5) ||| (t.toNat <<< 4) ||| o.toNat) =
      headerOf q w st t o := by
  have hval : (headerOf q w st t o).toNat =
      q.toNat <<< 12 ||| (w.toNat <<< 11 ||| (st.toNat <<< 5 ||| (t.toNat <<< 4 ||| o.toNat))) := by
    simp only [headerOf, BitVec.toNat_append]
  rw [Nat.or_assoc, Nat.or_assoc, Nat.or_assoc, ← hval, BitVec.ofNat_toNat, BitVec.setWidth_eq]

theorem ofNat_shifted_eq_trailerOf (g o : BitVec 1) (iq : BitVec 2) (ts : BitVec 60) :
    BitVec.ofNat 64 ((g.toNat <<< 63) ||| (o.toNat <<< 62) ||| (iq.toNat <<< 60) ||| ts.toNat) =
      trailerOf g o iq ts := by
  have hval : (trailerOf g o iq ts).toNat =
      g.toNat <<< 63 ||| (o.toNat <<< 62 ||| (iq.toNat <<< 60 ||| ts.toNat)) := by
    simp only [trailerOf, BitVec.toNat_append]
  rw [Nat.or_assoc, Nat.or_assoc, ← hval, BitVec.ofNat_toNat, BitVec.setWidth_eq]

/-- A record whose header is made of five fields has them. -/
theorem Cqe.fields_of_header {x : Cqe} {q : BitVec 20} {w : BitVec 1} {st : BitVec 6} {t : BitVec 1}
    {o : BitVec 4} (hx : x.header = headerOf q w st t o) :
    Cqe.qpid x = q ∧ Cqe.swcqe x = w ∧ Cqe.status x = st ∧ Cqe.entryType x = t ∧ Cqe.opcode x = o := by
  simp (disch := decide) only [Cqe.qpid, Cqe.swcqe, Cqe.status, Cqe.entryType, Cqe.opcode, hx, headerOf,
    BitVec.extractLsb'_append_eq_of_add_le, BitVec.extractLsb'_append_eq_left,
    BitVec.extractLsb'_eq_self, and_self]

/-- A record whose trailer is made of four fields has them. -/
theorem Cqe.fields_of_trailer {x : Cqe} {g o : BitVec 1} {iq : BitVec 2} {ts : BitVec 60}
    (hx : x.trailer = trailerOf g o iq ts) :
    Cqe.gen x = g ∧ Cqe.ovfl x = o ∧ Cqe.iqtype x = iq ∧ Cqe.ts x = ts := by
  simp (disch := decide) only [Cqe.gen, Cqe.ovfl, Cqe.iqtype, Cqe.ts, hx, trailerOf,
    BitVec.extractLsb'_append_eq_of_add_le, BitVec.extractLsb'_append_eq_left,
    BitVec.extractLsb'_eq_self, and_self]

/-- The five fields meet end to end and leave no bit of the header out. -/
theorem headerOf_fields (x : Cqe) :
    headerOf (Cqe.qpid x) (Cqe.swcqe x) (Cqe.status x) (Cqe.entryType x) (Cqe.opcode x) = x.header := by
  simp (disch := rfl) only [headerOf, Cqe.qpid, Cqe.swcqe, Cqe.status, Cqe.entryType, Cqe.opcode,
    BitVec.extractLsb'_append_extractLsb'_eq_extractLsb']
  exact BitVec.extractLsb'_eq_self

/-- So do the four fields of the trailer. -/
theorem trailerOf_fields (x : Cqe) :
    trailerOf (Cqe.gen x) (Cqe.ovfl x) (Cqe.iqtype x) (Cqe.ts x) = x.trailer := by
  simp (disch := rfl) only [trailerOf, Cqe.gen, Cqe.ovfl, Cqe.iqtype, Cqe.ts,
    BitVec.extractLsb'_append_extractLsb'_eq_extractLsb']
  exact BitVec.extractLsb'_eq_self

/-- Settles O56: the shifted fields or-ed together are the fields one after the other. -/
theorem headerAndTrailerFieldsRoundTrip : Obligations.HeaderAndTrailerFieldsRoundTrip := by
  unfold Obligations.HeaderAndTrailerFieldsRoundTrip
  exact ⟨fun _ _ _ _ _ _ => Cqe.fields_of_header (ofNat_shifted_eq_headerOf _ _ _ _ _),
    fun x => (headerOf_fields x).symm.trans (ofNat_shifted_eq_headerOf _ _ _ _ _).symm,
    fun _ _ _ _ _ => Cqe.fields_of_trailer (ofNat_shifted_eq_trailerOf _ _ _ _),
    fun x => (trailerOf_fields x).symm.trans (ofNat_shifted_eq_trailerOf _ _ _ _).symm⟩

end Sys2Proof.Machine
end

section
/-!
PROOF. The state read-out (R123): `RD_STATE` answers the register R27 gives the number, and a number R27 does not give
is an illegal command.
-/
namespace Sys2Proof.Machine

theorem encode_rdState (r : Half) : encode (.rdState r) = ⟨BitVec.ofNat 32 (0x40000000 + r.toNat), none⟩ :=
  congrArg (Command.mk · none) (commandWord_eq_ofNat 0x40 r)

theorem Reg.ofNumber?_eq_none {r : Half} (h : r ∉ Reg.all.map Reg.number) : Reg.ofNumber? r = none := by
  refine Option.not_isSome_iff_eq_none.1 fun hreg => h ?_
  have hmem : r.toNat ∈ Reg.all.map fun g => (Reg.number g).toNat := (Reg.ofNumber?_isSome_iff r).1 hreg
  obtain ⟨g, hg, hn⟩ := List.mem_map.1 hmem
  exact List.mem_map.2 ⟨g, hg, BitVec.eq_of_toNat_eq hn⟩

theorem exec_rdState_number {s : State} (hf : s.fault = none) (g : Reg) :
    exec (.rdState (Reg.number g)) s = .next (s.answer ⟨.ok, s.readReg g, none, .none⟩) := by
  refine (accepted_of_clear _ _ hf).trans ?_
  rw [Reg.ofNumber?_number]
  rfl

theorem exec_rdState_of_unnumbered {s : State} {r : Half} (hf : s.fault = none)
    (h : r ∉ Reg.all.map Reg.number) : exec (.rdState r) s =
      .next (s.latch ⟨.illegalCmd, some (BitVec.ofNat 32 (0x40000000 + r.toNat)), none⟩) := by
  refine (accepted_of_clear _ _ hf).trans ?_
  rw [Reg.ofNumber?_eq_none h, encode_rdState]
  rfl

/-- Settles O57: the table written out is `Reg.all` with each register's number and value. -/
theorem rdStateReturnsTheNumberedRegister : Obligations.RdStateReturnsTheNumberedRegister := by
  unfold Obligations.RdStateReturnsTheNumberedRegister
  refine ⟨encode_rdState, ?_⟩
  intro s hf table
  refine ⟨fun p hp => ?_, fun r hr => exec_rdState_of_unnumbered hf hr⟩
  have htable : table.map (fun p => (p.1, BitVec.ofNat 64 p.2)) =
      Reg.all.map fun g => (Reg.number g, s.readReg g) := by
    simp only [table, Reg.all, List.map_cons, List.map_nil, BitVec.ofNat_toNat, Reg.number, State.readReg]
  have hmem : (p.1, BitVec.ofNat 64 p.2) ∈ Reg.all.map fun g => (Reg.number g, s.readReg g) :=
    htable ▸ List.mem_map_of_mem hp
  obtain ⟨g, -, hg⟩ := List.mem_map.1 hmem
  obtain ⟨hnumber, hvalue⟩ := Prod.mk.inj hg
  rw [← hnumber, ← hvalue]
  exact exec_rdState_number hf g

end Sys2Proof.Machine
end

section
/-!
PROOF. The fault latch (R25, R126 to R129): a latched Block drops every command, only a reset clears the latch, and a
command that faults sets it and does nothing else.
-/
namespace Sys2Proof.Machine

/-- A latched Block drops a presented command, legal or not (R127, log 4). -/
theorem present_of_latched {s : State} (hf : s.fault ≠ none) (c : Command) : present c s = .next s := by
  unfold present
  split
  · exact exec_of_latched _ s hf
  · exact accepted_of_latched s _ hf

theorem ne_reset_of_nextIsReset {s : State} {e : HostEvent} {rest : List Input}
    (hin : s.inputs = .host e :: rest) (hr : nextIsReset s = false) (c : Cfg) (prepared : Bool) :
    e ≠ .reset c prepared := by
  rintro rfl
  simp [nextIsReset, hin] at hr

/-- A Host move that is no reset changes memory and `wq.sw_error` at most (R139, R141). -/
theorem hostEvent_of_not_reset {e : HostEvent} (hr : ∀ c p, e ≠ .reset c p) (s : State) :
    ∃ m b, s.hostEvent e = { s with mem := m, wqSwError := b } := by
  cases e with
  | setWqSwError => exact ⟨s.mem, 1, rfl⟩
  | swWrite i r => exact ⟨_, s.wqSwError, rfl⟩
  | descWrite q i bytes => exact ⟨_, s.wqSwError, rfl⟩
  | reset c p => exact absurd rfl (hr c p)

/-- No step but a reset changes the latch once it is set (R25, R128). -/
theorem step_keeps_latch {s t : State} (hf : s.fault ≠ none) (hr : nextIsReset s = false)
    (h : step s = .next t) : t.fault = s.fault := by
  obtain ⟨-, rfl⟩ | ⟨c, rest, hin, -⟩ | ⟨e, rest, hin, -, rfl⟩ | ⟨e, rest, -, -, rfl⟩ := step_cases s t h
  · rfl
  · rw [step_command hin, present_of_latched (s := s.later rest) hf] at h
    cases h
    rfl
  · obtain ⟨m, b, heq⟩ := hostEvent_of_not_reset (ne_reset_of_nextIsReset hin hr) (s.later rest)
    rw [heq]
    rfl
  · rfl

/-- Settles O8: the prologue drops every command, and no other event but a reset reaches the latch. -/
theorem latchedBlockAcceptsNoCommand : Obligations.LatchedBlockAcceptsNoCommand := by
  unfold Obligations.LatchedBlockAcceptsNoCommand
  refine ⟨exec_of_latched, fun s c rest hf hin => ?_, fun s t => step_keeps_latch⟩
  rw [step_command hin]
  exact present_of_latched (s := s.later rest) hf c

/-- Settles O9: of the two ways a command ends, the one that is no fault leaves the latch clear. -/
theorem faultingCommandChangesOnlyTheLatch : Obligations.FaultingCommandChangesOnlyTheLatch := by
  unfold Obligations.FaultingCommandChangesOnlyTheLatch
  intro i s t hf h ht
  obtain hlatch | ⟨r, s', rfl, he⟩ := exec_cases i s t hf h
  · exact hlatch
  · exact absurd (he.writesListed.2.trans hf) ht

/-- Settles O15: reset latches `F_BAD_CONFIG`, and a latched Block drops every command. -/
theorem badConfigAcceptsNoCommand : Obligations.BadConfigAcceptsNoCommand := by
  unfold Obligations.BadConfigAcceptsNoCommand
  intro c m ins i hw
  have hlatch : (State.resetWith c m ins).fault = some badConfigLatch := by
    rw [State.resetWith_fault, hw]
    rfl
  exact ⟨hlatch, exec_of_latched i _ (hlatch ▸ Option.some_ne_none _)⟩

end Sys2Proof.Machine
end

section
/-!
PROOF. The Host's moves (R139, R141) write only their own place: a flag, an auxiliary slot, or one descriptor entry.
-/
namespace Sys2Proof.Machine

/-- A Host liberty has its effect, and nothing else happens. -/
theorem step_host {s : State} {e : HostEvent} {rest : List Input} (hin : s.inputs = .host e :: rest)
    (hm : hostMay s.cfg e = true) : step s = .next ((s.later rest).hostEvent e) := by
  simp only [step, hin, perform, hostMove, State.later_cfg, hm, if_true]

/-- An address outside a region, as two bounds. -/
theorem outside_of_not_has {first : Addr} {length : Nat} {a : Addr}
    (ha : ¬ (Region.mk first.toNat length).Has a) :
    a.toNat < first.toNat ∨ first.toNat + length ≤ a.toNat := by
  simp only [Region.Has] at ha
  omega

/-- An auxiliary record reads back from its slot, and no byte outside the slot changes. -/
theorem step_swWrite {s : State} {i : Nat} {r : Cqe} {rest : List Input} (hw : s.cfg.wf = true)
    (hi : i < s.cfg.nCq) (hin : s.inputs = .host (.swWrite i r) :: rest) :
    ∃ m, step s = .next { s with mem := m, inputs := rest } ∧ readCqe s.cfg m (s.cfg.slotSw i) = r ∧
      ∀ a, ¬ (Region.mk (s.cfg.slotSw i).toNat s.cfg.cqeBytes).Has a → Memory.read m a = s.readByte a := by
  obtain ⟨-, -, h16, -, -, h8, -⟩ := Cfg.recordsOk hw
  have hbelow : (s.cfg.slotSw i).toNat + s.cfg.cqeBytes ≤ 2 ^ 64 :=
    (Cfg.slotSw_toNat hw hi).2.trans (Cfg.regions_spread hw).1.2.2.2
  exact ⟨_, step_host hin (decide_eq_true hi), readCqe_writeCqe _ _ _ _ h16 h8 hbelow,
    fun a ha => read_writeCqe_outside _ _ _ _ _ h16 h8 hbelow (outside_of_not_has ha)⟩

/-- A descriptor write reads back from the start of its entry, and no byte outside the entry changes. -/
theorem step_descWrite {s : State} {q : WqSide} {i : Nat} {bytes : List Byte} {rest : List Input}
    (hi : i < descEntries s.cfg q) (hlen : bytes.length ≤ descBytes s.cfg q)
    (hbelow : (descEntry s.cfg q i).toNat + descBytes s.cfg q ≤ 2 ^ 64)
    (hin : s.inputs = .host (.descWrite q i bytes) :: rest) :
    ∃ m, step s = .next { s with mem := m, inputs := rest } ∧
      Memory.readBytes m (descEntry s.cfg q i) bytes.length = bytes ∧
      ∀ a, ¬ (Region.mk (descEntry s.cfg q i).toNat (descBytes s.cfg q)).Has a →
        Memory.read m a = s.readByte a := by
  have hmay : hostMay s.cfg (.descWrite q i bytes) = true := by simp [hostMay, hi, hlen]
  have hfit : (descEntry s.cfg q i).toNat + bytes.length ≤ 2 ^ 64 := by omega
  refine ⟨Memory.writeBytes s.mem (descEntry s.cfg q i) bytes, step_host hin hmay,
    Memory.readBytes_writeBytes _ _ _ hfit, fun a ha => ?_⟩
  have hout := outside_of_not_has ha
  exact Memory.read_writeBytes_outside _ _ _ _ hfit (hout.imp_right fun h => by omega)

/-- Settles O60: one move of each kind, the entries of both rings lying below 2^64. -/
theorem hostMovesWriteOnlyTheirPlace : Obligations.HostMovesWriteOnlyTheirPlace := by
  unfold Obligations.HostMovesWriteOnlyTheirPlace
  intro s rest hw
  refine ⟨fun hin => step_host hin rfl, fun i r => step_swWrite hw, fun i bytes hi hlen => ?_,
    fun i bytes hi hlen => ?_⟩
  · have hentry := (Cfg.sqEntry_toNat hw hi).2
    have hsent := (Cfg.sentSq_toNat hw).2.2
    exact step_descWrite (q := .sq) hi hlen (by simp only [descEntry, descBytes, Cfg.sqEntryBytes]; omega)
  · have hentry := (Cfg.rqEntry_toNat hw hi).2
    have hsent := (Cfg.sentRq_toNat hw).2.2
    exact step_descWrite (q := .rq) hi hlen (by simp only [descEntry, descBytes, Cfg.rqEntryBytes]; omega)

end Sys2Proof.Machine
end

section
/-!
PROOF. Every step keeps the generation-bit protocol (R51, R54, R91, R93, R140, R145, R151). The protocol has two
halves that no event but a poll reads together: what the Adapter has written and is still to write, which stands in
the CQ slots and the events still to happen, and what the Host has consumed and was given, which stands in three
registers. Each half is kept on its own.
-/
namespace Sys2Proof.Machine

/-! ## The CQ slots -/

/-- The byte is in one of the CQ slots, before the ring's sentinel (R36). -/
def InCqSlots (c : Cfg) (b : Addr) : Prop := c.cqBase.toNat ≤ b.toNat ∧ b.toNat < c.sentCq.toNat

theorem InCqSlots.ne_of_outside {c : Cfg} {a b : Addr} (hb : InCqSlots c b) (ha : c.OutsideSlots a) :
    a ≠ b := by
  rintro rfl
  obtain ⟨hlow, hhigh⟩ := hb
  have := ha.cq
  omega

/-- A byte of a CQ slot is in no entry and in no auxiliary slot. -/
theorem InCqSlots.outside_entries {c : Cfg} (hw : c.wf = true) {b : Addr} (hb : InCqSlots c b) :
    (b.toNat < c.sqBase.toNat ∨ c.sentSq.toNat ≤ b.toNat) ∧
    (b.toNat < c.rqBase.toNat ∨ c.sentRq.toNat ≤ b.toNat) ∧
    (b.toNat < c.swqBase.toNat ∨ c.swqRegion.first + c.swqRegion.length ≤ b.toNat) := by
  obtain ⟨hlow, hhigh⟩ := hb
  have hsent := (Cfg.sentCq_toNat hw).2.1
  have hring : c.cqRegion.Has b := ⟨hlow, by omega⟩
  obtain ⟨-, -, hsq, -, hrq, -, hswq⟩ := Cfg.regions_spread hw
  obtain ⟨osq, orq, -⟩ := Cfg.outside_rings hw b
  exact ⟨osq (hsq.symm.outside hring), orq (hrq.symm.outside hring), hswq.outside hring⟩

theorem slotCq_below {c : Cfg} (hw : c.wf = true) {i : Nat} (hi : i < c.nCq) :
    (c.slotCq i).toNat + c.cqeBytes ≤ 2 ^ 64 := by
  have hend := (Cfg.slotCq_toNat hw hi).2
  have hsent := (Cfg.sentCq_toNat hw).2.2
  omega

/-- The record in a slot depends on the bytes of the CQ slots only. -/
theorem slotRecord_congr {s t : State} (hw : s.cfg.wf = true) (hc : t.cfg = s.cfg)
    (h : ∀ b, InCqSlots s.cfg b → t.readByte b = s.readByte b) {i : Nat} (hi : i < s.cfg.nCq) :
    slotRecord t i = slotRecord s i := by
  obtain ⟨-, -, h16, -, -, h8, -⟩ := Cfg.recordsOk hw
  obtain ⟨hfirst, hend⟩ := Cfg.slotCq_toNat hw hi
  rw [slotRecord, slotRecord, hc]
  exact readCqe_congr _ _ _ _ h16 h8 (slotCq_below hw hi) fun b hlow hhigh => h b ⟨by omega, by omega⟩

/-- A slot's bytes are in no other slot. -/
theorem slotCq_apart {c : Cfg} (hw : c.wf = true) {i j : Nat} (hi : i < c.nCq) (hj : j < c.nCq)
    (hij : i ≠ j) : (c.slotCq j).toNat + c.cqeBytes ≤ (c.slotCq i).toNat ∨
      (c.slotCq i).toNat + c.cqeBytes ≤ (c.slotCq j).toNat := by
  have next : ∀ {k l : Nat}, k < l → k * c.cqeBytes + c.cqeBytes ≤ l * c.cqeBytes := fun {k l} hkl => by
    rw [← Nat.succ_mul]
    exact Nat.mul_le_mul_right _ hkl
  rw [(Cfg.slotCq_toNat hw hi).1, (Cfg.slotCq_toNat hw hj).1]
  obtain hlt | hlt := Nat.lt_or_gt_of_ne hij
  · have := next hlt
    omega
  · have := next hlt
    omega

/-- After the Adapter wrote a whole record its slot holds it, and every other slot what it held (R51). -/
theorem slotRecord_adapterEvent_cqe {s : State} (hw : s.cfg.wf = true) {i j : Nat} (hi : i < s.cfg.nCq)
    (hj : j < s.cfg.nCq) (r : Cqe) :
    slotRecord (s.adapterEvent (.cqe i r)) j = if j = i then r else slotRecord s j := by
  obtain ⟨-, -, h16, -, -, h8, -⟩ := Cfg.recordsOk hw
  rw [slotRecord, State.adapterEvent_cfg]
  split
  next heq =>
    subst heq
    exact readCqe_writeCqe _ _ _ _ h16 h8 (slotCq_below hw hi)
  next hne =>
    have hapart := slotCq_apart hw hj hi hne
    exact readCqe_congr _ _ _ _ h16 h8 (slotCq_below hw hj) fun b hlow hhigh =>
      read_writeCqe_outside _ _ _ _ _ h16 h8 (slotCq_below hw hi) (by omega)

/-! ## The Adapter's half -/

/-- What the Adapter has written is read off the slots alone. -/
theorem AdapterWrote.of_slots {s t : State} {w : Nat → Cqe} {m : Nat} (ha : AdapterWrote s w m)
    (hw : s.cfg.wf = true) (hc : t.cfg = s.cfg)
    (h : ∀ i, i < s.cfg.nCq → slotRecord t i = slotRecord s i) : AdapterWrote t w m := by
  obtain ⟨hgen, hts, hprep, hslot⟩ := ha
  obtain ⟨-, -, -, -, hn, -⟩ := Cfg.sizesOk hw
  unfold AdapterWrote
  rw [hc]
  exact ⟨hgen, hts, fun i hi hmi => by rw [h i hi]; exact hprep i hi hmi,
    fun k hkm hmk => (h _ (Nat.mod_lt k hn)).trans (hslot k hkm hmk)⟩

/-- Two positions less than a lap apart are in different slots. -/
theorem mod_ne_mod_of_within_lap {k m n : Nat} (hkm : k < m) (hmk : m < k + n) : k % n ≠ m % n := by
  intro h
  have hdvd : n ∣ m - k := (Nat.modEq_iff_dvd' hkm.le).1 h
  have := Nat.le_of_dvd (by omega) hdvd
  omega

/-- The next record written in order makes one record more (R140). -/
theorem AdapterWrote.next {s : State} {w : Nat → Cqe} {m : Nat} (ha : AdapterWrote s w m)
    (hw : s.cfg.wf = true) (hg : Cqe.gen (w m) = lapGen s.cfg m)
    (ht : ∀ j, j < m → (Cqe.ts (w j)).toNat < (Cqe.ts (w m)).toNat) :
    AdapterWrote (s.adapterEvent (.cqe (m % s.cfg.nCq) (w m))) w (m + 1) := by
  obtain ⟨hgen, hts, hprep, hslot⟩ := ha
  obtain ⟨-, -, -, -, hn, -⟩ := Cfg.sizesOk hw
  have hread := fun j (hj : j < s.cfg.nCq) =>
    slotRecord_adapterEvent_cqe hw (Nat.mod_lt m hn) hj (w m)
  refine ⟨fun k hk => ?_, fun j k hjk hk => ?_, fun i hi hmi => ?_, fun k hk hmk => ?_⟩
  · obtain hk | rfl := Nat.lt_succ_iff_lt_or_eq.1 hk
    · exact hgen k hk
    · exact hg
  · obtain hk | rfl := Nat.lt_succ_iff_lt_or_eq.1 hk
    · exact hts j k hjk hk
    · exact ht j hjk
  · simp only [State.adapterEvent_cfg] at hi ⊢
    have hlap : m % s.cfg.nCq = m := Nat.mod_eq_of_lt (by omega)
    rw [hread i hi, if_neg (by omega)]
    exact hprep i hi (by omega)
  · simp only [State.adapterEvent_cfg] at hmk ⊢
    rw [hread _ (Nat.mod_lt k hn)]
    obtain hk | rfl := Nat.lt_succ_iff_lt_or_eq.1 hk
    · rw [if_neg (mod_ne_mod_of_within_lap hk (by omega))]
      exact hslot k hk (by omega)
    · rw [if_pos rfl]

/-- The Adapter's half of the protocol: `m` records are written, the later ones are the next in order, and there are
`total` of them in all. -/
structure OnSchedule (w : Nat → Cqe) (total : Nat) (s : State) (m : Nat) : Prop where
  wrote : AdapterWrote s w m
  ahead : AdapterInOrder s.cfg w s.inputs m
  count : m + recordsAhead s.inputs = total

section Schedule

variable {w : Nat → Cqe} {total m : Nat} {s t : State}

/-- The Adapter's half does not look at registers, and at memory in the CQ slots only. -/
theorem OnSchedule.of_slots (h : OnSchedule w total s m) (hw : s.cfg.wf = true) (hc : t.cfg = s.cfg)
    (hin : t.inputs = s.inputs) (hread : ∀ b, InCqSlots s.cfg b → t.readByte b = s.readByte b) :
    OnSchedule w total t m :=
  ⟨h.wrote.of_slots hw hc fun _ => slotRecord_congr hw hc hread, by rw [hc, hin]; exact h.ahead,
    by rw [hin]; exact h.count⟩

/-- A byte written outside the slots is none of the Adapter's records. -/
theorem OnSchedule.after_writeByte (h : OnSchedule w total s m) (hw : s.cfg.wf = true) {b : Addr}
    (hb : s.cfg.OutsideSlots b) (v : Byte) : OnSchedule w total (s.writeByte b v) m :=
  h.of_slots hw rfl rfl fun _ ha => Memory.read_write_other _ _ _ _ (ha.ne_of_outside hb)

theorem OnSchedule.later_command (h : OnSchedule w total s m) {c : Command} {rest : List Input}
    (hin : s.inputs = .command c :: rest) : OnSchedule w total (s.later rest) m := by
  obtain ⟨hwrote, hahead, hcount⟩ := h
  rw [hin] at hahead hcount
  exact ⟨hwrote, hahead, hcount⟩

theorem OnSchedule.later_host (h : OnSchedule w total s m) {e : HostEvent} {rest : List Input}
    (hr : ∀ c p, e ≠ .reset c p) (hin : s.inputs = .host e :: rest) :
    OnSchedule w total (s.later rest) m := by
  obtain ⟨hwrote, hahead, hcount⟩ := h
  rw [hin] at hahead hcount
  refine ⟨hwrote, ?_, hcount⟩
  cases e with
  | reset c p => exact absurd rfl (hr c p)
  | _ => exact hahead

/-- An Adapter event of the schedule, inside a command or not, is the next record or sets an `.err` byte. -/
theorem OnSchedule.later_adapter (h : OnSchedule w total s m) {e : AdapterEvent} {rest : List Input}
    (hin : s.inputs = .adapter e :: rest ∨ s.inputs = .adapterInside e :: rest) :
    (∃ x v, e = .setErr x v ∧ OnSchedule w total (s.later rest) m) ∨
    (e = .cqe (m % s.cfg.nCq) (w m) ∧ Cqe.gen (w m) = lapGen s.cfg m ∧
      (∀ j, j < m → (Cqe.ts (w j)).toNat < (Cqe.ts (w m)).toNat) ∧
      AdapterInOrder s.cfg w rest (m + 1) ∧ m + 1 + recordsAhead rest = total) := by
  obtain ⟨hwrote, hahead, hcount⟩ := h
  obtain ⟨hfirst, htotal⟩ : AdapterInOrder s.cfg w (.adapter e :: rest) m ∧
      m + recordsAhead (.adapter e :: rest) = total := by
    obtain hin | hin := hin <;> rw [hin] at hahead hcount
    · exact ⟨hahead, hcount⟩
    · cases e <;> exact ⟨hahead, hcount⟩
  cases e with
  | cqeBody => exact hfirst.elim
  | cqeTrailer => exact hfirst.elim
  | setErr x v => exact .inl ⟨x, v, rfl, hwrote, hfirst, htotal⟩
  | cqe i r =>
    obtain ⟨rfl, rfl, hg, ht, hrest⟩ := hfirst
    exact .inr ⟨rfl, hg, ht, hrest, (Nat.succ_add_eq_add_succ _ _).trans htotal⟩

/-- The Adapter keeps its schedule: one record more, or an `.err` byte, which is in no slot. -/
theorem OnSchedule.after_adapterEvent (h : OnSchedule w total s m) (hw : s.cfg.wf = true) {e : AdapterEvent}
    {rest : List Input} (hin : s.inputs = .adapter e :: rest ∨ s.inputs = .adapterInside e :: rest) :
    ∃ m', m ≤ m' ∧ OnSchedule w total ((s.later rest).adapterEvent e) m' := by
  obtain ⟨x, v, rfl, hlater⟩ | ⟨rfl, hg, ht, hrest, hcount⟩ := h.later_adapter hin
  · have herr : s.cfg.OutsideSlots (errAddr s.cfg x) := by
      obtain ⟨hsq, -, hrq, -, hcq, -⟩ := Cfg.sentinels_outside hw
      cases x
      · exact hsq
      · exact hrq
      · exact hcq
    exact ⟨m, le_rfl, hlater.after_writeByte hw herr v⟩
  · exact ⟨m + 1, Nat.le_succ m, AdapterWrote.next (s := s.later rest) h.wrote hw hg ht, hrest, hcount⟩

/-- The window of R54 performs events of the schedule and leaves the others to happen. -/
theorem OnSchedule.after_runInside (ins : List Input) (h : OnSchedule w total (s.later ins) m)
    (hw : s.cfg.wf = true) : ∃ m', m ≤ m' ∧ OnSchedule w total (s.runInside ins) m' := by
  induction ins generalizing s m with
  | nil => exact ⟨m, le_rfl, h⟩
  | cons x rest ih =>
    cases x with
    | command c => exact ⟨m, le_rfl, h⟩
    | host e => exact ⟨m, le_rfl, h⟩
    | adapter e => exact ⟨m, le_rfl, h⟩
    | adapterInside e =>
      rw [State.runInside]
      split
      · obtain ⟨k, hk, hnext⟩ := h.after_adapterEvent hw (.inr rfl)
        obtain ⟨m', hm', hlast⟩ := ih (s := s.adapterEvent e) hnext hw
        exact ⟨m', hk.trans hm', hlast⟩
      · exact ⟨m, le_rfl, h⟩

/-- A sentinel command writes two bytes outside the slots, and the Adapter keeps its schedule in between. -/
theorem OnSchedule.after_writeBoth (h : OnSchedule w total s m) (hw : s.cfg.wf = true) {p q : Addr}
    (hp : s.cfg.OutsideSlots p) (hq : s.cfg.OutsideSlots q) (v : Byte) :
    ∃ m', m ≤ m' ∧ OnSchedule w total (writeBoth p q v s) m' := by
  obtain ⟨m', hm', hwindow⟩ :=
    OnSchedule.after_runInside (s := s.writeByte p v) s.inputs (h.after_writeByte hw hp v) hw
  have hcfg : ((s.writeByte p v).runInside s.inputs).cfg = s.cfg := State.runInside_cfg _ _
  exact ⟨m', hm', hwindow.after_writeByte (by rw [hcfg]; exact hw) (by rw [hcfg]; exact hq) v⟩

/-- Before its response is added, a command has left the Adapter to its schedule. -/
theorem OnSchedule.after_effect {i : Instr} (h : OnSchedule w total s m) (hw : s.cfg.wf = true)
    (he : Effect i s t) : ∃ m', m ≤ m' ∧ OnSchedule w total t m' := by
  obtain ⟨sqErr, sqDboff, rqErr, rqDboff, cqErr, -⟩ := Cfg.sentinels_outside hw
  have keep : ∀ {u : State}, u.cfg = s.cfg → u.mem = s.mem → u.inputs = s.inputs →
      ∃ m', m ≤ m' ∧ OnSchedule w total u m' := fun hc hm hin =>
    ⟨m, le_rfl, h.of_slots hw hc hin fun b _ => readByte_of_mem hm b⟩
  cases i <;> simp only [Effect] at he
  case wqSetError =>
    subst he
    exact h.after_writeBoth hw sqErr rqErr _
  case wqDisableDb | wqEnableDb =>
    subst he
    exact h.after_writeBoth hw sqDboff rqDboff _
  case cqSetError | cqClearError =>
    subst he
    exact ⟨m, le_rfl, h.after_writeByte hw cqErr _⟩
  case cqHwConsume =>
    subst he
    exact keep (by simp) (by simp) (by simp)
  case sqProduce | sqConsume | rqProduce | rqConsume | cqSwProduce | cqSwConsume | ringSqDb | ringRqDb | cqArm =>
    obtain ⟨-, rfl⟩ := he
    exact keep rfl rfl rfl
  case cqNextHw | cqNext =>
    obtain rfl | ⟨ts, rfl⟩ | rfl := he <;> exact keep rfl rfl rfl
  all_goals
    subst he
    exact keep rfl rfl rfl

theorem OnSchedule.after_exec {i : Instr} (h : OnSchedule w total s m) (hw : s.cfg.wf = true)
    (hexec : exec i s = .next t) : ∃ m', m ≤ m' ∧ OnSchedule w total t m' := by
  by_cases hf : s.fault = none
  · obtain ⟨reason, info, rfl⟩ | ⟨r, s', rfl, he⟩ := exec_cases i s t hf hexec
    · exact ⟨m, le_rfl, ⟨h.wrote, h.ahead, h.count⟩⟩
    · obtain ⟨m', hm', hs'⟩ := h.after_effect hw he
      exact ⟨m', hm', ⟨hs'.wrote, hs'.ahead, hs'.count⟩⟩
  · rw [exec_of_latched i s hf] at hexec
    cases hexec
    exact ⟨m, le_rfl, h⟩

theorem OnSchedule.after_hostEvent (h : OnSchedule w total s m) (hw : s.cfg.wf = true) {e : HostEvent}
    (hm : hostMay s.cfg e = true) (hr : ∀ c p, e ≠ .reset c p) : OnSchedule w total (s.hostEvent e) m := by
  have hread : ∀ b, InCqSlots s.cfg b → (s.hostEvent e).readByte b = s.readByte b := fun b hb => by
    obtain ⟨hsq, hrq, hswq⟩ := hb.outside_entries hw
    exact read_hostEvent s hw e hm hr b hsq hrq hswq
  obtain ⟨m', f, heq⟩ := hostEvent_of_not_reset hr s
  exact h.of_slots hw (by rw [heq]) (by rw [heq]) hread

/-- An illegal command touches the latch at most (R127). -/
theorem illegal_sets_fault {cw : Word} (h : accepted s (raise .illegalCmd cw none s) = .next t) :
    ∃ f, t = { s with fault := f } := by
  obtain ⟨-, rfl⟩ | ⟨-, h⟩ := accepted_cases _ _ _ h
  · exact ⟨t.fault, rfl⟩
  · cases h
    exact ⟨_, rfl⟩

/-- Every step but a reset keeps the Adapter's half. -/
theorem OnSchedule.after_step (h : OnSchedule w total s m) (hw : s.cfg.wf = true)
    (hr : nextIsReset s = false) (hstep : step s = .next t) : ∃ m', m ≤ m' ∧ OnSchedule w total t m' := by
  obtain ⟨-, rfl⟩ | ⟨c, rest, hin, ⟨i, -, hexec⟩ | ⟨_, -, hillegal⟩⟩ | ⟨e, rest, hin, hmay, rfl⟩ |
    ⟨e, rest, hin, -, rfl⟩ := step_cases s t hstep
  · exact ⟨m, le_rfl, h⟩
  · exact (h.later_command hin).after_exec hw hexec
  · obtain ⟨f, rfl⟩ := illegal_sets_fault hillegal
    have hlater := h.later_command hin
    exact ⟨m, le_rfl, hlater.wrote, hlater.ahead, hlater.count⟩
  · have hnot := ne_reset_of_nextIsReset hin hr
    exact ⟨m, le_rfl, (h.later_host hnot hin).after_hostEvent hw hmay hnot⟩
  · exact h.after_adapterEvent hw hin

end Schedule

/-! ## The Host's half -/

/-- The expected bit turns where the ring wraps (R33). -/
theorem lapGen_succ {c : Cfg} (hn : 0 < c.nCq) (k : Nat) :
    lapGen c (k + 1) = if k % c.nCq + 1 = c.nCq then lapGen c k ^^^ 1 else lapGen c k := by
  rw [lapGen, succ_div_eq_ite_wrap hn]
  split
  · rw [← Nat.add_assoc, ofNat_one_succ, lapGen]
  · rfl

/-- The last timestamp is moved by a poll only, and only to that of a valid record (R93, R96). -/
theorem exec_cqLastTs {i : Instr} {s t : State} (h : exec i s = .next t) :
    t.cqLastTs = s.cqLastTs ∨
    (Cqe.gen (hwRecord s) = s.cqGen ∧ t.cqLastTs = Cqe.ts (hwRecord s)) := by
  have poll : exec .cqNextHw s = .next t → t.cqLastTs = s.cqLastTs ∨
      (Cqe.gen (hwRecord s) = s.cqGen ∧ t.cqLastTs = Cqe.ts (hwRecord s)) := fun h => by
    obtain ⟨-, rfl⟩ | ⟨-, h⟩ := accepted_cases _ _ _ h
    · exact .inl rfl
    · obtain ⟨hg, rfl⟩ | ⟨-, -, rfl⟩ | ⟨-, -, rfl⟩ := pollHw_cases s t h
      · exact .inr ⟨hg, rfl⟩
      · exact .inl rfl
      · exact .inl rfl
  obtain hsame | rfl | rfl := (exec_writesListed h).cqLastTs
  · exact .inl hsame
  · exact poll h
  · obtain ⟨-, rfl⟩ | ⟨hf, -⟩ := accepted_cases _ _ _ h
    · exact .inl rfl
    by_cases he : s.cqError = 1
    · rw [exec_cqNext_of_error hf he] at h
      cases h
      exact .inl rfl
    by_cases hempty : s.swq.inUse = 0
    · exact poll (exec_cqNext_of_empty hf he hempty ▸ h)
    · rw [exec_cqNext_of_aux hf he hempty] at h
      cases h
      exact .inl rfl

/-- The Host's half of the protocol where `m` records are written: `c` are consumed, `p` returned valid, and at most
one of these is still to be consumed. -/
structure InTurn (w : Nat → Cqe) (m : Nat) (s : State) (c p : Nat) : Prop where
  polled : HostPolled s w c p
  consumed_le : c ≤ p
  le_consumed_succ : p ≤ c + 1
  le_written : p ≤ m

section Turn

variable {w : Nat → Cqe} {m c p : Nat} {s t : State}

/-- The Host's half looks at three registers only. -/
theorem InTurn.of_regs (h : InTurn w m s c p) (hcfg : t.cfg = s.cfg) (hcidx : t.cqCidx = s.cqCidx)
    (hgen : t.cqGen = s.cqGen) (hts : t.cqLastTs = s.cqLastTs) : InTurn w m t c p := by
  obtain ⟨⟨pcidx, pgen, pzero, plast⟩, hcp, hpc, hpm⟩ := h
  refine ⟨⟨?_, ?_, ?_, ?_⟩, hcp, hpc, hpm⟩
  · rw [hcfg, hcidx, pcidx]
  · rw [hcfg, hgen, pgen]
  · rw [hts]
    exact pzero
  · rw [hts]
    exact plast

/-- A consume of a record that was returned valid (R91, R151). -/
theorem InTurn.consume (h : InTurn w m s c (c + 1)) (hw : s.cfg.wf = true) (hcfg : t.cfg = s.cfg)
    (hcidx : t.cqCidx = incMod s.cqCidx s.cfg.nCq)
    (hgen : t.cqGen = if s.cqCidx.toNat + 1 = s.cfg.nCq then s.cqGen ^^^ 1 else s.cqGen)
    (hts : t.cqLastTs = s.cqLastTs) : InTurn w m t (c + 1) (c + 1) := by
  obtain ⟨-, -, -, -, hn, hmax, -⟩ := Cfg.sizesOk hw
  obtain ⟨⟨pcidx, pgen, pzero, plast⟩, -, -, hpm⟩ := h
  have hlt : s.cqCidx.toNat < s.cfg.nCq := pcidx ▸ Nat.mod_lt c hn
  refine ⟨⟨?_, ?_, ?_, ?_⟩, le_rfl, Nat.le_succ _, hpm⟩
  · rw [hcfg, hcidx, incMod_toNat _ _ hlt hmax, pcidx, Nat.mod_add_mod]
  · rw [hcfg, hgen, pcidx, pgen, lapGen_succ hn]
  · rw [hts]
    exact pzero
  · rw [hts]
    exact plast

/-- A poll that finds the expected bit finds record `c`: before it is written the slot has the bit of the lap before,
and after it is overwritten that of the lap after. -/
theorem InTurn.hwRecord_of_valid (h : InTurn w m s c p) (hw : s.cfg.wf = true) (ha : AdapterWrote s w m)
    (hm : m ≤ c + 2 * s.cfg.nCq) (hvalid : Cqe.gen (hwRecord s) = s.cqGen) : hwRecord s = w c ∧ c < m := by
  obtain ⟨-, -, -, -, hn, -⟩ := Cfg.sizesOk hw
  obtain ⟨hpolled, hcp, hpc, hpm⟩ := h
  rcases Nat.eq_or_lt_of_le (hcp.trans hpm) with rfl | hcm
  · obtain rfl : p = c := by omega
    exact absurd hvalid (hwRecord_unwritten hn ha hpolled).1
  obtain ⟨hgen, -, -, hslot⟩ := ha
  rcases Nat.lt_or_ge (c + s.cfg.nCq) m with hlap | hlap
  · have hnext : hwRecord s = w (c + s.cfg.nCq) := by
      rw [hpolled.hwRecord_eq, ← Nat.add_mod_right, hslot _ hlap (by omega)]
    rw [hnext, hgen _ hlap, hpolled.2.1] at hvalid
    exact absurd hvalid (lapGen_add_lap hn c)
  · exact ⟨hpolled.hwRecord_eq.trans (hslot c hcm hlap), hcm⟩

/-- A poll that returns a valid record returns record `c`, and `c + 1` are returned. -/
theorem InTurn.poll (h : InTurn w m s c p) (hw : s.cfg.wf = true) (ha : AdapterWrote s w m)
    (hm : m ≤ c + 2 * s.cfg.nCq) (hvalid : Cqe.gen (hwRecord s) = s.cqGen) (hcfg : t.cfg = s.cfg)
    (hcidx : t.cqCidx = s.cqCidx) (hgen : t.cqGen = s.cqGen) (hts : t.cqLastTs = Cqe.ts (hwRecord s)) :
    InTurn w m t c (c + 1) := by
  obtain ⟨hrec, hcm⟩ := h.hwRecord_of_valid hw ha hm hvalid
  obtain ⟨⟨pcidx, pgen, -, -⟩, -, -, -⟩ := h
  refine ⟨⟨?_, ?_, fun hzero => by omega, fun k hk => ?_⟩, Nat.le_succ c, le_rfl, hcm⟩
  · rw [hcfg, hcidx, pcidx]
  · rw [hcfg, hgen, pgen]
  · obtain rfl : c = k := by omega
    rw [hts, hrec]

/-- A command keeps the Host's half, where a consume follows a valid poll. -/
theorem InTurn.after_exec {i : Instr} (h : InTurn w m s c p) (hw : s.cfg.wf = true)
    (ha : AdapterWrote s w m) (hm : m ≤ c + 2 * s.cfg.nCq) (hpoll : i = .cqHwConsume → p = c + 1)
    (hexec : exec i s = .next t) :
    ∃ c' p', InTurn w m t c' p' ∧ (c' = c ∨ (c' = c + 1 ∧ i = .cqHwConsume)) := by
  by_cases hi : i = .cqHwConsume
  · obtain rfl := hpoll hi
    subst hi
    by_cases hf : t.fault = none
    · obtain ⟨hcfg, hcidx, hgen⟩ := cqHwConsume_regs hexec hf
      have hts := (exec_writesListed hexec).cqLastTs.resolve_right (by simp)
      exact ⟨c + 1, c + 1, h.consume hw hcfg hcidx hgen hts, .inr ⟨rfl, rfl⟩⟩
    · by_cases hs : s.fault = none
      · obtain ⟨reason, info, rfl⟩ | ⟨r, s', rfl, he⟩ := exec_cases _ s t hs hexec
        · exact ⟨c, c + 1, h.of_regs rfl rfl rfl rfl, .inl rfl⟩
        · exact absurd (he.writesListed.2.trans hs) hf
      · rw [exec_of_latched _ s hs] at hexec
        cases hexec
        exact ⟨c, c + 1, h, .inl rfl⟩
  · have hl := exec_writesListed hexec
    have hcidx : t.cqCidx = s.cqCidx := hl.cqCidx.resolve_right fun hc => hi hc.1
    have hgen : t.cqGen = s.cqGen := hl.cqGen.resolve_right hi
    obtain hts | ⟨hvalid, hts⟩ := exec_cqLastTs hexec
    · exact ⟨c, p, h.of_regs hl.cfg hcidx hgen hts, .inl rfl⟩
    · exact ⟨c, c + 1, h.poll hw ha hm hvalid hl.cfg hcidx hgen hts, .inl rfl⟩

/-- Only the word `0x20000000` is decoded as `CQ_HW_CONSUME` (R61). -/
theorem command_of_decode_cqHwConsume {cmd : Command} (h : decode cmd = .ok .cqHwConsume) :
    cmd = ⟨0x20000000, cmd.record⟩ := by
  obtain ⟨-, hcw, -⟩ := encodeOfDecodeIsIdentity cmd _ h
  exact congrArg (Command.mk · cmd.record) hcw.symm

/-- Every step but a reset keeps the Host's half, where a consume follows a valid poll. -/
theorem InTurn.after_step (h : InTurn w m s c p) (hw : s.cfg.wf = true) (ha : AdapterWrote s w m)
    (hm : m ≤ c + 2 * s.cfg.nCq) (hr : nextIsReset s = false)
    (hpoll : ∀ r rest, s.inputs = .command ⟨0x20000000, r⟩ :: rest → p = c + 1)
    (hstep : step s = .next t) :
    ∃ c' p', InTurn w m t c' p' ∧
      (c' = c ∨ (c' = c + 1 ∧ ∃ r rest, s.inputs = .command ⟨0x20000000, r⟩ :: rest)) := by
  obtain ⟨-, rfl⟩ | ⟨cmd, rest, hin, ⟨i, hdec, hexec⟩ | ⟨_, -, hillegal⟩⟩ | ⟨e, rest, hin, -, rfl⟩ |
    ⟨e, rest, -, -, rfl⟩ := step_cases s t hstep
  · exact ⟨c, p, h, .inl rfl⟩
  · have hconsume : i = .cqHwConsume → s.inputs = .command ⟨0x20000000, cmd.record⟩ :: rest := by
      rintro rfl
      rw [← command_of_decode_cqHwConsume hdec]
      exact hin
    have hlater : InTurn w m (s.later rest) c p := h.of_regs rfl rfl rfl rfl
    obtain ⟨c', p', hturn, hc'⟩ :=
      hlater.after_exec hw ha hm (fun hi => hpoll _ _ (hconsume hi)) hexec
    exact ⟨c', p', hturn, hc'.imp_right fun ⟨hsucc, hi⟩ => ⟨hsucc, _, _, hconsume hi⟩⟩
  · obtain ⟨f, rfl⟩ := illegal_sets_fault hillegal
    exact ⟨c, p, h.of_regs rfl rfl rfl rfl, .inl rfl⟩
  · obtain ⟨m', f, heq⟩ := hostEvent_of_not_reset (ne_reset_of_nextIsReset hin hr) (s.later rest)
    rw [heq]
    exact ⟨c, p, h.of_regs rfl rfl rfl rfl, .inl rfl⟩
  · exact ⟨c, p, h.of_regs rfl rfl rfl rfl, .inl rfl⟩

end Turn

/-- Settles O52: each half is kept, and what was returned valid before the step is still written after it. -/
theorem stepKeepsCompletionsInOrder : Obligations.StepKeepsCompletionsInOrder := by
  unfold Obligations.StepKeepsCompletionsInOrder
  intro s t w m c p hw hprotocol hahead hm hr hpoll hstep
  obtain ⟨hwrote, hpolled, hcp, hpc, hpm⟩ := hprotocol
  have hschedule : OnSchedule w (m + recordsAhead s.inputs) s m := ⟨hwrote, hahead, rfl⟩
  have hturn : InTurn w m s c p := ⟨hpolled, hcp, hpc, hpm⟩
  obtain ⟨m', hmm', hwrote', hahead', hcount'⟩ := hschedule.after_step hw hr hstep
  obtain ⟨c', p', ⟨hpolled', hcp', hpc', hpm'⟩, hc'⟩ := hturn.after_step hw hwrote hm hr hpoll hstep
  exact ⟨m', c', p', ⟨hwrote', hpolled', hcp', hpc', hpm'.trans hmm'⟩, hahead', hcount', hc'⟩

end Sys2Proof.Machine
end

section
/-!
PROOF. The error flags (R21, R22, R53, R157): a set one stays set in every step that is no reset, but for the CQ's
`.err` byte in a step that presents `CQ_CLEAR_ERROR`. Any other command that writes an `.err` byte writes 1, the Adapter
never writes 0 there, inside a command (R54) or not, and the Host writes none of them.
-/
namespace Sys2Proof.Machine

/-- The error flags that are set in `s` are set in `t`; of the CQ's `.err` byte only where `clear` does not hold. -/
structure KeepsErrorFlags (clear : Prop) (s t : State) : Prop where
  err : ∀ x, (x = .cq → ¬ clear) →
    s.readByte (errAddr s.cfg x) ≠ 0 → t.readByte (errAddr s.cfg x) ≠ 0
  cqError : s.cqError = 1 → t.cqError = 1
  wqSwError : s.wqSwError = 1 → t.wqSwError = 1

theorem KeepsErrorFlags.refl (clear : Prop) (s : State) : KeepsErrorFlags clear s s :=
  ⟨fun _ _ h => h, id, id⟩

theorem KeepsErrorFlags.mono {clear clear' : Prop} {s t : State} (h : KeepsErrorFlags clear s t)
    (hc : clear → clear') : KeepsErrorFlags clear' s t :=
  ⟨fun x hx => h.err x fun hcq => mt hc (hx hcq), h.cqError, h.wqSwError⟩

/-- The flags do not stand in the events still to happen. -/
theorem KeepsErrorFlags.of_later {clear : Prop} {s t : State} {rest : List Input}
    (h : KeepsErrorFlags clear (s.later rest) t) : KeepsErrorFlags clear s t :=
  ⟨h.err, h.cqError, h.wqSwError⟩

theorem errAddr_outsideSlots {c : Cfg} (hw : c.wf = true) (x : SentinelRing) :
    c.OutsideSlots (errAddr c x) := by
  obtain ⟨hsq, -, hrq, -, hcq, -⟩ := Cfg.sentinels_outside hw
  cases x
  · exact hsq
  · exact hrq
  · exact hcq

/-! ## Commands -/

/-- In the window of R54 the Adapter clears no byte outside the slots. -/
theorem readByte_window_ne_zero {s : State} (hw : s.cfg.wf = true) {b : Addr} (hb : s.cfg.OutsideSlots b)
    (hset : s.readByte b ≠ 0) : s.window.readByte b ≠ 0 := by
  obtain h | ⟨-, -, h⟩ := read_runInside s.inputs s hw b hb.cq
  · exact h.trans_ne hset
  · exact h

/-- A command writes 1 to an `.err` byte, unless it clears the CQ's (R87, R101, R102). -/
theorem BlockWrites.err_ne_zero {c : Cfg} (hw : c.wf = true) {i : Instr} {x : SentinelRing} {v : Byte}
    (h : BlockWrites c i (errAddr c x) v) (hx : x = .cq → i ≠ .cqClearError) : v ≠ 0 := by
  obtain ⟨hsq, hrq, hcq, -⟩ := blockWrites_iff hw i v
  cases x with
  | sq =>
    obtain ⟨-, rfl⟩ := hsq.1 h
    decide
  | rq =>
    obtain ⟨-, rfl⟩ := hrq.1 h
    decide
  | cq =>
    obtain ⟨-, rfl⟩ | ⟨hi, -⟩ := hcq.1 h
    · decide
    · exact absurd hi (hx rfl)

theorem exec_keepsErrorFlags {i : Instr} {s t : State} (hw : s.cfg.wf = true) (h : exec i s = .next t) :
    KeepsErrorFlags (i = .cqClearError) s t := by
  have hl := exec_writesListed h
  refine ⟨fun x hx hset => ?_, exec_keeps_cqError h, hl.wqSwError.trans⟩
  obtain hsame | hblock | ⟨-, -, hwin⟩ := hl.readByte_cases (errAddr s.cfg x)
  · exact hsame.trans_ne hset
  · exact hblock.err_ne_zero hw hx
  · exact hwin.trans_ne (readByte_window_ne_zero hw (errAddr_outsideSlots hw x) hset)

/-- Only the word `0x2A000000` is decoded as `CQ_CLEAR_ERROR` (R61). -/
theorem command_of_decode_cqClearError {cmd : Command} (h : decode cmd = .ok .cqClearError) :
    cmd = ⟨0x2A000000, cmd.record⟩ := by
  obtain ⟨-, hcw, -⟩ := encodeOfDecodeIsIdentity cmd _ h
  exact congrArg (Command.mk · cmd.record) hcw.symm

/-! ## The Host and the Adapter -/

/-- The Host writes no `.err` byte and only sets its own flag (R139, R141). -/
theorem hostEvent_keepsErrorFlags {s : State} {e : HostEvent} (hw : s.cfg.wf = true)
    (hm : hostMay s.cfg e = true) (hr : ∀ c p, e ≠ .reset c p) (clear : Prop) :
    KeepsErrorFlags clear s (s.hostEvent e) := by
  refine ⟨fun x _ hset => ?_, ?_, ?_⟩
  · have hout := errAddr_outsideSlots hw x
    exact (read_hostEvent s hw e hm hr _ hout.sq hout.rq hout.swq).trans_ne hset
  · obtain ⟨m, b, heq⟩ := hostEvent_of_not_reset hr s
    rw [heq]
    exact id
  · cases e with
    | setWqSwError => exact fun _ => rfl
    | swWrite i r => exact id
    | descWrite q i bytes => exact id
    | reset c p => exact absurd rfl (hr c p)

/-- The Adapter writes only non-zero values to an `.err` byte, and no register (R53, R140, R141). -/
theorem adapterEvent_keepsErrorFlags {s : State} {e : AdapterEvent} (hw : s.cfg.wf = true)
    (hm : adapterMay s.cfg e = true) (clear : Prop) : KeepsErrorFlags clear s (s.adapterEvent e) := by
  refine ⟨fun x _ hset => ?_, id, id⟩
  obtain hsame | ⟨-, -, hne⟩ := read_adapterWrites hw s.mem e hm _ (errAddr_outsideSlots hw x).cq
  · exact hsame.trans_ne hset
  · exact hne

/-! ## Steps -/

/-- Every step but a reset keeps the flags, where the CQ's may be cleared by a presented `CQ_CLEAR_ERROR`. -/
theorem step_keepsErrorFlags {s t : State} (hw : s.cfg.wf = true) (hr : nextIsReset s = false)
    (h : step s = .next t) :
    KeepsErrorFlags (∃ r rest, s.inputs = .command ⟨0x2A000000, r⟩ :: rest) s t := by
  obtain ⟨-, rfl⟩ | ⟨cmd, rest, hin, ⟨i, hdec, hexec⟩ | ⟨_, -, hillegal⟩⟩ | ⟨e, rest, hin, hm, rfl⟩ |
    ⟨e, rest, -, hm, rfl⟩ := step_cases s t h
  · exact .refl _ _
  · refine ((exec_keepsErrorFlags (s := s.later rest) hw hexec).mono ?_).of_later
    rintro rfl
    exact ⟨cmd.record, rest, command_of_decode_cqClearError hdec ▸ hin⟩
  · obtain ⟨f, rfl⟩ := illegal_sets_fault hillegal
    exact ⟨fun _ _ hset => hset, id, id⟩
  · exact (hostEvent_keepsErrorFlags (s := s.later rest) hw hm (ne_reset_of_nextIsReset hin hr) _).of_later
  · exact (adapterEvent_keepsErrorFlags (s := s.later rest) hw hm _).of_later

/-- Settles O20: `step_keepsErrorFlags`, ring by ring; only for the CQ is there a command to exclude. -/
theorem errorFlagsStaySet : Obligations.ErrorFlagsStaySet := by
  unfold Obligations.ErrorFlagsStaySet
  intro s t hw hr h
  have hk := step_keepsErrorFlags hw hr h
  exact ⟨hk.err .sq nofun, hk.err .rq nofun,
    fun hno => hk.err .cq fun _ ⟨r, rest, hin⟩ => hno r rest hin, hk.cqError, hk.wqSwError⟩

end Sys2Proof.Machine
end

section
/-!
PROOF. Waiting, the environment's liberties and reset (R139 to R141, R143 to R146; logs 3, 10, 12, 13, 15): an idle
Block stays as it is, a move outside the liberties stops the machine, and a reset sets every register over memory as it
is found or as the Host prepared it.
-/
namespace Sys2Proof.Machine

/-! ## Waiting and the moves of the environment -/

theorem step_idle {s : State} (h : s.inputs = []) : step s = .next s := by
  simp only [step, h]

theorem step_eq_hostMove {s : State} {e : HostEvent} {rest : List Input} (h : s.inputs = .host e :: rest) :
    step s = hostMove e (s.later rest) := by
  simp only [step, h, perform]

/-- An Adapter event at the head of the list is an Adapter move, marked as inside a command or not (log 10). -/
theorem step_eq_adapterMove {s : State} {e : AdapterEvent} {rest : List Input}
    (h : s.inputs = .adapter e :: rest ∨ s.inputs = .adapterInside e :: rest) :
    step s = adapterMove e (s.later rest) := by
  obtain h | h := h
  · simp only [step, h, perform]
  · simp only [step, h, perform]

theorem hostMay_descWrite_iff (c : Cfg) (q : WqSide) (i : Nat) (bytes : List Byte) :
    hostMay c (.descWrite q i bytes) = true ↔ i < descEntries c q ∧ bytes.length ≤ descBytes c q := by
  rw [hostMay, Bool.and_eq_true, decide_eq_true_eq, decide_eq_true_eq]

/-- Settles O6: a move happens exactly where its liberty's test holds, and each test says what R139 to R141 say. -/
theorem waitingAndOutsideLiberties : Obligations.WaitingAndOutsideLiberties := by
  unfold Obligations.WaitingAndOutsideLiberties
  refine ⟨fun s => step_idle, fun s e rest hin => ?_, fun s e rest hin => ?_, fun c i r x v => ?_,
    fun c c' i r bytes prepared => ?_⟩
  · rw [step_eq_adapterMove hin]
    exact ⟨fun hno => if_neg (Bool.not_eq_true _ ▸ hno), fun hmay => if_pos hmay⟩
  · rw [step_eq_hostMove hin]
    exact ⟨fun hno => if_neg (Bool.not_eq_true _ ▸ hno), fun hmay => if_pos hmay⟩
  · exact ⟨decide_eq_true_iff, decide_eq_true_iff, decide_eq_true_iff, bne_iff_ne⟩
  · exact ⟨rfl, rfl, decide_eq_true_iff, hostMay_descWrite_iff c .sq i bytes,
      hostMay_descWrite_iff c .rq i bytes⟩

/-! ## Reset -/

/-- Settles O14: every register by definition, and the latch on either side of the test of R129. -/
theorem resetSetsEveryRegister : Obligations.ResetSetsEveryRegister := by
  unfold Obligations.ResetSetsEveryRegister
  intro c m ins s
  have hclear (hw : c.wf = true) : s.fault = none := (State.resetWith_fault c m ins).trans (if_pos hw)
  have hlatched (hw : c.wf = false) : s.fault = some badConfigLatch :=
    (State.resetWith_fault c m ins).trans (if_neg (Bool.not_eq_true _ ▸ hw))
  exact ⟨rfl, rfl, rfl, rfl, rfl, rfl, rfl, rfl, rfl, rfl, rfl, rfl, rfl, rfl, rfl, rfl, rfl, rfl, rfl,
    hclear, hlatched⟩

/-- A cleared range reads as zero, and every other byte as before. -/
theorem Memory.read_clear (m : Memory) (first length : Nat) (a : Addr) :
    Memory.read (Memory.clear m first length) a =
      if (Region.mk first length).Has a then 0 else Memory.read m a :=
  Memory.lookup_clear m first length a.toNat

/-- Prepared memory reads as zero in the CQ ring and the two sentinel records (R145). -/
theorem read_prepareMemory (c : Cfg) (m : Memory) (a : Addr) :
    Memory.read (prepareMemory c m) a =
      if c.cqRegion.Has a ∨ (Region.mk c.sentSq.toNat c.slotBytes).Has a ∨
        (Region.mk c.sentRq.toNat c.slotBytes).Has a then 0 else Memory.read m a := by
  simp only [prepareMemory, Memory.read_clear]
  rw [← ite_or, ← ite_or]
  exact if_congr (or_comm.trans (or_congr_right or_comm)) rfl rfl

/-- Settles O16: a reset is a liberty of the Host; what it leaves in memory is `read_prepareMemory`. -/
theorem resetEventPreparesMemory : Obligations.ResetEventPreparesMemory := by
  unfold Obligations.ResetEventPreparesMemory
  intro s c prepared rest hin
  refine ⟨if prepared then prepareMemory c s.mem else s.mem, step_host hin rfl, ?_, ?_⟩
  · rintro rfl
    rfl
  · rintro rfl a
    exact read_prepareMemory c s.mem a

end Sys2Proof.Machine
end
